-- ==== Sys2Proof/Word.lean ====
section
/-! DEFINITION. The words of the machine. A word is a 15-bit unsigned value (00 R9, R11: nothing is
signed); a memory cell, and so an operand word or an opcode word, has 16 bits (10 R38, 30 R101). -/

namespace Sys2Proof

/-- A word: registers, stack entries, addresses and every computed value (00 R9 `WORD_BITS`). -/
abbrev Word := BitVec 15

/-- The content of one memory cell: an opcode word, a raw operand word, or data (00 R9 `CELL_BITS`). -/
abbrev Raw := BitVec 16

/-- A byte of the snapshot stream (47 R301), the only place where bytes occur. -/
abbrev Byte := BitVec 8

/-- A word stored in a cell: zero extended, nothing is ever sign extended (00 R11). -/
abbrev Word.toRaw (w : Word) : Raw := w.setWidth 16

end Sys2Proof
end

