-- ==== Sys2Proof/Config.lean ====
section
/-! DEFINITION. The fixed parameters of the hardware (00 R9) and the parameters it leaves open (00 R10).
The open ones that are plain data make up `Params`, which State carries unchanged (log entry 3); the open
text of a bad `set` and the one value no rule states are constants without a body (log entries 4, 15). -/

namespace Sys2Proof.Config

/-- `MEM_WORDS` (00 R9). -/
abbrev memWords : Nat := 32768

/-- `REG_BASE` (00 R9): operand value 32768 + i denotes register i. -/
abbrev regBase : Nat := 32768

/-- `BP_ADDR_MAX` (00 R9): the greatest address a breakpoint may have. -/
abbrev bpAddrMax : Nat := 32775

/-- The greatest word (00 R9). -/
abbrev maxWord : Nat := 32767

/-- `MAX_SPAN` (00 R9). -/
abbrev maxSpan : Nat := 4

/-- The code unit called carriage return (46 R292, 93 K2). -/
abbrev carriageReturn : Raw := 13#16

/-- The parameters of 00 R10 that decide an instruction's effect. A capacity `none` is unbounded. -/
structure Params where
  osCapacity : Option Nat
  csCapacity : Option Nat
  callStackUnderflowFaults : Bool
  deriving DecidableEq, Repr

/-- The defaults of 00 R10. -/
def Params.default : Params :=
  { osCapacity := none, csCapacity := none, callStackUnderflowFaults := true }

/-- `SET_BADDEST_TEXT` (30 R112): the text of the first operand of a `set` that is no register reference.
Open in the spec, so free here. UNVERIFIED, log entry 4: safe. -/
opaque setBadDestText : Raw → String

/-- What a 32-bit count field of a snapshot holds for a count that 32 bits cannot hold; 47 R301 and R302
do not say. A free value. DESIGN CHOICE, log entry 15: safe. -/
opaque overlongCount : Nat → Nat

end Sys2Proof.Config
end

