-- ==== Sys2Proof/Syntax.lean ====
section
/-! DEFINITION. The instructions: one constructor for each row of spec/opcode_table.json, in the table's
order (30 R103), and what the decoder makes of the words at a position (40 R141). -/

namespace Sys2Proof

/-- An operand word in the class its value gives it (30 R104). The classes are decided when the words are
decoded, and no class makes decoding fail (30 R106); `Operand.toRaw` gives the raw word back.
DESIGN CHOICE, log entry 9: safe. -/
inductive Operand where
  /-- 0..32767: the value itself. -/
  | lit (w : Word)
  /-- 32768..32775: register r. -/
  | reg (r : Fin 8)
  /-- 32776..65535: names nothing. -/
  | bad (v : Raw)
  deriving DecidableEq, Repr

/-- The 22 instructions (30 R103). `input` is the row `in`, which is a word of Lean's own. -/
inductive Instr where
  | halt
  | set (a b : Operand)
  | push (a : Operand)
  | pop (a : Operand)
  | eq (a b c : Operand)
  | gt (a b c : Operand)
  | jmp (a : Operand)
  | jt (a b : Operand)
  | jf (a b : Operand)
  | add (a b c : Operand)
  | mult (a b c : Operand)
  | mod (a b c : Operand)
  | and (a b c : Operand)
  | or (a b c : Operand)
  | not (a b : Operand)
  | rmem (a b : Operand)
  | wmem (a b : Operand)
  | call (a : Operand)
  | ret
  | out (a : Operand)
  | input (a : Operand)
  | noop
  deriving DecidableEq, Repr

/-- The operands in the order a, b, c (30 R100). -/
def Instr.operands : Instr → List Operand
  | .halt => []
  | .set a b => [a, b]
  | .push a => [a]
  | .pop a => [a]
  | .eq a b c => [a, b, c]
  | .gt a b c => [a, b, c]
  | .jmp a => [a]
  | .jt a b => [a, b]
  | .jf a b => [a, b]
  | .add a b c => [a, b, c]
  | .mult a b c => [a, b, c]
  | .mod a b c => [a, b, c]
  | .and a b c => [a, b, c]
  | .or a b c => [a, b, c]
  | .not a b => [a, b]
  | .rmem a b => [a, b]
  | .wmem a b => [a, b]
  | .call a => [a]
  | .ret => []
  | .out a => [a]
  | .input a => [a]
  | .noop => []

/-- The words an instruction occupies, its opcode word included (30 R100). -/
def Instr.span (i : Instr) : Nat := i.operands.length + 1

/-- What the words at a position spell: an instruction, or the Unknown placeholder that holds an opcode word
outside 0..21 (40 R142). -/
inductive Body where
  | instr (i : Instr)
  | unknown (word0 : Raw)
  deriving DecidableEq, Repr

/-- The spec's Instruction record (40 R141): its position, and what stands there. The record's other fields
(op, word0, operands, text, span) are functions of these two. -/
structure Decoded where
  pos : Word
  body : Body
  deriving DecidableEq, Repr

/-- A placeholder spans one word (40 R142). -/
def Body.span : Body → Nat
  | .instr i => i.span
  | .unknown _ => 1

/-- The words of the record, opcode word included (40 R141). -/
abbrev Decoded.span (d : Decoded) : Nat := d.body.span

end Sys2Proof
end

