-- ==== Sys2Proof/WellFormed.lean ====
section
/-! DEFINITION. Which terms the decoder can produce: the classes of 30 R104 split the operand words, so an
operand called invalid holds a value of the invalid class, and a placeholder holds no opcode (40 R142). -/

namespace Sys2Proof

/-- A `bad` operand holds a value in 32776..65535 (30 R104); the other classes hold what their type allows. -/
def Operand.wf : Operand → Bool
  | .lit _ => true
  | .reg _ => true
  | .bad v => decide (32776 ≤ v.toNat)

/-- Every operand is well formed. -/
def Instr.wf (i : Instr) : Bool := i.operands.all Operand.wf

/-- A placeholder holds an opcode word outside 0..21 (30 R108). -/
def Body.wf : Body → Bool
  | .instr i => i.wf
  | .unknown w => decide (22 ≤ w.toNat)

end Sys2Proof
end

