-- ==== Sys2Proof/Decode.lean ====
section
/-! DEFINITION. The decoder on a list of words (40 R144), total, which rejects by name; the encoder (30 R114)
and the disassembly text (40 R145). Where the words come from, and the range check of 40 R143, is
`decodeAt` in Machine/Ops.lean. -/

namespace Sys2Proof

/-- The class of an operand word (30 R104). -/
def Operand.ofRaw (v : Raw) : Operand :=
  if v.toNat ≤ 32767 then .lit (BitVec.ofNat 15 v.toNat)
  else if v.toNat ≤ 32775 then .reg ⟨(v.toNat - 32768) % 8, Nat.mod_lt _ (by decide)⟩
  else .bad v

/-- The raw operand word (30 R104): a literal is used unchanged, register i is 32768 + i. -/
def Operand.toRaw : Operand → Raw
  | .lit w => BitVec.ofNat 16 w.toNat
  | .reg r => BitVec.ofNat 16 (Config.regBase + r.val)
  | .bad v => v

/-- What the words at a position are. -/
inductive DecodeResult where
  /-- One of the 22 instructions, and the words after it. -/
  | instr (i : Instr) (rest : List Raw)
  /-- The opcode word is outside 0..21 (40 R142), and the words after it. -/
  | unknown (word0 : Raw) (rest : List Raw)
  /-- The words end before the instruction does (40 R143). -/
  | truncated
  deriving DecidableEq, Repr

/-- Format F0 (30 R101). -/
def decodeF0 (i : Instr) (ws : List Raw) : DecodeResult := .instr i ws

/-- Format F1 (30 R101). -/
def decodeF1 (f : Operand → Instr) : List Raw → DecodeResult
  | a :: ws => .instr (f (.ofRaw a)) ws
  | _ => .truncated

/-- Format F2 (30 R101). -/
def decodeF2 (f : Operand → Operand → Instr) : List Raw → DecodeResult
  | a :: b :: ws => .instr (f (.ofRaw a) (.ofRaw b)) ws
  | _ => .truncated

/-- Format F3 (30 R101). -/
def decodeF3 (f : Operand → Operand → Operand → Instr) : List Raw → DecodeResult
  | a :: b :: c :: ws => .instr (f (.ofRaw a) (.ofRaw b) (.ofRaw c)) ws
  | _ => .truncated

/-- The opcode word selects by its full 16-bit value (30 R103); the operands follow it, left to right
(30 R100, 40 R144). -/
def decodeOpcode (w0 : Raw) (ws : List Raw) : DecodeResult :=
  match w0.toNat with
  | 0 => decodeF0 .halt ws
  | 1 => decodeF2 .set ws
  | 2 => decodeF1 .push ws
  | 3 => decodeF1 .pop ws
  | 4 => decodeF3 .eq ws
  | 5 => decodeF3 .gt ws
  | 6 => decodeF1 .jmp ws
  | 7 => decodeF2 .jt ws
  | 8 => decodeF2 .jf ws
  | 9 => decodeF3 .add ws
  | 10 => decodeF3 .mult ws
  | 11 => decodeF3 .mod ws
  | 12 => decodeF3 .and ws
  | 13 => decodeF3 .or ws
  | 14 => decodeF2 .not ws
  | 15 => decodeF2 .rmem ws
  | 16 => decodeF2 .wmem ws
  | 17 => decodeF1 .call ws
  | 18 => decodeF0 .ret ws
  | 19 => decodeF1 .out ws
  | 20 => decodeF1 .input ws
  | 21 => decodeF0 .noop ws
  | _ => .unknown w0 ws

/-- Decoding a list of words, the opcode word first (40 R144). -/
def decodeWords : List Raw → DecodeResult
  | [] => .truncated
  | w0 :: ws => decodeOpcode w0 ws

/-- The opcode number (30 R103). -/
def Instr.opcode : Instr → Nat
  | .halt => 0
  | .set _ _ => 1
  | .push _ => 2
  | .pop _ => 3
  | .eq _ _ _ => 4
  | .gt _ _ _ => 5
  | .jmp _ => 6
  | .jt _ _ => 7
  | .jf _ _ => 8
  | .add _ _ _ => 9
  | .mult _ _ _ => 10
  | .mod _ _ _ => 11
  | .and _ _ _ => 12
  | .or _ _ _ => 13
  | .not _ _ => 14
  | .rmem _ _ => 15
  | .wmem _ _ => 16
  | .call _ => 17
  | .ret => 18
  | .out _ => 19
  | .input _ => 20
  | .noop => 21

/-- Encoding (30 R114): the opcode word, then the raw operands. -/
def encode (i : Instr) : List Raw := BitVec.ofNat 16 i.opcode :: i.operands.map Operand.toRaw

/-- `ARITY` (30 R103): the number of operand words of an opcode, and 0 for a word outside 0..21, whose
placeholder has none (40 R142). -/
def arity (w0 : Nat) : Nat := [0, 2, 1, 1, 3, 3, 1, 2, 2, 3, 3, 3, 3, 3, 2, 2, 2, 1, 0, 1, 1, 0].getD w0 0

/-- The mnemonic (30 R103), in lower case (30 R111). -/
def Instr.mnemonic : Instr → String
  | .halt => "halt"
  | .set _ _ => "set"
  | .push _ => "push"
  | .pop _ => "pop"
  | .eq _ _ _ => "eq"
  | .gt _ _ _ => "gt"
  | .jmp _ => "jmp"
  | .jt _ _ => "jt"
  | .jf _ _ => "jf"
  | .add _ _ _ => "add"
  | .mult _ _ _ => "mult"
  | .mod _ _ _ => "mod"
  | .and _ _ _ => "and"
  | .or _ _ _ => "or"
  | .not _ _ => "not"
  | .rmem _ _ => "rmem"
  | .wmem _ _ => "wmem"
  | .call _ => "call"
  | .ret => "ret"
  | .out _ => "out"
  | .input _ => "in"
  | .noop => "noop"

/-- An upper-case hexadecimal digit (30 R111). -/
def hexDigit (n : Nat) : Char :=
  ['0', '1', '2', '3', '4', '5', '6', '7', '8', '9', 'A', 'B', 'C', 'D', 'E', 'F'].getD (n % 16) '0'

/-- A word as four hexadecimal digits (40 R142). -/
def hex4 (v : Raw) : String :=
  String.ofList [hexDigit (v.toNat / 4096), hexDigit (v.toNat / 256), hexDigit (v.toNat / 16), hexDigit v.toNat]

/-- The text of an operand word (40 R145). -/
def Operand.text : Operand → String
  | .reg r => String.ofList ['R', hexDigit r.val]
  | .lit w => hex4 (Operand.lit w).toRaw
  | .bad v => hex4 v

/-- The text of the destination of `set`, which has the register form only (30 R112). -/
def Operand.strictText : Operand → String
  | .reg r => (Operand.reg r).text
  | .lit w => Config.setBadDestText (Operand.lit w).toRaw
  | .bad v => Config.setBadDestText v

/-- The texts of the operands, joined by a comma and a space (30 R111). -/
def joinTexts : List String → String
  | [] => ""
  | [t] => t
  | t :: ts => t ++ ", " ++ joinTexts ts

/-- The texts of the operands of an instruction, the destination of `set` in its strict form (40 R145). -/
def Instr.operandTexts : Instr → List String
  | .set a b => [a.strictText, b.text]
  | i => i.operands.map Operand.text

/-- The disassembly text (40 R145): the mnemonic, and a space before the operands where there are any. -/
def Instr.text (i : Instr) : String :=
  match i.operandTexts with
  | [] => i.mnemonic
  | ts => i.mnemonic ++ " " ++ joinTexts ts

/-- The text of a decoded body; a placeholder's is its word (40 R142). -/
def Body.text : Body → String
  | .instr i => i.text
  | .unknown w => hex4 w

/-- The raw opcode word of a decoded record (40 R141). -/
def Body.word0 : Body → Raw
  | .instr i => BitVec.ofNat 16 i.opcode
  | .unknown w => w

/-- The raw operand words of a decoded record (40 R141, R142). -/
def Body.rawOperands : Body → List Raw
  | .instr i => i.operands.map Operand.toRaw
  | .unknown _ => []

/-- Two decodes are the same "by text+position" (40 R146, R152). The first disjunct only spares the
comparison of texts where the words are the same. -/
def Decoded.sameAs (d e : Decoded) : Bool :=
  decide (d.pos = e.pos) && (decide (d.body = e.body) || decide (d.body.text = e.body.text))

/-- The words, the first at the lowest address, of an instruction whose bits are `w`, bit 0 the least
significant bit of the first word; every bit from `nbits` on is 0. -/
def tableWords (nbits w : Nat) : List Raw :=
  [0, 1, 2, 3].map fun k => BitVec.ofNat 16 (w % 2 ^ nbits / 2 ^ (16 * k))

/-- What the decoder reads from the words of an opcode-table row. -/
def decodeTableWord (nbits w : Nat) : Option Instr :=
  match decodeWords (tableWords nbits w) with
  | .instr i _ => some i
  | .unknown _ _ => none
  | .truncated => none

end Sys2Proof
end

