-- ==== Sys2Proof/Machine/State.lean ====
section
/-! DEFINITION. Everything the machine holds (10 R30 to R55), as plain data, and its value after reset. -/

namespace Sys2Proof.Machine

/-- The memory array (10 R38): the cells that hold another value than 0, by rising address. A cell not
listed reads 0, the value load gives it (10 R40). The machine has no bytes (20 R73); log entry 8. -/
abbrev Memory := List (Nat × Raw)

/-- `FAULT_CAUSE` (60 R400). -/
inductive FaultCause where
  | none
  | pcRange
  | osUnderflow
  | modZero
  | badOperand
  | setDest
  | unknownOpcode
  | decodeRange
  | badData
  | csUnderflow
  | stackOverflow
  deriving DecidableEq, Repr

/-- `ES`, the execution state (10 R48). -/
inductive EngineState where
  | ready
  | running
  | paused
  | halted
  deriving DecidableEq, Repr

/-- Step result codes (42 R182). -/
inductive StepResult where
  | notAdvanced
  | continue
  | paused
  | halted
  | fault
  deriving DecidableEq, Repr

/-- The kinds of breakpoint trigger (41 R164). -/
inductive Trigger where
  | exec
  | write
  | read
  deriving DecidableEq, Repr

/-- One entry of the breakpoint table (10 R52). -/
structure BpEntry where
  addr : Nat
  exec : Bool
  write : Bool
  read : Bool
  deriving DecidableEq, Repr

/-- The command port (42 R181). -/
inductive Command where
  | load (image : List Raw)
  | stepInto
  | stepOver
  | run
  | pause
  | stop
  | toggle (addr : Nat) (exec write read : Bool)
  | save
  | loadState (bytes : List Byte)
  deriving DecidableEq, Repr

/-- The one response of a command (42 R181); pause and stop have none. -/
inductive Response where
  /-- step-into, step-over and run (42 R182). -/
  | step (r : StepResult)
  /-- toggle-breakpoint (41 R162). -/
  | enabled
  | disabled
  | rejected
  /-- load and load-state. -/
  | ok
  /-- load (70 R500). -/
  | loadTooLong
  /-- load-state (47 R304). -/
  | restoreMalformed
  /-- any command but load and load-state before the first load (70 R503). -/
  | notLoaded
  /-- save (47 R303). -/
  | snapshot (bytes : List Byte)
  deriving DecidableEq, Repr

/-- What the consolidated refresh covers (42 R203). -/
structure Refresh where
  mem : Memory
  regs : Vector Word 8
  os : List Word
  cs : List Word
  view : Word
  deriving DecidableEq, Repr

/-- The notifications (42 R202). -/
inductive Notification where
  | memoryChanged (addr : Word) (value : Word)
  | registerChanged (index : Fin 8) (value : Word)
  | operandStackPushed (value : Word)
  | operandStackPopped
  | callStackPushed (value : Word)
  | callStackPopped
  | breakpointToggled (addr : Nat) (enabled : Bool)
  | halted
  | decodeViewChanged (old new : Word)
  | disasmReset
  | disasmInsertedAt (pos : Word)
  | disasmUpdatedAt (pos : Word)
  | disasmRemovedAt (pos : Word)
  | consolidatedRefresh (r : Refresh)
  deriving DecidableEq, Repr

/-- What the host does at one step boundary (60 R427): nothing, or it issues a command, or it supplies a code
unit to the input port. -/
inductive HostEvent where
  | tick
  | command (c : Command)
  | supply (unit : Raw)
  deriving DecidableEq, Repr

/-- The command in flight at a step boundary (42 R201): none; a step-into, which is in flight at a boundary
only while its `in` holds; a step-over on a `call`; a run. Notifications are suppressed exactly while a run is
in flight (42 R203). -/
inductive Flight where
  | idle
  | single
  | over
  | run
  deriving DecidableEq, Repr

/-- An `in` that holds until the host supplies a code unit (46 R290): its destination, and whether the
carriage return of 46 R292 has been taken. -/
structure Hold where
  dest : Operand
  afterCr : Bool
  deriving DecidableEq, Repr

/-- The reasons for which a step of the model stops. There is none: every fault of the spec halts the machine
and is a next state (60 R401, R415), so no instruction and no step stops the model. DEDUCED, log entry 5. -/
inductive Fault : Type
  deriving DecidableEq, Repr

/-- The reasons for which the model gives an instruction no meaning. -/
inductive Refusal where
  /-- Raised by an arm of `exec` whose instruction has no meaning yet: safe. No arm raises it. -/
  | notModelled (mnemonic : String)
  deriving DecidableEq, Repr

/-- The machine's state. INVENTORY.md names the rule of each field. -/
structure State where
  /-- `R0`..`R7` (10 R30). -/
  regs : Vector Word 8
  /-- `PC` (10 R34). -/
  pc : Word
  /-- `M` (10 R38). -/
  mem : Memory
  /-- `OS`, the last element the top (10 R41, 00 R12). -/
  os : List Word
  /-- `CS`, the last element the top (10 R42, 00 R12). -/
  cs : List Word
  /-- `DEPTH` (10 R44). -/
  depth : Int
  /-- `HALTED` (10 R45). -/
  halted : Bool
  /-- `PAUSE_PENDING` (10 R46). -/
  pausePending : Bool
  /-- `FAULTED` (10 R47). -/
  faulted : Bool
  /-- `FAULT_CAUSE` (10 R47). -/
  faultCause : FaultCause
  /-- `ES` (10 R48). -/
  es : EngineState
  /-- `BT`, in insertion order (10 R52). -/
  bt : List BpEntry
  /-- `IC` (10 R53), by rising position. -/
  ic : List Decoded
  /-- An image or a snapshot has been loaded (70 R503). -/
  loaded : Bool
  /-- The command in flight (42 R201). -/
  flight : Flight
  /-- The `in` that holds (42 R189). -/
  hold : Option Hold
  /-- The result of the last StepInto, none while one is in progress (42 R182). -/
  stepResult : Option StepResult
  /-- The response of the last command, none while it is in flight (42 R181). -/
  response : Option Response
  /-- Commands issued and not yet performed, in the order issued (42 R201). -/
  pending : List Command
  /-- What the host does at the boundaries to come (60 R427); when it is exhausted, nothing more (log entry 1).
  That the list is finite, so that the host falls silent in the end, is a DESIGN CHOICE, log entry 22: unsafe for
  claims about what happens in the end. -/
  schedule : List HostEvent
  /-- Code units supplied and not yet taken (46 R290), a finite list (DESIGN CHOICE, log entries 7, 22). -/
  input : List Raw
  /-- Code units sent to the output sink, in order (46 R291). -/
  output : List Word
  /-- Notifications emitted, in order (42 R202). -/
  notes : List Notification
  /-- The open parameters (00 R10), which no step changes. -/
  params : Config.Params
  deriving DecidableEq, Repr

/-- The state after reset: what load gives for the empty image (70 R500, R503; 10 R55), so memory reads 0
everywhere and the cache holds the `halt` at 0. No host event, input or notification is recorded yet.
Log entries 2, 7, 13. -/
def State.reset : State :=
  { regs := Vector.replicate 8 0#15
    pc := 0#15
    mem := []
    os := []
    cs := []
    depth := 0
    halted := false
    pausePending := false
    faulted := false
    faultCause := .none
    es := .ready
    bt := []
    ic := [{ pos := 0#15, body := .instr .halt }]
    loaded := true
    flight := .idle
    hold := none
    stepResult := none
    response := none
    pending := []
    schedule := []
    input := []
    output := []
    notes := []
    params := Config.Params.default }

/-- The block before the first load (70 R503): nothing but load and load-state is accepted. The spec defines
no other field here. DESIGN CHOICE, log entry 18: unsafe. -/
def State.powerOn : State := { State.reset with ic := [], loaded := false }

/-- How a part of an instruction ends: with a value and the state it leaves, or with a fault, whose actions are
already performed in the state it leaves (42 R188). -/
inductive Flow (α : Type) where
  | ok (a : α) (s : State)
  | stop (s : State)

end Sys2Proof.Machine
end

