-- ==== Sys2Proof/Machine/Ops.lean ====
section
/-! DEFINITION. The named operations over the state: notifications, faults, memory and the instruction cache,
registers, the two stacks, breakpoints, fetching. -/

namespace Sys2Proof.Machine

/-! ### How results are chained -/

/-- Go on with `f` unless a fault ended the step (42 R188). -/
def Flow.andThen {α : Type} (m : Flow α) (f : α → State → Host.Outcome State Fault Refusal) :
    Host.Outcome State Fault Refusal :=
  match m with
  | .ok a s => f a s
  | .stop s => .next s

/-- The state a part leaves, be it by a fault or not. -/
def Flow.state {α : Type} : Flow α → State
  | .ok _ s => s
  | .stop s => s

/-- Apply `f` to the next state. -/
def onNext (f : State → State) :
    Host.Outcome State Fault Refusal → Host.Outcome State Fault Refusal
  | .next s => .next (f s)
  | .fault r => .fault r
  | .refused r => .refused r

/-! ### Notifications (42 R202, R203) -/

/-- Emit notifications, unless a run suppresses them (42 R203). -/
def emitAll (ns : List Notification) (s : State) : State :=
  match s.flight with
  | .run => s
  | .idle => { s with notes := s.notes ++ ns }
  | .single => { s with notes := s.notes ++ ns }
  | .over => { s with notes := s.notes ++ ns }

/-- Emit one notification, unless a run suppresses it (42 R203). -/
def emit (n : Notification) (s : State) : State := emitAll [n] s

/-- Emit the consolidated refresh, which nothing suppresses (42 R203). -/
def emitRefresh (s : State) : State :=
  { s with notes := s.notes ++
      [.consolidatedRefresh { mem := s.mem, regs := s.regs, os := s.os, cs := s.cs, view := s.pc }] }

/-! ### Faults (60 R401) -/

/-- Raise a fault: FAULTED, its cause and HALTED are set, `halted()` is emitted where HALTED was false, and the
step in progress returns FAULT. Nothing is rolled back and PC stays as the step had it (60 R401, R414). There
is no vector, no handler and no return (60 R415, R416). -/
def raiseFault (c : FaultCause) (s : State) : State :=
  if s.halted then { s with faulted := true, faultCause := c, stepResult := some .fault }
  else emit .halted { s with faulted := true, faultCause := c, stepResult := some .fault, halted := true }

/-! ### Memory (20 R70, R71) -/

/-- The content of the cell at an address, 0 where nothing is listed (10 R40). -/
def Memory.read : Memory → Nat → Raw
  | [], _ => 0#16
  | (k, v) :: m, a => if k = a then v else Memory.read m a

/-- List a cell in its place by address, instead of one that is listed there. -/
def Memory.put : Memory → Nat → Raw → Memory
  | [], a, v => [(a, v)]
  | (k, u) :: m, a, v =>
    if a < k then (a, v) :: (k, u) :: m
    else if a = k then (a, v) :: m
    else (k, u) :: Memory.put m a v

/-- Write a cell. The addresses stay rising, and a cell that gets 0 is no longer listed. -/
def Memory.write (m : Memory) (a : Nat) (v : Raw) : Memory :=
  if v = 0#16 then m.filter fun c => decide (c.1 ≠ a) else m.put a v

/-- Cells from an address on, with the given contents, over a memory that is 0 elsewhere (70 R500). -/
def Memory.ofCells : Nat → List Raw → Memory
  | _, [] => []
  | a, v :: vs => if v = 0#16 then Memory.ofCells (a + 1) vs else (a, v) :: Memory.ofCells (a + 1) vs

/-- The canonical form: addresses strictly rising and inside memory, no cell listed that holds 0. -/
abbrev Memory.wf (m : Memory) : Prop :=
  m.Pairwise (fun c d => c.1 < d.1) ∧ ∀ c ∈ m, c.1 < Config.memWords ∧ c.2 ≠ 0#16

/-- The words at a position, up to the longest instruction and the end of memory (40 R140, R143). -/
def Memory.window (m : Memory) (p : Word) : List Raw :=
  (([0, 1, 2, 3].map (p.toNat + ·)).filter (· < Config.memWords)).map m.read

/-- `Decode(M, p)` (40 R144): none is the fault DECODE_RANGE (40 R143). -/
def decodeAt (m : Memory) (p : Word) : Option Decoded :=
  match decodeWords (m.window p) with
  | .instr i _ => some { pos := p, body := .instr i }
  | .unknown w _ => some { pos := p, body := .unknown w }
  | .truncated => none

/-! ### The instruction cache (40 R148 to R153) -/

/-- The entry at a position (40 R149). -/
def cacheLookup (ic : List Decoded) (p : Word) : Option Decoded := ic.find? fun d => decide (d.pos = p)

/-- An entry's span covers an address (40 R151). -/
def covers (a : Nat) (d : Decoded) : Bool := decide (d.pos.toNat ≤ a) && decide (a < d.pos.toNat + d.span)

/-- Put an entry in its place by position, in the place of the one at that position if there is one. -/
def cachePut (d : Decoded) : List Decoded → List Decoded
  | [] => [d]
  | e :: es =>
    if d.pos.toNat < e.pos.toNat then d :: e :: es
    else if d.pos = e.pos then d :: es
    else e :: cachePut d es

/-- Insertion (40 R152). -/
def cacheInsert (d : Decoded) (s : State) : State :=
  match cacheLookup s.ic d.pos with
  | none => emit (.disasmInsertedAt d.pos) { s with ic := cachePut d s.ic }
  | some e =>
    if e.sameAs d then s else emit (.disasmUpdatedAt d.pos) { s with ic := cachePut d s.ic }

/-- Eviction (40 R151): every entry whose span covers the address. The notifications come by rising position
(DESIGN CHOICE, log entry 10: unsafe for claims about their order only). -/
def cacheEvict (a : Nat) (s : State) : State :=
  emitAll ((s.ic.filter (covers a)).map fun d => .disasmRemovedAt d.pos)
    { s with ic := s.ic.filter fun d => !covers a d }

/-- `MemWrite(a, 1, x)` (20 R71): the cell, the eviction, the notification. -/
def memWrite (a x : Word) (s : State) : State :=
  emit (.memoryChanged a x) (cacheEvict a.toNat { s with mem := s.mem.write a.toNat x.toRaw })

/-- A decode at PC by the engine: the record goes into the cache, or the decode faults (40 R143, R147). -/
def decodeHere (s : State) : Flow Decoded :=
  match decodeAt s.mem s.pc with
  | some d => .ok d (cacheInsert d s)
  | none => .stop (raiseFault .decodeRange s)

/-- Fetch at PC (40 R149): the cached entry, else a fresh decode. -/
def fetch (s : State) : Flow Decoded :=
  match cacheLookup s.ic s.pc with
  | some d => .ok d s
  | none => decodeHere s

/-! ### Registers (10 R30, R31) -/

/-- The register's number in the address spaces of operands and breakpoints (20 R78). -/
def regAddr (r : Fin 8) : Nat := Config.regBase + r.val

/-- `R[r]`. -/
def readReg (r : Fin 8) (s : State) : Word := s.regs[r]

/-- `R[r] <- x`, with its notification (42 R191). -/
def writeReg (r : Fin 8) (x : Word) (s : State) : State :=
  emit (.registerChanged r x) { s with regs := s.regs.set r x }

/-! ### Breakpoints (41) -/

/-- The trigger of that kind is set. -/
def BpEntry.has (e : BpEntry) : Trigger → Bool
  | .exec => e.exec
  | .write => e.write
  | .read => e.read

/-- `BpCheck(addr, kind)` (41 R164). -/
def bpCheck (bt : List BpEntry) (addr : Nat) (k : Trigger) : Bool :=
  bt.any fun e => decide (e.addr = addr) && e.has k

/-- `ArmPause()` (00 R13) where the check hits; a hit never stops the instruction (41 R169). -/
def armIf (hit : Bool) (s : State) : State := { s with pausePending := s.pausePending || hit }

/-! ### The stacks (10 R41, R42) -/

/-- The top of a stack and what is below it; the last element is the top (00 R12). -/
def topOf (l : List Word) : Option (Word × List Word) :=
  match l.getLast? with
  | some x => some (x, l.dropLast)
  | none => none

/-- The depth equals a finite capacity (60 R412). -/
def atCapacity (cap : Option Nat) (l : List Word) : Bool := decide (cap = some l.length)

/-- `Push(OS, x)` with its notification (44 R253). -/
def pushOs (x : Word) (s : State) : State := emit (.operandStackPushed x) { s with os := s.os ++ [x] }

/-- `Push(CS, x)` with its notification (43 R235). -/
def pushCs (x : Word) (s : State) : State := emit (.callStackPushed x) { s with cs := s.cs ++ [x] }

/-- The operand stack without its top, with the notification (44 R255). -/
def dropOs (s : State) : State := emit .operandStackPopped { s with os := s.os.dropLast }

/-- The call stack without its top, with the notification (43 R236). -/
def dropCs (s : State) : State := emit .callStackPopped { s with cs := s.cs.dropLast }

end Sys2Proof.Machine
end

