-- ==== Sys2Proof/Machine/Flags.lean ====
section
/-! DEFINITION. The machine has no condition codes (10 R50): a comparison gives 0 or 1 as an ordinary value.
The status bits make up the STATUS word (10 R49). -/

namespace Sys2Proof.Machine

/-- The value of a comparison (45 R272, R273). -/
def truth (b : Bool) : Word := if b then 1#15 else 0#15

/-- The 4-bit code of a fault cause (60 R400). -/
def FaultCause.code : FaultCause → BitVec 4
  | .none => 0
  | .pcRange => 1
  | .osUnderflow => 2
  | .modZero => 3
  | .badOperand => 4
  | .setDest => 5
  | .unknownOpcode => 6
  | .decodeRange => 7
  | .badData => 8
  | .csUnderflow => 9
  | .stackOverflow => 10

/-- The 2-bit code of the execution state (10 R49). -/
def EngineState.code : EngineState → BitVec 2
  | .ready => 0
  | .running => 1
  | .paused => 2
  | .halted => 3

/-- The numeric value of a step result (42 R182). -/
def StepResult.code : StepResult → Nat
  | .notAdvanced => 0
  | .continue => 1
  | .paused => 2
  | .halted => 3
  | .fault => 4

/-- STATUS (10 R49), from bit 15 down: reserved, FAULT_CAUSE, reserved, FAULTED, PAUSE_PENDING, HALTED, ES. -/
def State.statusWord (s : State) : BitVec 16 :=
  0#4 ++ s.faultCause.code ++ 0#3 ++ BitVec.ofBool s.faulted ++ BitVec.ofBool s.pausePending ++
    BitVec.ofBool s.halted ++ s.es.code

end Sys2Proof.Machine
end

