-- ==== Sys2Proof/Machine/Operands.lean ====
section
/-! DEFINITION. The operand primitives (42 R190, R191), in every form an operand has (30 R104). -/

namespace Sys2Proof.Machine

/-- A read breakpoint is armed on the register an operand names; a literal is no access (41 R166, R168). -/
def readHit (v : Operand) (s : State) : Bool :=
  match v with
  | .lit _ => false
  | .reg r => bpCheck s.bt (regAddr r) .read
  | .bad _ => false

/-- `Resolve(v)` (42 R190). -/
def resolve (v : Operand) (s : State) : Flow Word :=
  match v with
  | .lit w => .ok w s
  | .reg r => .ok (readReg r s) (armIf (readHit v s) s)
  | .bad _ => .stop (raiseFault .badOperand s)

/-- A write breakpoint is armed on the register or the cell an operand names (41 R167). -/
def writeHit (v : Operand) (s : State) : Bool :=
  match v with
  | .lit w => bpCheck s.bt w.toNat .write
  | .reg r => bpCheck s.bt (regAddr r) .write
  | .bad _ => false

/-- `StoreTo(v, x)` (42 R191). -/
def storeTo (v : Operand) (x : Word) (s : State) : State :=
  match v with
  | .lit a => memWrite a x (armIf (writeHit v s) s)
  | .reg r => writeReg r x (armIf (writeHit v s) s)
  | .bad _ => raiseFault .badOperand s

/-- Store 16 bits that come from a cell or from the input port, if they are a word (60 R409). -/
def storeData (v : Operand) (c : Raw) (s : State) : State :=
  if Config.maxWord < c.toNat then raiseFault .badData s else storeTo v (BitVec.ofNat 15 c.toNat) s

end Sys2Proof.Machine
end

