-- ==== Sys2Proof/Machine/ArithLogic.lean ====
section
/-! DEFINITION. The arithmetic, comparison and bitwise instructions (45). Each result is computed exactly and
then reduced modulo 32768 (45 R270). -/

namespace Sys2Proof.Machine

/-- The mathematical result modulo 32768 (45 R270). -/
def reduce (n : Nat) : Word := BitVec.ofNat 15 n

/-- The common shape (45 R271): the sources b, then c, then the destination. -/
def binary (f : Word → Word → Word) (a b c : Operand) (s : State) : Host.Outcome State Fault Refusal :=
  (resolve b s).andThen fun x s => (resolve c s).andThen fun y s => .next (storeTo a (f x y) s)

/-- eq a, b, c (45 R272). -/
def execEq (a b c : Operand) (s : State) : Host.Outcome State Fault Refusal :=
  binary (fun x y => truth (decide (x = y))) a b c s

/-- gt a, b, c (45 R273). -/
def execGt (a b c : Operand) (s : State) : Host.Outcome State Fault Refusal :=
  binary (fun x y => truth (decide (y.toNat < x.toNat))) a b c s

/-- add a, b, c (45 R274). -/
def execAdd (a b c : Operand) (s : State) : Host.Outcome State Fault Refusal :=
  binary (fun x y => reduce (x.toNat + y.toNat)) a b c s

/-- mult a, b, c (45 R275). -/
def execMult (a b c : Operand) (s : State) : Host.Outcome State Fault Refusal :=
  binary (fun x y => reduce (x.toNat * y.toNat)) a b c s

/-- mod a, b, c (45 R276): a zero divisor faults before the destination is examined. -/
def execMod (a b c : Operand) (s : State) : Host.Outcome State Fault Refusal :=
  (resolve b s).andThen fun x s => (resolve c s).andThen fun y s =>
    if y = 0#15 then .next (raiseFault .modZero s)
    else .next (storeTo a (reduce (x.toNat % y.toNat)) s)

/-- and a, b, c (45 R277). -/
def execAnd (a b c : Operand) (s : State) : Host.Outcome State Fault Refusal :=
  binary (fun x y => x &&& y) a b c s

/-- or a, b, c (45 R278). -/
def execOr (a b c : Operand) (s : State) : Host.Outcome State Fault Refusal :=
  binary (fun x y => x ||| y) a b c s

/-- not a, b (45 R279): the complement of 15 bits. -/
def execNot (a b : Operand) (s : State) : Host.Outcome State Fault Refusal :=
  (resolve b s).andThen fun x s => .next (storeTo a (~~~x) s)

end Sys2Proof.Machine
end

