-- ==== Sys2Proof/Machine/CharIo.lean ====
section
/-! DEFINITION. The character instructions and their ports (46). -/

namespace Sys2Proof.Machine

/-- `Out(x)` (46 R290): the sink takes every code unit. -/
def send (x : Word) (s : State) : State := { s with output := s.output ++ [x] }

/-- out a (46 R291). -/
def execOut (a : Operand) (s : State) : Host.Outcome State Fault Refusal :=
  (resolve a s).andThen fun x s => .next (send x s)

/-- The code unit after a carriage return, whatever it is (46 R292); where none is there the step holds
(46 R290). -/
def takeAfterCr (a : Operand) (s : State) : State :=
  match s.input with
  | [] => { s with hold := some { dest := a, afterCr := true } }
  | c :: rest => storeData a c { s with input := rest, hold := none }

/-- The first code unit (46 R292); where none is there the step holds (46 R290). -/
def takeUnit (a : Operand) (s : State) : State :=
  match s.input with
  | [] => { s with hold := some { dest := a, afterCr := false } }
  | c :: rest =>
    if c = Config.carriageReturn then takeAfterCr a { s with input := rest, hold := none }
    else storeData a c { s with input := rest, hold := none }

/-- in a (46 R292). Where no code unit is there the step holds: the next state is the one in which it waits,
and `resumeHold` goes on from it (log entry 6). -/
def execIn (a : Operand) (s : State) : Host.Outcome State Fault Refusal := .next (takeUnit a s)

/-- Go on with an `in` that holds. -/
def resumeHold (h : Hold) (s : State) : State :=
  if h.afterCr then takeAfterCr h.dest s else takeUnit h.dest s

end Sys2Proof.Machine
end

