-- ==== Sys2Proof/Machine/Control.lean ====
section
/-! DEFINITION. The control instructions (43). A meaning runs after the engine has advanced PC, so PC is the
address of the instruction that follows (42 R184). -/

namespace Sys2Proof.Machine

/-- `pc <- t` with `t` a resolved target (43 R230). -/
def jumpTo (v : Operand) (s : State) : Host.Outcome State Fault Refusal :=
  (resolve v s).andThen fun t s => .next { s with pc := t }

/-- A branch whose target is resolved only when it is taken (43 R233, R234). -/
def branchIf (taken : Word → Bool) (a b : Operand) (s : State) : Host.Outcome State Fault Refusal :=
  (resolve a s).andThen fun c s => if taken c then jumpTo b s else .next s

/-- halt (43 R231). -/
def execHalt (s : State) : Host.Outcome State Fault Refusal :=
  .next (emit .halted { s with halted := true })

/-- jmp a (43 R232). -/
def execJmp (a : Operand) (s : State) : Host.Outcome State Fault Refusal := jumpTo a s

/-- jt a, b (43 R233). -/
def execJt (a b : Operand) (s : State) : Host.Outcome State Fault Refusal :=
  branchIf (fun c => decide (c ≠ 0#15)) a b s

/-- jf a, b (43 R234). -/
def execJf (a b : Operand) (s : State) : Host.Outcome State Fault Refusal :=
  branchIf (fun c => decide (c = 0#15)) a b s

/-- call a (43 R235): the target is resolved before anything is pushed. -/
def execCall (a : Operand) (s : State) : Host.Outcome State Fault Refusal :=
  (resolve a s).andThen fun t s =>
    if atCapacity s.params.osCapacity s.os || atCapacity s.params.csCapacity s.cs then
      .next (raiseFault .stackOverflow s)
    else .next { pushCs s.pc (pushOs s.pc s) with depth := s.depth + 1, pc := t }

/-- The call stack is popped if it holds anything (43 R236, 60 R411). -/
def dropCsIfAny (s : State) : State := if s.cs.isEmpty then s else dropCs s

/-- ret (43 R236): the target is the operand stack's top; both checks precede every change. -/
def execRet (s : State) : Host.Outcome State Fault Refusal :=
  match topOf s.os with
  | none => .next (raiseFault .osUnderflow s)
  | some (t, _) =>
    if s.cs.isEmpty && s.params.callStackUnderflowFaults then .next (raiseFault .csUnderflow s)
    else .next { dropCsIfAny (dropOs s) with depth := s.depth - 1, pc := t }

/-- noop (43 R237). -/
def execNoop (s : State) : Host.Outcome State Fault Refusal := .next s

end Sys2Proof.Machine
end

