-- ==== Sys2Proof/Machine/DataTransfer.lean ====
section
/-! DEFINITION. The data-transfer instructions (44). -/

namespace Sys2Proof.Machine

/-- set a, b (44 R251): the source first, then the check of the destination, which must be a register. -/
def execSet (a b : Operand) (s : State) : Host.Outcome State Fault Refusal :=
  (resolve b s).andThen fun x s =>
    match a with
    | .reg r => .next (writeReg r x (armIf (writeHit a s) s))
    | .lit _ => .next (raiseFault .setDest s)
    | .bad _ => .next (raiseFault .setDest s)

/-- push a (44 R253). -/
def execPush (a : Operand) (s : State) : Host.Outcome State Fault Refusal :=
  (resolve a s).andThen fun x s =>
    if atCapacity s.params.osCapacity s.os then .next (raiseFault .stackOverflow s)
    else .next (pushOs x s)

/-- pop a (44 R255): the pop is not undone when the destination faults. -/
def execPop (a : Operand) (s : State) : Host.Outcome State Fault Refusal :=
  match topOf s.os with
  | none => .next (raiseFault .osUnderflow s)
  | some (x, _) => .next (storeTo a x (dropOs s))

/-- rmem a, b (44 R258): a cell above 32767 is no word. -/
def execRmem (a b : Operand) (s : State) : Host.Outcome State Fault Refusal :=
  (resolve b s).andThen fun addr s =>
    .next (storeData a (s.mem.read addr.toNat) (armIf (bpCheck s.bt addr.toNat .read) s))

/-- wmem a, b (44 R260). -/
def execWmem (a b : Operand) (s : State) : Host.Outcome State Fault Refusal :=
  (resolve a s).andThen fun addr s =>
    (resolve b s).andThen fun x s =>
      .next (memWrite addr x (armIf (bpCheck s.bt addr.toNat .write) s))

end Sys2Proof.Machine
end

