-- ==== Sys2Proof/Machine/Engine.lean ====
section
/-! DEFINITION. The execution state machine (42): the step-into primitive, and how the command in flight (a
step-into, a step-over, a run) goes on or ends after it. -/

namespace Sys2Proof.Machine

/-- An execute breakpoint is armed on some word of the span (41 R165). -/
def execHit (bt : List BpEntry) (d : Decoded) : Bool :=
  (List.range d.span).any fun k => bpCheck bt (d.pos.toNat + k) .exec

/-- The end of a step that has not halted (42 R186). -/
def reportPause (s : State) : State :=
  if s.pausePending then { s with pausePending := false, stepResult := some .paused }
  else { s with stepResult := some .continue }

/-- The result of a step whose next instruction is d (42 R186). -/
def reportStep (d : Decoded) (s : State) : State :=
  if s.halted then { s with stepResult := some .halted } else reportPause (armIf (execHit s.bt d) s)

/-- What follows the semantics of a step (42 R185, R186): the decode at the new PC, the decode view, and the
result. `old` is the PC the step began at. -/
def finishStep (old : Word) (s : State) : State :=
  match decodeHere s with
  | .stop s => s
  | .ok d s => reportStep d (emit (.decodeViewChanged old s.pc) s)

/-- The step ends here if a fault ended it (42 R188) or if its `in` holds (42 R189), else it is finished. -/
def completeStep (old : Word) (s : State) : State :=
  if s.stepResult.isSome || s.hold.isSome then s else finishStep old s

/-- The PC advance (42 R184): none where it would leave memory. -/
def advancePc (d : Decoded) (s : State) : Option State :=
  if s.pc.toNat + d.span ≤ Config.maxWord then some { s with pc := BitVec.ofNat 15 (s.pc.toNat + d.span) }
  else none

/-- The semantics of a decoded record: an instruction's meaning, or the fault of a placeholder (42 R185). -/
def execBody (b : Body) (s : State) : Host.Outcome State Fault Refusal :=
  match b with
  | .instr i => exec i s
  | .unknown _ => .next (raiseFault .unknownOpcode s)

/-- Step-into (42 R187). It leaves its result in `stepResult`, which is none where the step holds in `in`. -/
def stepInto (s : State) : Host.Outcome State Fault Refusal :=
  if s.halted then .next { s with stepResult := some .notAdvanced }
  else
    (fetch { s with stepResult := none }).andThen fun d s =>
      match advancePc d s with
      | none => .next (raiseFault .pcRange s)
      | some t => onNext (completeStep s.pc) (execBody d.body t)

/-- Go on with the step whose `in` holds. PC has been advanced by the span of `in`, so the step began two words
before it. -/
def resumeStep (h : Hold) (s : State) : State :=
  completeStep (s.pc - 2#15) (resumeHold h { s with stepResult := none })

/-- ES after a step command (42 R180); NOT_ADVANCED leaves it. -/
def stateAfterStep (r : StepResult) (es : EngineState) : EngineState :=
  match r with
  | .continue => .paused
  | .paused => .paused
  | .halted => .halted
  | .fault => .halted
  | .notAdvanced => es

/-- A step-into or step-over ends with its response (42 R180, R181). -/
def endStepCommand (r : StepResult) (s : State) : State :=
  { s with flight := .idle, es := stateAfterStep r s.es, response := some (.step r) }

/-- ES after a run (42 R198). -/
def stateAfterRun (r : StepResult) : EngineState :=
  match r with
  | .paused => .paused
  | .continue => .halted
  | .halted => .halted
  | .fault => .halted
  | .notAdvanced => .halted

/-- A run ends: suppression ends with it, and the one consolidated refresh is emitted (42 R198). -/
def endRun (r : StepResult) (s : State) : State :=
  { emitRefresh { s with flight := .idle, es := stateAfterRun r } with response := some (.step r) }

/-- After a StepInto of the command in flight: a step-into ends; a step-over ends unless it goes on inside the
subroutine (42 R195, R197); a run ends unless the step reports CONTINUE (42 R198). A step that holds ends
nothing. -/
def settle (s : State) : State :=
  match s.stepResult with
  | none => s
  | some r =>
    match s.flight with
    | .idle => s
    | .single => endStepCommand r s
    | .over => if r = .continue ∧ 0 < s.depth then s else endStepCommand r s
    | .run => if r = .continue then s else endRun r s

/-- step-into() (42 R181). -/
def startStepInto (s : State) : Host.Outcome State Fault Refusal :=
  onNext settle (stepInto { s with flight := .single, response := none })

/-- The record is a `call` (42 R197: opcode 17). -/
def Decoded.isCall (d : Decoded) : Bool :=
  match d.body with
  | .instr i => decide (i.opcode = 17)
  | .unknown _ => false

/-- step-over() (42 R197), up to the end of its first StepInto; the loop goes on from `settle`. -/
def startStepOver (s : State) : Host.Outcome State Fault Refusal :=
  if s.halted then .next (endStepCommand .notAdvanced { s with stepResult := some .notAdvanced })
  else
    match fetch { s with flight := .single, response := none, stepResult := none } with
    | .stop s => .next (settle s)
    | .ok d s =>
      if Decoded.isCall d then onNext settle (stepInto { s with flight := .over, depth := 0 })
      else onNext settle (stepInto s)

/-- run() (42 R198), up to its first StepInto, which is the engine's next move (log entry 20). -/
def startRun (s : State) : State := { s with flight := .run, es := .running, response := none }

/-- pause() (42 R199). -/
def pause (s : State) : State := emitRefresh { s with pausePending := true }

/-- HALTED is set, with `halted()` where it was false (42 R202). -/
def setHalted (s : State) : State := if s.halted then s else emit .halted { s with halted := true }

/-- stop() (42 R200): HALTED is set whatever is in flight, with its notification (log entry 12); ES becomes
Halted unless a run is in flight, which then ends at its next StepInto. -/
def stop (s : State) : State :=
  emitRefresh { setHalted s with es := if s.flight = .run then s.es else .halted }

end Sys2Proof.Machine
end

