-- ==== Sys2Proof/Machine/Snapshot.lean ====
section
/-! DEFINITION. The snapshot serializer (47): its byte format, the check of a stream, the restore. -/

namespace Sys2Proof.Machine

/-! ### Writing (47 R301, R302) -/

/-- A 32-bit field, least significant byte first (47 R301). -/
def fieldBytes (n : Nat) : List Byte :=
  [BitVec.ofNat 8 n, BitVec.ofNat 8 (n / 256), BitVec.ofNat 8 (n / 65536), BitVec.ofNat 8 (n / 16777216)]

/-- A boolean is one byte (47 R301). -/
def boolByte (b : Bool) : Byte := if b then 1#8 else 0#8

/-- A sequence's count. What stands there for a count beyond 32 bits is free (log entry 15). -/
def countBytes (n : Nat) : List Byte :=
  fieldBytes (if n < 4294967296 then n else Config.overlongCount n)

/-- Fields in order, without a count. -/
def fieldsBytes : List Nat → List Byte
  | [] => []
  | n :: ns => fieldBytes n ++ fieldsBytes ns

/-- The contents of consecutive cells, in address order. -/
def cellValues (m : Memory) : Nat → Nat → List Nat
  | _, 0 => []
  | a, n + 1 => (m.read a).toNat :: cellValues m (a + 1) n

/-- A breakpoint entry (47 R302). -/
def entryBytes (e : BpEntry) : List Byte :=
  fieldBytes e.addr ++ [boolByte e.exec, boolByte e.write, boolByte e.read]

/-- Breakpoint entries in table order. -/
def entriesBytes : List BpEntry → List Byte
  | [] => []
  | e :: es => entryBytes e ++ entriesBytes es

/-- The byte stream of a state (47 R302, R303). -/
def snapshotBytes (s : State) : List Byte :=
  fieldsBytes (cellValues s.mem 0 Config.memWords) ++
  fieldsBytes (s.regs.toList.map (·.toNat)) ++
  fieldBytes s.pc.toNat ++
  countBytes s.bt.length ++ entriesBytes s.bt ++
  countBytes s.os.length ++ fieldsBytes (s.os.map (·.toNat)) ++
  countBytes s.cs.length ++ fieldsBytes (s.cs.map (·.toNat))

/-! ### Reading (47 R304, R305): none is a malformed stream -/

/-- What a stream holds (47 R300). -/
structure Snapshot where
  cells : List Nat
  regs : List Nat
  pc : Nat
  bt : List BpEntry
  os : List Nat
  cs : List Nat
  deriving DecidableEq, Repr

/-- A field of at most `bound`, and the bytes after it (47 R305 items 1, 3 to 6, 8, 9). -/
def takeField (bound : Nat) : List Byte → Option (Nat × List Byte)
  | b0 :: b1 :: b2 :: b3 :: rest =>
    let n := b0.toNat + 256 * b1.toNat + 65536 * b2.toNat + 16777216 * b3.toNat
    if n ≤ bound then some (n, rest) else none
  | _ => none

/-- That many fields of at most `bound` each. -/
def takeFields (bound : Nat) : Nat → List Byte → Option (List Nat × List Byte)
  | 0, bs => some ([], bs)
  | n + 1, bs =>
    match takeField bound bs with
    | none => none
    | some (v, bs) =>
      match takeFields bound n bs with
      | none => none
      | some (vs, bs) => some (v :: vs, bs)

/-- A boolean byte (47 R305 item 7). -/
def takeBool : List Byte → Option (Bool × List Byte)
  | [] => none
  | b :: rest => if b = 0#8 then some (false, rest) else if b = 1#8 then some (true, rest) else none

/-- A breakpoint entry (47 R305 items 6, 7). -/
def takeEntry (bs : List Byte) : Option (BpEntry × List Byte) :=
  match takeField Config.bpAddrMax bs with
  | none => none
  | some (addr, bs) =>
    match takeBool bs with
    | none => none
    | some (x, bs) =>
      match takeBool bs with
      | none => none
      | some (w, bs) =>
        match takeBool bs with
        | none => none
        | some (r, bs) =>
          if x || w || r then some ({ addr := addr, exec := x, write := w, read := r }, bs) else none

/-- That many breakpoint entries, no two of one address (47 R305 item 6). -/
def takeEntries : Nat → List Byte → Option (List BpEntry × List Byte)
  | 0, bs => some ([], bs)
  | n + 1, bs =>
    match takeEntry bs with
    | none => none
    | some (e, bs) =>
      match takeEntries n bs with
      | none => none
      | some (es, bs) => if es.any fun f => decide (f.addr = e.addr) then none else some (e :: es, bs)

/-- A count within a capacity (47 R305 items 8, 9), and that many words. -/
def takeStack (cap : Option Nat) (bs : List Byte) : Option (List Nat × List Byte) :=
  match takeField 4294967295 bs with
  | none => none
  | some (m, bs) =>
    match cap with
    | none => takeFields Config.maxWord m bs
    | some c => if m ≤ c then takeFields Config.maxWord m bs else none

/-- The whole stream, with nothing after the call stack (47 R305 item 2). -/
def parseSnapshot (p : Config.Params) (bs : List Byte) : Option Snapshot :=
  match takeFields 65535 Config.memWords bs with
  | none => none
  | some (cells, bs) =>
    match takeFields Config.maxWord 8 bs with
    | none => none
    | some (regs, bs) =>
      match takeField Config.maxWord bs with
      | none => none
      | some (pc, bs) =>
        match takeField 32776 bs with
        | none => none
        | some (n, bs) =>
          match takeEntries n bs with
          | none => none
          | some (bt, bs) =>
            match takeStack p.osCapacity bs with
            | none => none
            | some (os, bs) =>
              match takeStack p.csCapacity bs with
              | none => none
              | some (cs, bs) =>
                if bs = [] then some { cells := cells, regs := regs, pc := pc, bt := bt, os := os, cs := cs }
                else none

/-! ### Restoring (47 R306) -/

/-- Eight register values as a register file. -/
def regFile (l : List Nat) : Vector Word 8 :=
  #v[BitVec.ofNat 15 (l.getD 0 0), BitVec.ofNat 15 (l.getD 1 0), BitVec.ofNat 15 (l.getD 2 0),
    BitVec.ofNat 15 (l.getD 3 0), BitVec.ofNat 15 (l.getD 4 0), BitVec.ofNat 15 (l.getD 5 0),
    BitVec.ofNat 15 (l.getD 6 0), BitVec.ofNat 15 (l.getD 7 0)]

/-- The state a snapshot replaces, before the decode at PC (47 R306). -/
def installSnapshot (n : Snapshot) (s : State) : State :=
  emit .disasmReset
    { s with
      mem := Memory.ofCells 0 (n.cells.map (BitVec.ofNat 16 ·))
      regs := regFile n.regs
      pc := BitVec.ofNat 15 n.pc
      bt := n.bt
      os := n.os.map (BitVec.ofNat 15 ·)
      cs := n.cs.map (BitVec.ofNat 15 ·)
      halted := false
      pausePending := false
      faulted := false
      faultCause := .none
      depth := 0
      es := .ready
      loaded := true
      ic := [] }

/-- load-state(bytes) (47 R304, R306). A decode at the restored PC that runs past memory is a machine fault of
the restored machine, and its response is FAULT (log entry 14). -/
def loadState (bytes : List Byte) (s : State) : State :=
  match parseSnapshot s.params bytes with
  | none => { s with response := some .restoreMalformed }
  | some n =>
    match decodeHere (installSnapshot n s) with
    | .ok _ s => { emitRefresh s with response := some .ok }
    | .stop s => { s with es := .halted, response := some (.step .fault) }

/-- save() (47 R303): the bytes are the response; nothing else changes. -/
def save (s : State) : State := { s with response := some (.snapshot (snapshotBytes s)) }

end Sys2Proof.Machine
end

