-- ==== Sys2Proof/Machine/Commands.lean ====
section
/-! DEFINITION. The command port (42 R181): load (70), the breakpoint table's toggle (41), and which command
is performed when (42 R201). -/

namespace Sys2Proof.Machine

/-! ### load (70 R500) -/

/-- The state an image gives, before the first decode. -/
def installImage (image : List Raw) (s : State) : State :=
  emit .disasmReset
    { s with
      mem := Memory.ofCells 0 image
      regs := Vector.replicate 8 0#15
      pc := 0#15
      os := []
      cs := []
      depth := 0
      halted := false
      pausePending := false
      faulted := false
      faultCause := .none
      bt := []
      es := .ready
      loaded := true
      ic := [] }

/-- load(image) (70 R500). -/
def load (image : List Raw) (s : State) : State :=
  if Config.memWords < image.length then { s with response := some .loadTooLong }
  else { emitRefresh (decodeHere (installImage image s)).state with response := some .ok }

/-! ### toggle-breakpoint (41 R162) -/

/-- toggle(addr, x, w, r). -/
def toggle (addr : Nat) (x w r : Bool) (s : State) : State :=
  if Config.bpAddrMax < addr then { s with response := some .rejected }
  else if s.bt.any fun e => decide (e.addr = addr) then
    emit (.breakpointToggled addr false)
      { s with bt := s.bt.filter fun e => decide (e.addr ≠ addr), response := some .disabled }
  else if !(x || w || r) then { s with response := some .disabled }
  else
    emit (.breakpointToggled addr true)
      { s with bt := s.bt ++ [{ addr := addr, exec := x, write := w, read := r }], response := some .enabled }

/-! ### Which command is performed when -/

/-- pause and stop, which take effect while a command is in flight (42 R201). -/
def Command.isLatch : Command → Bool
  | .pause => true
  | .stop => true
  | .load _ => false
  | .stepInto => false
  | .stepOver => false
  | .run => false
  | .toggle _ _ _ _ => false
  | .save => false
  | .loadState _ => false

/-- The commands that create a machine, and so need none (70 R503). -/
def Command.creates : Command → Bool
  | .load _ => true
  | .loadState _ => true
  | .pause => false
  | .stop => false
  | .stepInto => false
  | .stepOver => false
  | .run => false
  | .toggle _ _ _ _ => false
  | .save => false

/-- Perform a command on a loaded machine. -/
def performLoaded (c : Command) (s : State) : Host.Outcome State Fault Refusal :=
  match c with
  | .load image => .next (load image s)
  | .stepInto => startStepInto s
  | .stepOver => startStepOver s
  | .run => .next (startRun s)
  | .pause => .next (pause s)
  | .stop => .next (stop s)
  | .toggle addr x w r => .next (toggle addr x w r s)
  | .save => .next (save s)
  | .loadState bytes => .next (loadState bytes s)

/-- Perform a command; before the first load all but two are refused with NOT_LOADED (70 R503). -/
def perform (c : Command) (s : State) : Host.Outcome State Fault Refusal :=
  if s.loaded || c.creates then performLoaded c s else .next { s with response := some .notLoaded }

/-- The first issued command that may be performed at this boundary, and the state without it: the first of
all when nothing is in flight, else the first pause or stop (42 R201, log entry 19). -/
def takePending (s : State) : Option (Command × State) :=
  match s.flight with
  | .idle =>
    match s.pending with
    | [] => none
    | c :: cs => some (c, { s with pending := cs })
  | .single | .over | .run =>
    match s.pending.find? Command.isLatch with
    | none => none
    | some c => some (c, { s with pending := s.pending.eraseP Command.isLatch })

/-- The engine's own move: the next StepInto of the command in flight. Where none is in flight the machine stays
as it is: it moves on a command only (42 R181, 60 R427). -/
def engineMove (s : State) : Host.Outcome State Fault Refusal :=
  match s.flight with
  | .idle => .next s
  | .single => onNext settle (stepInto s)
  | .over => onNext settle (stepInto s)
  | .run => onNext settle (stepInto s)

/-- One move of the machine: a step that holds in `in` goes on, and nothing else is looked at until it has
completed (42 R189); else an issued command is performed; else the engine moves. -/
def advance (s : State) : Host.Outcome State Fault Refusal :=
  match s.hold with
  | some h => .next (settle (resumeStep h s))
  | none =>
    match takePending s with
    | some (c, s) => perform c s
    | none => engineMove s

/-- What the host does at this boundary. A command joins the commands issued; a code unit joins the input. -/
def hostEvent (e : HostEvent) (s : State) : Host.Outcome State Fault Refusal :=
  match e with
  | .tick => advance s
  | .command c => .next { s with pending := s.pending ++ [c] }
  | .supply u => .next { s with input := s.input ++ [u] }

/-! ### Placing an instruction where the next step fetches it -/

/-- Store words from an address on, as far as memory goes, evicting what the cache holds of them. -/
def placeWords : Nat → List Raw → State → State
  | _, [], s => s
  | a, w :: ws, s =>
    if a < Config.memWords then
      placeWords (a + 1) ws { s with mem := s.mem.write a w, ic := s.ic.filter fun d => !covers a d }
    else s

/-- What would keep the next step from fetching at PC is cleared: host events, other commands, a step that
holds, HALTED, the time before the first load. The next StepInto is that of the command in flight, and where none
is in flight that of a step-into which the controller has issued (log entry 2). -/
def readyToFetch (s : State) : State :=
  { s with
    schedule := []
    pending := if s.flight = .idle then [.stepInto] else []
    hold := none
    halted := false
    loaded := true }

end Sys2Proof.Machine
end

