-- ==== Sys2Proof/Machine/Step.lean ====
section
/-! DEFINITION. One step of the model: what the host does at this boundary, or a move of the machine. -/

namespace Sys2Proof.Machine

/-- One step. The host is free to do nothing at a boundary (60 R427); when the schedule is exhausted it does nothing
more (log entry 1). -/
def step (s : State) : Host.Outcome State Fault Refusal :=
  match s.schedule with
  | [] => advance s
  | e :: rest => hostEvent e { s with schedule := rest }

/-- The state with the instruction of an opcode-table row stored where the next step fetches (log entry 2). -/
def State.withFetchWord (s : State) (nbits w : Nat) : State :=
  readyToFetch (placeWords s.pc.toNat (tableWords nbits w) s)

end Sys2Proof.Machine
end

