-- ==== Sys2Proof/Safety.lean ====
section
/-! DEFINITION. The terms in which claims about the machine are stated: what a state must satisfy at a step
boundary, what an operand denotes, and what an instruction leaves unchanged. -/

namespace Sys2Proof.Machine

/-! ### What holds at every step boundary -/

/-- Every cached record is what a fresh decode at its position gives (40 R150). -/
def CacheCoherent (s : State) : Prop := ∀ d ∈ s.ic, decodeAt s.mem d.pos = some d

/-- The table of breakpoints (10 R52): legal addresses, no address twice, every entry with a trigger. -/
abbrev BpTableWf (bt : List BpEntry) : Prop :=
  bt.Pairwise (fun e f => e.addr ≠ f.addr) ∧
    ∀ e ∈ bt, e.addr ≤ Config.bpAddrMax ∧ (e.exec || e.write || e.read) = true

/-- A stack is within its capacity (00 R10). -/
abbrev Fits (cap : Option Nat) (l : List Word) : Prop := ∀ n, cap = some n → l.length ≤ n

/-- What every step keeps: the canonical form of memory and cache, the transparency of the cache (40 R150), the
form of the breakpoint table (10 R52), the stacks within their capacities (00 R10), and the agreement of the
status fields with each other and with the command in flight (10 R47, R48; 42 R189). -/
structure State.Inv (s : State) : Prop where
  memWf : s.mem.wf
  cacheSorted : s.ic.Pairwise fun d e => d.pos.toNat < e.pos.toNat
  cacheCoherent : CacheCoherent s
  bpTable : BpTableWf s.bt
  osFits : Fits s.params.osCapacity s.os
  csFits : Fits s.params.csCapacity s.cs
  faultedCause : s.faulted = true ↔ s.faultCause ≠ .none
  faultedHalted : s.faulted = true → s.halted = true
  esHalted : s.es = .halted ↔ s.halted = true ∧ s.flight ≠ .run
  esRunning : s.es = .running ↔ s.flight = .run
  holdInFlight : s.hold.isSome = true → s.flight ≠ .idle ∧ s.halted = false
  singleHolds : s.flight = .single → s.hold.isSome = true

/-! ### Operands -/

/-- The word an operand denotes as a source (42 R190), none for an invalid one. -/
def valueOf (v : Operand) (s : State) : Option Word :=
  match v with
  | .lit w => some w
  | .reg r => some s.regs[r]
  | .bad _ => none

/-- The operand denotes a place: a register or a cell (42 R191). -/
def IsPlace (v : Operand) : Prop := ∀ b, v ≠ .bad b

/-- The place an operand denotes holds the number n. -/
def Holds (v : Operand) (n : Nat) (s : State) : Prop :=
  match v with
  | .lit w => (s.mem.read w.toNat).toNat = n
  | .reg r => s.regs[r].toNat = n
  | .bad _ => False

/-- The state in which those operands have been read: only the pause latch may be set by it (41 R166). -/
def afterReads (vs : List Operand) (s : State) : State :=
  { s with pausePending := s.pausePending || vs.any (readHit · s) }

/-- The notifications after some more, which a run suppresses (42 R203). -/
def notesPlus (s : State) (ns : List Notification) : List Notification :=
  if s.flight = .run then s.notes else s.notes ++ ns

/-! ### Tables of the spec -/

/-- The instructions of the common shape (45 R271) that have no fault of their own, each with the number its rule
gives for the numbers of its sources (45 R272 to R275, R277, R278). -/
def binaryRules : List ((Operand → Operand → Operand → Instr) × (Nat → Nat → Nat)) :=
  [(Instr.eq, fun x y => if x = y then 1 else 0),
   (Instr.gt, fun x y => if y < x then 1 else 0),
   (Instr.add, fun x y => (x + y) % 32768),
   (Instr.mult, fun x y => x * y % 32768),
   (Instr.and, fun x y => x &&& y),
   (Instr.or, fun x y => x ||| y)]

/-- The mnemonics by opcode number (30 R103). -/
def mnemonics : List String :=
  ["halt", "set", "push", "pop", "eq", "gt", "jmp", "jt", "jf", "add", "mult", "mod", "and", "or", "not",
   "rmem", "wmem", "call", "ret", "out", "in", "noop"]

/-- A word as exactly four upper-case hexadecimal digits (30 R111, 40 R142). -/
def fourDigits (w : Raw) : String :=
  String.ofList ([w.toNat / 4096, w.toNat / 256, w.toNat / 16, w.toNat].map fun n =>
    ['0', '1', '2', '3', '4', '5', '6', '7', '8', '9', 'A', 'B', 'C', 'D', 'E', 'F'].getD (n % 16) '0')

/-- The text of an operand word that is no register reference: four hexadecimal digits, or, for the destination
of `set`, the open text (40 R145). -/
def plainText (op k : Nat) (w : Raw) : String :=
  if op = 1 ∧ k = 0 then Config.setBadDestText w else fourDigits w

/-- The text of operand number k of an opcode (40 R145). -/
def operandText (op k : Nat) (w : Raw) : String :=
  if 32768 ≤ w.toNat ∧ w.toNat ≤ 32775 then
    ["R0", "R1", "R2", "R3", "R4", "R5", "R6", "R7"].getD (w.toNat - 32768) ""
  else plainText op k w

/-- `Text(op, ops)` (40 R145). -/
def textRule (op : Nat) (ws : List Raw) : String :=
  match ws with
  | [] => mnemonics.getD op ""
  | [a] => mnemonics.getD op "" ++ " " ++ operandText op 0 a
  | [a, b] => mnemonics.getD op "" ++ " " ++ operandText op 0 a ++ ", " ++ operandText op 1 b
  | a :: b :: c :: _ =>
    mnemonics.getD op "" ++ " " ++ operandText op 0 a ++ ", " ++ operandText op 1 b ++ ", " ++ operandText op 2 c

/-! ### Frames -/

/-- Nothing but registers, memory, cache, pause latch and notifications differs. -/
structure SameOutside (s t : State) : Prop where
  pc : t.pc = s.pc
  os : t.os = s.os
  cs : t.cs = s.cs
  depth : t.depth = s.depth
  halted : t.halted = s.halted
  faulted : t.faulted = s.faulted
  faultCause : t.faultCause = s.faultCause
  es : t.es = s.es
  bt : t.bt = s.bt
  loaded : t.loaded = s.loaded
  flight : t.flight = s.flight
  hold : t.hold = s.hold
  stepResult : t.stepResult = s.stepResult
  response : t.response = s.response
  pending : t.pending = s.pending
  schedule : t.schedule = s.schedule
  input : t.input = s.input
  output : t.output = s.output
  params : t.params = s.params

/-- Every register but the one the operand names is unchanged, and every cell but the one whose address the
operand is; a cell's entries leave the cache (40 R151), and nothing else changes but what `SameOutside` leaves
open. -/
structure OnlyPlace (v : Operand) (s t : State) : Prop where
  regs : ∀ r : Fin 8, v ≠ .reg r → t.regs[r] = s.regs[r]
  mem : ∀ q : Nat, (∀ w : Word, v = .lit w → q ≠ w.toNat) → t.mem.read q = s.mem.read q
  cache : ∀ d, d ∈ t.ic ↔ d ∈ s.ic ∧ ∀ w : Word, v = .lit w → covers w.toNat d = false
  outside : SameOutside s t

/-- The notifications that storing the number n at a place gives (42 R191, 20 R71). -/
def NotesOfStore (v : Operand) (n : Nat) (s t : State) : Prop := t.notes = (storeTo v (BitVec.ofNat 15 n) s).notes

/-- A decode at that position needs a word beyond the last cell (40 R143). -/
def Overruns (m : Memory) (p : Word) : Prop :=
  (m.read p.toNat).toNat ≤ 21 ∧ 32767 < p.toNat + arity (m.read p.toNat).toNat

/-- What `in` does with the code unit it uses (46 R292), in a state u in which it has been taken. -/
def StoresUnit (a : Operand) (c : Raw) (u : State) (o : Host.Outcome State Fault Refusal) : Prop :=
  (32767 < c.toNat → o = .next (raiseFault .badData u)) ∧
  (c.toNat ≤ 32767 → IsPlace a →
    ∃ t, o = .next t ∧ Holds a c.toNat t ∧ t.pausePending = (u.pausePending || writeHit a u) ∧ OnlyPlace a u t ∧
      NotesOfStore a c.toNat u t) ∧
  (c.toNat ≤ 32767 → ¬ IsPlace a → o = .next (raiseFault .badOperand u))

/-! ### Steps -/

/-- The state an instruction's meaning runs on: the record is in the cache (40 R149) and PC is past the
instruction (42 R184). -/
def atInstr (i : Instr) (s : State) : State :=
  { cacheInsert { pos := s.pc, body := .instr i } s with pc := BitVec.ofNat 15 (s.pc.toNat + i.span) }

/-- The host does nothing at this boundary (60 R427). -/
def HostSilent (s : State) : Prop := s.schedule = [] ∨ s.schedule.head? = some .tick

/-- The state without the event of this boundary. -/
def tickOff (s : State) : State := { s with schedule := s.schedule.tail }

/-- The state without its notifications. -/
def forgetNotes (s : State) : State := { s with notes := [] }

/-! ### The snapshot stream in numbers (47 R301, R302) -/

/-- The bytes of a stream from an offset on. -/
def segment (bs : List Byte) (offset size : Nat) : List Byte := (bs.drop offset).take size

/-- The four bytes of an integer field, the least significant first (47 R301). -/
def littleEndian (n : Nat) : List Nat := [n % 256, n / 256 % 256, n / 65536 % 256, n / 16777216 % 256]

/-- The byte of a boolean (47 R301). -/
def flagByte (b : Bool) : Nat := if b then 1 else 0

/-- That integer field stands at that offset. -/
def FieldAt (bs : List Byte) (offset n : Nat) : Prop := (segment bs offset 4).map (·.toNat) = littleEndian n

/-- That breakpoint entry stands at that offset: addr, exec, write, read (47 R302). -/
def EntryAt (bs : List Byte) (offset : Nat) (e : BpEntry) : Prop :=
  (segment bs offset 7).map (·.toNat) = littleEndian e.addr ++ [flagByte e.exec, flagByte e.write, flagByte e.read]

/-- A stream has the layout of 47 R302 for what a snapshot holds. What stands in a count of 2^32 or more is free
(log entry 15). -/
structure LayoutOf (bs : List Byte) (n : Snapshot) : Prop where
  cells : ∀ a v, n.cells[a]? = some v → FieldAt bs (4 * a) v
  regs : ∀ r v, n.regs[r]? = some v → FieldAt bs (131072 + 4 * r) v
  pc : FieldAt bs 131104 n.pc
  btCount : n.bt.length < 4294967296 → FieldAt bs 131108 n.bt.length
  bt : ∀ j e, n.bt[j]? = some e → EntryAt bs (131112 + 7 * j) e
  osCount : n.os.length < 4294967296 → FieldAt bs (131112 + 7 * n.bt.length) n.os.length
  os : ∀ j v, n.os[j]? = some v → FieldAt bs (131116 + 7 * n.bt.length + 4 * j) v
  csCount : n.cs.length < 4294967296 →
    FieldAt bs (131116 + 7 * n.bt.length + 4 * n.os.length) n.cs.length
  cs : ∀ j v, n.cs[j]? = some v → FieldAt bs (131120 + 7 * n.bt.length + 4 * n.os.length + 4 * j) v
  length : bs.length = 131120 + 7 * n.bt.length + 4 * n.os.length + 4 * n.cs.length

/-- What the snapshot of a state holds (47 R300). -/
def heldBy (s : State) : Snapshot :=
  { cells := (List.range 32768).map fun a => (s.mem.read a).toNat
    regs := s.regs.toList.map (·.toNat)
    pc := s.pc.toNat
    bt := s.bt
    os := s.os.map (·.toNat)
    cs := s.cs.map (·.toNat) }

end Sys2Proof.Machine
end

