-- ==== Sys2Proof/Certificates/Slice0/Obligations.lean ====
section
/-! DEFINITION. The statements about the model, for the provers. Each docstring names the rules of the spec it
formalises; a statement that rests on a choice of the model's names the log entry. -/

open Sys2Proof Sys2Proof.Machine

/-! ### Encoding and decoding (30, 40) -/

/-- 30 R114: an instruction encodes as its opcode and its raw operands, and decoding that gives it back. -/
def Obligations.DecodeOfEncode : Prop :=
  ∀ (i : Instr) (rest : List Raw), i.wf = true →
    encode i = BitVec.ofNat 16 i.opcode :: i.operands.map Operand.toRaw ∧
    decodeWords (encode i ++ rest) = .instr i rest

/-- 30 R114, the other direction: what decodes to an instruction is its encoding, and the instruction is well
formed. -/
def Obligations.EncodeOfDecode : Prop :=
  ∀ (ws : List Raw) (i : Instr) (rest : List Raw), decodeWords ws = .instr i rest →
    i.wf = true ∧ ws = encode i ++ rest

/-- 30 R104: the class and the meaning of every operand word, that an invalid one fails when it is used, and that
the raw word is kept (30 R106). -/
def Obligations.OperandClasses : Prop :=
  ∀ v : Raw,
    (v.toNat ≤ 32767 → ∃ w : Word, Operand.ofRaw v = .lit w ∧ w.toNat = v.toNat ∧
      ∀ s, valueOf (Operand.ofRaw v) s = some w) ∧
    (32768 ≤ v.toNat → v.toNat ≤ 32775 → ∃ r : Fin 8, Operand.ofRaw v = .reg r ∧ r.val = v.toNat - 32768 ∧
      ∀ s, valueOf (Operand.ofRaw v) s = some s.regs[r]) ∧
    (32776 ≤ v.toNat → Operand.ofRaw v = .bad v ∧
      ∀ (x : Word) (s : State), resolve (Operand.ofRaw v) s = .stop (raiseFault .badOperand s) ∧
        storeTo (Operand.ofRaw v) x s = raiseFault .badOperand s) ∧
    (Operand.ofRaw v).toRaw = v

/-- 40 R142 to R144: the placeholder, the range fault, and the record of an instruction at a position. -/
def Obligations.DecodeAtPosition : Prop :=
  ∀ (m : Memory) (p : Word),
    (21 < (m.read p.toNat).toNat → decodeAt m p = some { pos := p, body := .unknown (m.read p.toNat) }) ∧
    ((m.read p.toNat).toNat ≤ 21 → 32767 < p.toNat + arity (m.read p.toNat).toNat → decodeAt m p = none) ∧
    ((m.read p.toNat).toNat ≤ 21 → p.toNat + arity (m.read p.toNat).toNat ≤ 32767 →
      ∃ i : Instr, decodeAt m p = some { pos := p, body := .instr i } ∧ i.wf = true ∧
        i.opcode = (m.read p.toNat).toNat ∧ i.span = arity (m.read p.toNat).toNat + 1 ∧
        i.operands.map Operand.toRaw =
          (List.range (arity (m.read p.toNat).toNat)).map fun k => m.read (p.toNat + 1 + k))

/-- 40 R140: a decode depends on the words of its span only. -/
def Obligations.DecodeReadsItsSpan : Prop :=
  ∀ (m n : Memory) (p : Word) (d : Decoded), decodeAt m p = some d →
    (∀ k, k < d.span → n.read (p.toNat + k) = m.read (p.toNat + k)) → decodeAt n p = some d

/-- 40 R145: the text of every well-formed instruction; 40 R142: the text of a placeholder is its word as four
upper-case hexadecimal digits. -/
def Obligations.TextOfInstruction : Prop :=
  (∀ i : Instr, i.wf = true → i.text = textRule i.opcode (i.operands.map Operand.toRaw)) ∧
  ∀ w : Raw, (Body.unknown w).text = fourDigits w

/-- 40 R155 and 30 R103: some words, written out from the table, decode to what they stand for. -/
def Obligations.WrittenWordsDecode : Prop :=
  decodeWords [9, 32768, 32769, 4, 19, 32768] = .instr (.add (.reg 0) (.reg 1) (.lit 4)) [19, 32768] ∧
  decodeWords [7, 32768, 32775] = .instr (.jt (.reg 0) (.reg 7)) [] ∧
  decodeWords [16, 1, 67] = .instr (.wmem (.lit 1) (.lit 67)) [] ∧
  decodeWords [20, 40000] = .instr (.input (.bad 40000)) [] ∧
  decodeWords [32768] = .unknown 32768 []

/-! ### Memory (20) and the breakpoint table (41) -/

/-- 20 R81: a read gives what the last write to that address wrote, and the canonical form is kept. -/
def Obligations.MemoryReadsLastWrite : Prop :=
  ∀ (m : Memory) (a : Nat) (v : Raw),
    (m.write a v).read a = v ∧ (∀ b, b ≠ a → (m.write a v).read b = m.read b) ∧
    (m.wf → a < Config.memWords → (m.write a v).wf)

/-- 20 R71, 40 R151: the cell, the eviction of every entry whose span covers it, the notifications, nothing else
(that the evictions are notified by rising position, and before the write, is log entry 10; that removed-at carries
the record's position is log entry 11). -/
def Obligations.MemWriteEvicts : Prop :=
  ∀ (a x : Word) (s : State),
    memWrite a x s = { s with
      mem := s.mem.write a.toNat x.toRaw
      ic := s.ic.filter fun d => !covers a.toNat d
      notes := notesPlus s
        ((s.ic.filter (covers a.toNat)).map (fun d => .disasmRemovedAt d.pos) ++ [.memoryChanged a x]) } ∧
    ∀ d, covers a.toNat d = true ↔ d.pos.toNat ≤ a.toNat ∧ a.toNat < d.pos.toNat + d.span

/-- 41 R164: when a trigger is armed at an address. -/
def Obligations.BpCheckFindsTrigger : Prop :=
  ∀ (bt : List BpEntry) (addr : Nat),
    (bpCheck bt addr .exec = true ↔ ∃ e ∈ bt, e.addr = addr ∧ e.exec = true) ∧
    (bpCheck bt addr .write = true ↔ ∃ e ∈ bt, e.addr = addr ∧ e.write = true) ∧
    (bpCheck bt addr .read = true ↔ ∃ e ∈ bt, e.addr = addr ∧ e.read = true)

/-- 41 R162: the four cases of toggle, and that toggling twice leaves the address absent. -/
def Obligations.ToggleCases : Prop :=
  ∀ (addr : Nat) (x w r : Bool) (s : State),
    (32775 < addr → toggle addr x w r s = { s with response := some .rejected }) ∧
    (addr ≤ 32775 → (∃ e ∈ s.bt, e.addr = addr) →
      toggle addr x w r s = { s with
        bt := s.bt.filter fun e => decide (e.addr ≠ addr)
        notes := notesPlus s [.breakpointToggled addr false]
        response := some .disabled }) ∧
    (addr ≤ 32775 → (∀ e ∈ s.bt, e.addr ≠ addr) → (x || w || r) = false →
      toggle addr x w r s = { s with response := some .disabled }) ∧
    (addr ≤ 32775 → (∀ e ∈ s.bt, e.addr ≠ addr) → (x || w || r) = true →
      toggle addr x w r s = { s with
        bt := s.bt ++ [{ addr := addr, exec := x, write := w, read := r }]
        notes := notesPlus s [.breakpointToggled addr true]
        response := some .enabled } ∧
      (toggle addr x w r (toggle addr x w r s)).bt = s.bt)

/-! ### Status and faults (10, 60) -/

/-- 10 R49: the fields of the STATUS word and their numbers, its reserved bits, and its value after load and after a
restore; the numbers of the causes are those of 60 R400. -/
def Obligations.StatusWordFields : Prop :=
  (∀ s : State,
    (∀ p ∈ [(EngineState.ready, 0), (.running, 1), (.paused, 2), (.halted, 3)], s.es = p.1 →
      (s.statusWord.extractLsb' 0 2).toNat = p.2) ∧
    s.statusWord.getLsbD 2 = s.halted ∧
    s.statusWord.getLsbD 3 = s.pausePending ∧
    s.statusWord.getLsbD 4 = s.faulted ∧
    s.statusWord.extractLsb' 5 3 = 0 ∧
    (∀ p ∈ [(FaultCause.none, 0), (.pcRange, 1), (.osUnderflow, 2), (.modZero, 3), (.badOperand, 4), (.setDest, 5),
        (.unknownOpcode, 6), (.decodeRange, 7), (.badData, 8), (.csUnderflow, 9), (.stackOverflow, 10)],
      s.faultCause = p.1 → (s.statusWord.extractLsb' 8 4).toNat = p.2) ∧
    s.statusWord.extractLsb' 12 4 = 0) ∧
  (∀ (image : List Raw) (s : State), image.length ≤ 32768 → (load image s).statusWord = 0) ∧
  ∀ (bs : List Byte) (s : State), (loadState bs s).response = some .ok → (loadState bs s).statusWord = 0

/-- 60 R401: what raising a fault does, and how it ends the command the step belongs to. -/
def Obligations.FaultActions : Prop :=
  (∀ (c : FaultCause) (s : State),
    raiseFault c s = { s with
      faulted := true
      faultCause := c
      halted := true
      stepResult := some .fault
      notes := if s.halted then s.notes else notesPlus s [.halted] }) ∧
  ∀ s : State, s.stepResult = some .fault → s.flight ≠ .idle →
    (settle s).flight = .idle ∧ (settle s).es = .halted ∧ (settle s).response = some (.step .fault) ∧
    (settle s).pc = s.pc ∧ (settle s).faultCause = s.faultCause

/-! ### Reset and load (10, 70) -/

/-- 10 R55, the column after load, for the empty image (that State.reset is the state of the empty image is log
entry 2). -/
def Obligations.ResetState : Prop :=
  (∀ r : Fin 8, State.reset.regs[r] = 0) ∧ State.reset.pc = 0 ∧ (∀ a, State.reset.mem.read a = 0) ∧
  State.reset.os = [] ∧ State.reset.cs = [] ∧ State.reset.depth = 0 ∧ State.reset.halted = false ∧
  State.reset.pausePending = false ∧ State.reset.faulted = false ∧ State.reset.faultCause = .none ∧
  State.reset.es = .ready ∧ State.reset.bt = [] ∧
  State.reset.ic = [{ pos := 0, body := .instr .halt }] ∧
  (load [] State.reset).ic = State.reset.ic ∧ (load [] State.reset).mem = State.reset.mem

/-- 70 R500: what load does, for every image (that inserted-at carries the position is log entry 11; that the
refresh gives PC as the decode-view position is log entry 13; that load leaves the ports alone is log entry 7). -/
def Obligations.LoadEffect : Prop :=
  ∀ (image : List Raw) (s : State),
    (32768 < image.length → load image s = { s with response := some .loadTooLong }) ∧
    (image.length ≤ 32768 →
      (∀ a, (load image s).mem.read a = image.getD a 0) ∧
      (∀ r : Fin 8, (load image s).regs[r] = 0) ∧
      (load image s).pc = 0 ∧ (load image s).os = [] ∧ (load image s).cs = [] ∧ (load image s).depth = 0 ∧
      (load image s).halted = false ∧ (load image s).pausePending = false ∧
      (load image s).faulted = false ∧ (load image s).faultCause = .none ∧
      (load image s).bt = [] ∧ (load image s).es = .ready ∧
      (∃ d, decodeAt (load image s).mem 0 = some d ∧ (load image s).ic = [d]) ∧
      (load image s).response = some .ok ∧ (load image s).loaded = true ∧
      (load image s).notes = notesPlus s [.disasmReset, .disasmInsertedAt 0] ++ [.consolidatedRefresh
        { mem := (load image s).mem, regs := (load image s).regs, os := [], cs := [], view := 0 }] ∧
      (load image s).input = s.input ∧ (load image s).output = s.output ∧ (load image s).params = s.params)

/-- 70 R503: before the first load every command but load and load-state is answered NOT_LOADED and changes
nothing. -/
def Obligations.NotLoadedRefused : Prop :=
  ∀ (c : Command) (s : State), s.loaded = false → (∀ image, c ≠ .load image) → (∀ bs, c ≠ .loadState bs) →
    perform c s = .next { s with response := some .notLoaded }

/-! ### Operand primitives (42) -/

/-- 42 R190, R191: the three cases of Resolve and of StoreTo. -/
def Obligations.OperandPrimitives : Prop :=
  ∀ (x : Word) (s : State),
    (∀ w : Word, resolve (.lit w) s = .ok w s) ∧
    (∀ r : Fin 8, resolve (.reg r) s =
      .ok s.regs[r] { s with pausePending := s.pausePending || bpCheck s.bt (32768 + r.val) .read }) ∧
    (∀ v : Raw, resolve (.bad v) s = .stop (raiseFault .badOperand s)) ∧
    (∀ w : Word, storeTo (.lit w) x s =
      memWrite w x { s with pausePending := s.pausePending || bpCheck s.bt w.toNat .write }) ∧
    (∀ r : Fin 8, storeTo (.reg r) x s = { s with
      pausePending := s.pausePending || bpCheck s.bt (32768 + r.val) .write
      regs := s.regs.set r x
      notes := notesPlus s [.registerChanged r x] }) ∧
    (∀ v : Raw, storeTo (.bad v) x s = raiseFault .badOperand s)

/-! ### Arithmetic, comparison and bitwise instructions (45) -/

/-- 45 R271 to R275, R277, R278: eq, gt, add, mult, and, or: result, completion, frame and faults. -/
def Obligations.BinaryInstructions : Prop :=
  ∀ p ∈ binaryRules, ∀ (a b c : Operand) (s : State),
    (∀ x y : Word, valueOf b s = some x → valueOf c s = some y → IsPlace a →
      ∃ t, exec (p.1 a b c) s = .next t ∧ Holds a (p.2 x.toNat y.toNat) t ∧
        t.pausePending = ((afterReads [b, c] s).pausePending || writeHit a s) ∧ OnlyPlace a s t ∧
        NotesOfStore a (p.2 x.toNat y.toNat) s t) ∧
    (∀ x y : Word, valueOf b s = some x → valueOf c s = some y → ¬ IsPlace a →
      exec (p.1 a b c) s = .next (raiseFault .badOperand (afterReads [b, c] s))) ∧
    (∀ x : Word, valueOf b s = some x → valueOf c s = none →
      exec (p.1 a b c) s = .next (raiseFault .badOperand (afterReads [b] s))) ∧
    (valueOf b s = none → exec (p.1 a b c) s = .next (raiseFault .badOperand s))

/-- 45 R276: mod: result, completion, frame and faults, the zero divisor before the destination. -/
def Obligations.ModInstruction : Prop :=
  ∀ (a b c : Operand) (s : State),
    (∀ x y : Word, valueOf b s = some x → valueOf c s = some y → y ≠ 0 → IsPlace a →
      ∃ t, exec (.mod a b c) s = .next t ∧ Holds a (x.toNat % y.toNat) t ∧
        t.pausePending = ((afterReads [b, c] s).pausePending || writeHit a s) ∧ OnlyPlace a s t ∧
        NotesOfStore a (x.toNat % y.toNat) s t) ∧
    (∀ x : Word, valueOf b s = some x → valueOf c s = some 0 →
      exec (.mod a b c) s = .next (raiseFault .modZero (afterReads [b, c] s))) ∧
    (∀ x y : Word, valueOf b s = some x → valueOf c s = some y → y ≠ 0 → ¬ IsPlace a →
      exec (.mod a b c) s = .next (raiseFault .badOperand (afterReads [b, c] s))) ∧
    (∀ x : Word, valueOf b s = some x → valueOf c s = none →
      exec (.mod a b c) s = .next (raiseFault .badOperand (afterReads [b] s))) ∧
    (valueOf b s = none → exec (.mod a b c) s = .next (raiseFault .badOperand s))

/-- 45 R279: not: result, completion, frame and faults. -/
def Obligations.NotInstruction : Prop :=
  ∀ (a b : Operand) (s : State),
    (∀ x : Word, valueOf b s = some x → IsPlace a →
      ∃ t, exec (.not a b) s = .next t ∧ Holds a (32767 - x.toNat) t ∧
        t.pausePending = ((afterReads [b] s).pausePending || writeHit a s) ∧ OnlyPlace a s t ∧
        NotesOfStore a (32767 - x.toNat) s t) ∧
    (∀ x : Word, valueOf b s = some x → ¬ IsPlace a →
      exec (.not a b) s = .next (raiseFault .badOperand (afterReads [b] s))) ∧
    (valueOf b s = none → exec (.not a b) s = .next (raiseFault .badOperand s))

/-! ### Data-transfer instructions (44) -/

/-- 44 R251, R252: set writes a register; any other destination faults SET_DEST, after the source. -/
def Obligations.SetInstruction : Prop :=
  ∀ (a b : Operand) (s : State),
    (∀ (r : Fin 8) (x : Word), valueOf b s = some x → a = .reg r →
      exec (.set a b) s = .next { s with
        regs := s.regs.set r x
        pausePending := (afterReads [b] s).pausePending || bpCheck s.bt (32768 + r.val) .write
        notes := notesPlus s [.registerChanged r x] }) ∧
    (∀ x : Word, valueOf b s = some x → (∀ r, a ≠ .reg r) →
      exec (.set a b) s = .next (raiseFault .setDest (afterReads [b] s))) ∧
    (valueOf b s = none → exec (.set a b) s = .next (raiseFault .badOperand s))

/-- 44 R253: push: effect, completion and faults; nothing but the operand stack changes. -/
def Obligations.PushInstruction : Prop :=
  ∀ (a : Operand) (s : State),
    (∀ x : Word, valueOf a s = some x → s.params.osCapacity ≠ some s.os.length →
      exec (.push a) s = .next { s with
        os := s.os ++ [x]
        pausePending := (afterReads [a] s).pausePending
        notes := notesPlus s [.operandStackPushed x] }) ∧
    (∀ x : Word, valueOf a s = some x → s.params.osCapacity = some s.os.length →
      exec (.push a) s = .next (raiseFault .stackOverflow (afterReads [a] s))) ∧
    (valueOf a s = none → exec (.push a) s = .next (raiseFault .badOperand s))

/-- 44 R255: pop: effect, completion, frame and faults; a bad destination faults after the pop. -/
def Obligations.PopInstruction : Prop :=
  ∀ (a : Operand) (s : State),
    (s.os = [] → exec (.pop a) s = .next (raiseFault .osUnderflow s)) ∧
    (∀ (l : List Word) (x : Word), s.os = l ++ [x] → IsPlace a →
      ∃ t, exec (.pop a) s = .next t ∧ Holds a x.toNat t ∧
        t.pausePending = (s.pausePending || writeHit a s) ∧ OnlyPlace a { s with os := l } t ∧
        NotesOfStore a x.toNat { s with notes := notesPlus s [.operandStackPopped] } t) ∧
    (∀ (l : List Word) (x : Word), s.os = l ++ [x] → ¬ IsPlace a →
      exec (.pop a) s =
        .next (raiseFault .badOperand { s with os := l, notes := notesPlus s [.operandStackPopped] }))

/-- 44 R258: rmem: effect, completion, frame and faults; a cell above 32767 faults BAD_DATA. -/
def Obligations.RmemInstruction : Prop :=
  ∀ (a b : Operand) (s : State),
    (valueOf b s = none → exec (.rmem a b) s = .next (raiseFault .badOperand s)) ∧
    ∀ p : Word, valueOf b s = some p →
      (32767 < (s.mem.read p.toNat).toNat →
        exec (.rmem a b) s =
          .next (raiseFault .badData (armIf (bpCheck s.bt p.toNat .read) (afterReads [b] s)))) ∧
      ((s.mem.read p.toNat).toNat ≤ 32767 → IsPlace a →
        ∃ t, exec (.rmem a b) s = .next t ∧ Holds a (s.mem.read p.toNat).toNat t ∧
          t.pausePending =
            ((afterReads [b] s).pausePending || bpCheck s.bt p.toNat .read || writeHit a s) ∧
          OnlyPlace a s t ∧ NotesOfStore a (s.mem.read p.toNat).toNat s t) ∧
      ((s.mem.read p.toNat).toNat ≤ 32767 → ¬ IsPlace a →
        exec (.rmem a b) s =
          .next (raiseFault .badOperand (armIf (bpCheck s.bt p.toNat .read) (afterReads [b] s))))

/-- 44 R260: wmem: the cell whose address is the value of a, completion, frame and faults. -/
def Obligations.WmemInstruction : Prop :=
  ∀ (a b : Operand) (s : State),
    (∀ p x : Word, valueOf a s = some p → valueOf b s = some x →
      ∃ t, exec (.wmem a b) s = .next t ∧ Holds (.lit p) x.toNat t ∧
        t.pausePending = ((afterReads [a, b] s).pausePending || bpCheck s.bt p.toNat .write) ∧
        OnlyPlace (.lit p) s t ∧ NotesOfStore (.lit p) x.toNat s t) ∧
    (∀ p : Word, valueOf a s = some p → valueOf b s = none →
      exec (.wmem a b) s = .next (raiseFault .badOperand (afterReads [a] s))) ∧
    (valueOf a s = none → exec (.wmem a b) s = .next (raiseFault .badOperand s))

/-! ### Control instructions (43) -/

/-- 43 R231: halt sets HALTED and nothing else; where the decode at PC succeeds its step returns HALTED, and a
command it belongs to leaves the machine Halted. -/
def Obligations.HaltInstruction : Prop :=
  (∀ s : State, exec .halt s = .next { s with halted := true, notes := notesPlus s [.halted] }) ∧
  ∀ (old : Word) (s : State) (d : Decoded), s.stepResult = none → s.hold = none → s.halted = true →
    decodeAt s.mem s.pc = some d → s.flight ≠ .idle →
      (completeStep old s).stepResult = some .halted ∧ (settle (completeStep old s)).es = .halted

/-- 43 R232, R237: jmp assigns the resolved target to PC, noop does nothing. -/
def Obligations.JmpAndNoop : Prop :=
  ∀ s : State,
    (∀ (a : Operand) (t : Word), valueOf a s = some t →
      exec (.jmp a) s = .next { s with pc := t, pausePending := (afterReads [a] s).pausePending }) ∧
    (∀ a : Operand, valueOf a s = none → exec (.jmp a) s = .next (raiseFault .badOperand s)) ∧
    exec .noop s = .next s

/-- 43 R233, R234: jt branches on a nonzero condition, jf on zero; the target is resolved only when taken. -/
def Obligations.BranchInstructions : Prop :=
  ∀ p ∈ [(Instr.jt, fun n : Nat => n ≠ 0), (Instr.jf, fun n : Nat => n = 0)], ∀ (a b : Operand) (s : State),
    (∀ c t : Word, valueOf a s = some c → p.2 c.toNat → valueOf b s = some t →
      exec (p.1 a b) s = .next { s with pc := t, pausePending := (afterReads [a, b] s).pausePending }) ∧
    (∀ c : Word, valueOf a s = some c → p.2 c.toNat → valueOf b s = none →
      exec (p.1 a b) s = .next (raiseFault .badOperand (afterReads [a] s))) ∧
    (∀ c : Word, valueOf a s = some c → ¬ p.2 c.toNat → exec (p.1 a b) s = .next (afterReads [a] s)) ∧
    (valueOf a s = none → exec (p.1 a b) s = .next (raiseFault .badOperand s))

/-- 43 R235: call: both stacks get the address of the following instruction; faults before any push. -/
def Obligations.CallInstruction : Prop :=
  ∀ (a : Operand) (s : State),
    (∀ t : Word, valueOf a s = some t → s.params.osCapacity ≠ some s.os.length →
      s.params.csCapacity ≠ some s.cs.length →
      exec (.call a) s = .next { s with
        os := s.os ++ [s.pc]
        cs := s.cs ++ [s.pc]
        depth := s.depth + 1
        pc := t
        pausePending := (afterReads [a] s).pausePending
        notes := notesPlus s [.operandStackPushed s.pc, .callStackPushed s.pc] }) ∧
    (∀ t : Word, valueOf a s = some t →
      (s.params.osCapacity = some s.os.length ∨ s.params.csCapacity = some s.cs.length) →
      exec (.call a) s = .next (raiseFault .stackOverflow (afterReads [a] s))) ∧
    (valueOf a s = none → exec (.call a) s = .next (raiseFault .badOperand s))

/-- 43 R236: ret: the target is the operand stack's top; both underflows precede every change. -/
def Obligations.RetInstruction : Prop :=
  ∀ s : State,
    (s.os = [] → exec .ret s = .next (raiseFault .osUnderflow s)) ∧
    (s.os ≠ [] → s.cs = [] → s.params.callStackUnderflowFaults = true →
      exec .ret s = .next (raiseFault .csUnderflow s)) ∧
    (∀ (l : List Word) (t : Word), s.os = l ++ [t] → s.cs = [] → s.params.callStackUnderflowFaults = false →
      exec .ret s = .next { s with
        os := l, depth := s.depth - 1, pc := t, notes := notesPlus s [.operandStackPopped] }) ∧
    (∀ (l k : List Word) (t u : Word), s.os = l ++ [t] → s.cs = k ++ [u] →
      exec .ret s = .next { s with
        os := l, cs := k, depth := s.depth - 1, pc := t
        notes := notesPlus s [.operandStackPopped, .callStackPopped] })

/-! ### Character instructions (46) -/

/-- 46 R291: out sends its resolved value to the sink, and changes nothing else. -/
def Obligations.OutInstruction : Prop :=
  ∀ (a : Operand) (s : State),
    (∀ x : Word, valueOf a s = some x →
      exec (.out a) s = .next { s with
        output := s.output ++ [x], pausePending := (afterReads [a] s).pausePending }) ∧
    (valueOf a s = none → exec (.out a) s = .next (raiseFault .badOperand s))

/-- 46 R292, R290: in uses the code unit that comes, or the one after a carriage return, whatever it is; with
none there it holds (that a step that holds is a state of the model is log entry 6; that the carriage return is the
code unit 13 is log entry 16). -/
def Obligations.InInstruction : Prop :=
  ∀ (a : Operand) (s : State),
    (∀ (c : Raw) (rest : List Raw), s.input = c :: rest → c ≠ 13 →
      StoresUnit a c { s with input := rest, hold := none } (exec (.input a) s)) ∧
    (∀ (c : Raw) (rest : List Raw), s.input = 13 :: c :: rest →
      StoresUnit a c { s with input := rest, hold := none } (exec (.input a) s)) ∧
    (s.input = [] → exec (.input a) s = .next { s with hold := some { dest := a, afterCr := false } }) ∧
    (s.input = [13] →
      exec (.input a) s = .next { s with input := [], hold := some { dest := a, afterCr := true } })

/-- 46 R290, R292, 42 R189: where nothing comes from the host, a step of a holding machine is its `in` over again,
with the carriage return it has taken (13, log entry 16) before what has come since, and then the end of the step and
of the command in flight; while no code unit is there it stays as it is; a command or a code unit of the host's is
recorded, and nothing else happens (log entry 6). -/
def Obligations.InHoldsUntilInput : Prop :=
  ∀ (s : State) (h : Hold), s.hold = some h →
    (HostSilent s →
      step s = onNext (fun t => settle (completeStep (s.pc - 2) t)) (exec (.input h.dest) { tickOff s with
        hold := none, stepResult := none, input := (if h.afterCr then [13] else []) ++ s.input })) ∧
    (HostSilent s → s.input = [] → s.stepResult = none → step s = .next (tickOff s)) ∧
    (∀ (c : Command) (rest : List HostEvent), s.schedule = .command c :: rest →
      step s = .next { s with schedule := rest, pending := s.pending ++ [c] }) ∧
    (∀ (u : Raw) (rest : List HostEvent), s.schedule = .supply u :: rest →
      step s = .next { s with schedule := rest, input := s.input ++ [u] })

/-! ### Every instruction -/

/-- No instruction and no step stops the model (60 R401, R415, R416; log entry 5). -/
def Obligations.EveryStepAnswersNext : Prop :=
  (∀ (i : Instr) (s : State), ∃ t, exec i s = .next t) ∧ ∀ s : State, ∃ t, step s = .next t

/-- 10 R51: no instruction changes the breakpoints, ES, the commands, the response, the parameters or the host's
schedule; none clears HALTED, FAULTED or the pause latch. -/
def Obligations.ExecLeavesControl : Prop :=
  ∀ (i : Instr) (s t : State), exec i s = .next t →
    t.bt = s.bt ∧ t.es = s.es ∧ t.loaded = s.loaded ∧ t.flight = s.flight ∧ t.response = s.response ∧
    t.pending = s.pending ∧ t.schedule = s.schedule ∧ t.params = s.params ∧
    (s.halted = true → t.halted = true) ∧ (s.faulted = true → t.faulted = true) ∧
    (s.pausePending = true → t.pausePending = true)

/-- 10 R41, R42, R44; 46 R290; 43 R230: which instructions write the stacks and DEPTH, reach the ports, or assign
PC; every other leaves them. -/
def Obligations.OnlyNamedInstructionsTouch : Prop :=
  ∀ (i : Instr) (s t : State), exec i s = .next t →
    ((∀ a, i ≠ .push a) → (∀ a, i ≠ .pop a) → (∀ a, i ≠ .call a) → i ≠ .ret → t.os = s.os) ∧
    ((∀ a, i ≠ .call a) → i ≠ .ret → t.cs = s.cs ∧ t.depth = s.depth) ∧
    ((∀ a, i ≠ .input a) → t.input = s.input ∧ t.hold = s.hold) ∧
    ((∀ a, i ≠ .out a) → t.output = s.output) ∧
    ((∀ a, i ≠ .jmp a) → (∀ a b, i ≠ .jt a b) → (∀ a b, i ≠ .jf a b) → (∀ a, i ≠ .call a) → i ≠ .ret →
      t.pc = s.pc)

/-- 10 R39, 20 R79: an instruction writes memory with words only, and those that never write memory leave every
cell and the cache as they were. -/
def Obligations.MemoryIsWrittenWithWords : Prop :=
  ∀ (i : Instr) (s t : State), exec i s = .next t →
    (∀ q, 32767 < (t.mem.read q).toNat → t.mem.read q = s.mem.read q) ∧
    ((i = .halt ∨ i = .ret ∨ i = .noop ∨ (∃ a b, i = .set a b) ∨ (∃ a, i = .push a) ∨ (∃ a, i = .call a) ∨
      (∃ a, i = .jmp a) ∨ (∃ a b, i = .jt a b) ∨ (∃ a b, i = .jf a b) ∨ (∃ a, i = .out a)) →
      (∀ q, t.mem.read q = s.mem.read q) ∧ t.ic = s.ic)

/-- 10 R42: no instruction reads a value from the call stack: with other values on it every other effect is the
same. -/
def Obligations.CallStackValuesAreNotRead : Prop :=
  ∀ (i : Instr) (s : State) (k : List Word), k.length = s.cs.length →
    ∃ t u, exec i s = .next t ∧ exec i { s with cs := k } = .next u ∧
      u.cs.length = t.cs.length ∧ { u with cs := t.cs } = t

/-! ### The engine (42) -/

/-- A step runs the decoded instruction: where the words at PC decode to i, a step of the command in flight is i's
meaning at the state with PC past it (42 R184, R185), then the end of the step (R186) and of that command; where no
command is in flight, the same is what a step-into does that the controller has issued (R181). Whatever stands at PC,
and halted or not, the move of a command in flight is its next StepInto, with which it goes on or ends (R188, R197,
R198, R200). -/
def Obligations.StepRunsDecodedInstruction : Prop :=
  (∀ (s : State) (i : Instr), s.halted = false → s.hold = none → HostSilent s → CacheCoherent s →
    decodeAt s.mem s.pc = some { pos := s.pc, body := .instr i } → s.pc.toNat + i.span ≤ 32767 →
    (s.flight ≠ .idle → takePending s = none →
      step s = onNext (fun t => settle (completeStep s.pc t))
        (exec i (atInstr i { tickOff s with stepResult := none }))) ∧
    (∀ cs : List Command, s.flight = .idle → s.loaded = true → s.pending = .stepInto :: cs →
      step s = onNext (fun t => settle (completeStep s.pc t))
        (exec i (atInstr i { tickOff s with
          pending := cs, flight := .single, response := none, stepResult := none })))) ∧
  ∀ s : State, s.flight ≠ .idle → s.hold = none → HostSilent s → takePending s = none →
    step s = onNext settle (stepInto (tickOff s))

/-- 42 R183: a step-into of a halted machine changes nothing and reports NOT_ADVANCED, and the latch stays
(60 R420). -/
def Obligations.HaltedStepIsNoop : Prop :=
  ∀ s : State, s.halted = true →
    stepInto s = .next { s with stepResult := some .notAdvanced } ∧
    startStepInto s = .next { s with
      stepResult := some .notAdvanced, response := some (.step .notAdvanced), flight := .idle }

/-- 42 R184, 60 R402: the advance, before the semantics, or PC_RANGE with PC unchanged. -/
def Obligations.PcAdvance : Prop :=
  ∀ (s u : State) (d : Decoded), s.halted = false → fetch { s with stepResult := none } = .ok d u →
    (s.pc.toNat + d.span ≤ 32767 →
      stepInto s = onNext (completeStep s.pc) (execBody d.body { u with pc := BitVec.ofNat 15 (s.pc.toNat + d.span) })) ∧
    (32767 < s.pc.toNat + d.span →
      stepInto s = .next (raiseFault .pcRange u) ∧ (raiseFault .pcRange u).pc = s.pc)

/-- 60 R406: a step that executes a placeholder faults UNKNOWN_OPCODE after the advance by 1. -/
def Obligations.UnknownOpcodeFaults : Prop :=
  ∀ (s : State) (w : Raw), s.halted = false → CacheCoherent s →
    decodeAt s.mem s.pc = some { pos := s.pc, body := .unknown w } → s.pc.toNat < 32767 →
    ∃ t, stepInto s = .next t ∧ t.stepResult = some .fault ∧ t.faultCause = .unknownOpcode ∧
      t.faulted = true ∧ t.halted = true ∧ t.pc = s.pc + 1 ∧ t.regs = s.regs ∧ t.mem = s.mem ∧
      t.os = s.os ∧ t.cs = s.cs ∧ t.depth = s.depth

/-- 60 R408: DECODE_RANGE at the fetch, at the post-step decode, and at the decode after a restore. -/
def Obligations.DecodeRangeFaults : Prop :=
  (∀ s : State, s.halted = false → CacheCoherent s → Overruns s.mem s.pc →
    stepInto s = .next (raiseFault .decodeRange { s with stepResult := none })) ∧
  (∀ (old : Word) (s : State), s.stepResult = none → s.hold = none → Overruns s.mem s.pc →
    completeStep old s = raiseFault .decodeRange s) ∧
  (∀ (bs : List Byte) (n : Snapshot) (s : State), parseSnapshot s.params bs = some n →
    Overruns (installSnapshot n s).mem (installSnapshot n s).pc →
    (loadState bs s).faultCause = .decodeRange ∧ (loadState bs s).faulted = true ∧
      (loadState bs s).halted = true ∧ (loadState bs s).es = .halted)

/-- 42 R186, with what R187 has after the semantics and a decode that succeeds: the record decoded at the new PC goes into the cache, the decode
view is notified from the PC the step began at to the new one, then the result, and what becomes of the pause
latch. -/
def Obligations.EndOfStep : Prop :=
  ∀ (old : Word) (s : State) (d : Decoded), s.stepResult = none → s.hold = none →
    decodeAt s.mem s.pc = some d →
    (s.halted = true → completeStep old s = { cacheInsert d s with
      notes := notesPlus (cacheInsert d s) [.decodeViewChanged old s.pc], stepResult := some .halted }) ∧
    (s.halted = false →
      (s.pausePending = true ∨ ∃ k, k < d.span ∧ bpCheck s.bt (s.pc.toNat + k) .exec = true) →
      completeStep old s = { cacheInsert d s with
        notes := notesPlus (cacheInsert d s) [.decodeViewChanged old s.pc]
        pausePending := false
        stepResult := some .paused }) ∧
    (s.halted = false → s.pausePending = false →
      (∀ k, k < d.span → bpCheck s.bt (s.pc.toNat + k) .exec = false) →
      completeStep old s = { cacheInsert d s with
        notes := notesPlus (cacheInsert d s) [.decodeViewChanged old s.pc]
        pausePending := false
        stepResult := some .continue }) ∧
    (completeStep old s).regs = s.regs ∧ (completeStep old s).mem = s.mem ∧ (completeStep old s).pc = s.pc ∧
    (completeStep old s).os = s.os ∧ (completeStep old s).cs = s.cs ∧ (completeStep old s).depth = s.depth ∧
    (completeStep old s).halted = s.halted ∧ (completeStep old s).faulted = s.faulted

/-- 40 R150, 20 R83: a fetch gives what a fresh decode gives, whether it hits or misses, and a store is seen by the
next fetch with no action by the program. -/
def Obligations.CacheIsTransparent : Prop :=
  ∀ s : State, CacheCoherent s →
    (∀ d, decodeAt s.mem s.pc = some d → ∃ u, fetch s = .ok d u ∧ CacheCoherent u) ∧
    (decodeAt s.mem s.pc = none → fetch s = .stop (raiseFault .decodeRange s)) ∧
    ∀ a x : Word, CacheCoherent (memWrite a x s) ∧
      ∀ d u, fetch (memWrite a x s) = .ok d u → decodeAt (s.mem.write a.toNat x.toRaw) s.pc = some d

/-- 40 R152: the three cases of an insertion; in a cache in its order the record is then found at its position, and
every other position is as it was (that inserted-at and updated-at carry the position is log entry 11). -/
def Obligations.CacheInsertCases : Prop :=
  ∀ (d : Decoded) (s : State),
    (cacheLookup s.ic d.pos = none → cacheInsert d s = { s with
      ic := cachePut d s.ic, notes := notesPlus s [.disasmInsertedAt d.pos] }) ∧
    (∀ e, cacheLookup s.ic d.pos = some e → e.pos = d.pos → e.body.text = d.body.text → cacheInsert d s = s) ∧
    (∀ e, cacheLookup s.ic d.pos = some e → e.body.text ≠ d.body.text → cacheInsert d s = { s with
      ic := cachePut d s.ic, notes := notesPlus s [.disasmUpdatedAt d.pos] }) ∧
    (s.ic.Pairwise (fun x y => x.pos.toNat < y.pos.toNat) →
      cacheLookup (cachePut d s.ic) d.pos = some d ∧
      ∀ p, p ≠ d.pos → cacheLookup (cachePut d s.ic) p = cacheLookup s.ic p)

/-- 42 R180, R181: how a step-into ends: its response is the step's result, the machine is Paused or Halted as the
result says, and NOT_ADVANCED leaves ES. -/
def Obligations.StepCommandEnds : Prop :=
  ∀ (s : State) (r : StepResult), s.flight = .single → s.stepResult = some r →
    settle s = { s with
      flight := .idle
      response := some (.step r)
      es := if r = .notAdvanced then s.es else if r = .continue ∨ r = .paused then .paused else .halted }

/-- 42 R193: a step-over of anything but a call is a step-into, and so is a step-over of a halted machine, whatever
stands at PC (42 R197). -/
def Obligations.StepOverNonCall : Prop :=
  ∀ s : State, (s.halted = true ∨ ∀ d u, fetch s = .ok d u → Decoded.isCall d = false) →
    startStepOver s = startStepInto s

/-- 42 R194, R195, R197: a step-over of a call starts from DEPTH 0 and goes on while its steps report CONTINUE
and DEPTH is above 0; its end changes ES as its result says (R180), the response and what is in flight, and nothing
else. -/
def Obligations.StepOverCall : Prop :=
  (∀ (s u : State) (d : Decoded), s.halted = false →
    fetch { s with flight := .single, response := none, stepResult := none } = .ok d u →
    Decoded.isCall d = true → startStepOver s = onNext settle (stepInto { u with flight := .over, depth := 0 })) ∧
  ∀ (s : State) (r : StepResult), s.flight = .over → s.stepResult = some r →
    (r = .continue → 0 < s.depth → settle s = s) ∧
    (r ≠ .continue ∨ s.depth ≤ 0 →
      settle s = { s with
        flight := .idle
        response := some (.step r)
        es := if r = .notAdvanced then s.es else if r = .continue ∨ r = .paused then .paused else .halted })

/-- 42 R198, R203: a run goes on while its steps report CONTINUE, and no StepInto of it emits anything; it ends in
one consolidated refresh, Paused or Halted; its start and its end change nothing else (that the refresh gives PC as
the decode-view position is log entry 13; that the start is a move of its own is log entry 20). -/
def Obligations.RunLoop : Prop :=
  (∀ s : State, startRun s = { s with flight := .run, es := .running, response := none }) ∧
  (∀ s t : State, s.flight = .run → stepInto s = .next t → t.notes = s.notes ∧ t.flight = .run) ∧
  ∀ (s : State) (r : StepResult), s.flight = .run → s.stepResult = some r →
    (r = .continue → settle s = s) ∧
    (r ≠ .continue →
      settle s = { s with
        flight := .idle
        response := some (.step r)
        es := if r = .paused then .paused else .halted
        notes := s.notes ++
          [.consolidatedRefresh { mem := s.mem, regs := s.regs, os := s.os, cs := s.cs, view := s.pc }] })

/-- 42 R203: notifications have no effect on the state: a step from states that differ in them gives states that
differ in them. -/
def Obligations.NotificationsHaveNoEffect : Prop :=
  ∀ s : State, onNext forgetNotes (step s) = onNext forgetNotes (step (forgetNotes s))

/-- 42 R199, R200: pause arms the latch, stop sets HALTED without FAULTED; both force a consolidated refresh, and
neither changes anything else (that stop notifies halted() is log entry 12; that the refresh gives PC as the
decode-view position is log entry 13; ES during a step-over is log entry 17). Each command of the port performs its
own meaning on a loaded machine (42 R181), and load and load-state before the first load too (70 R503). -/
def Obligations.PauseAndStop : Prop :=
  (∀ s : State,
    pause s = { s with
      pausePending := true
      notes := s.notes ++
        [.consolidatedRefresh { mem := s.mem, regs := s.regs, os := s.os, cs := s.cs, view := s.pc }] } ∧
    stop s = { s with
      halted := true
      es := if s.flight = .run then s.es else .halted
      notes := (if s.halted then s.notes else notesPlus s [.halted]) ++
        [.consolidatedRefresh { mem := s.mem, regs := s.regs, os := s.os, cs := s.cs, view := s.pc }] }) ∧
  (∀ s : State, s.loaded = true →
    perform .pause s = .next (pause s) ∧ perform .stop s = .next (stop s) ∧ perform .run s = .next (startRun s) ∧
    perform .stepInto s = startStepInto s ∧ perform .stepOver s = startStepOver s ∧
    (∀ (addr : Nat) (x w r : Bool), perform (.toggle addr x w r) s = .next (toggle addr x w r s)) ∧
    perform .save s = .next (save s)) ∧
  ∀ s : State, (∀ image, perform (.load image) s = .next (load image s)) ∧
    ∀ bytes, perform (.loadState bytes) s = .next (loadState bytes s)

/-- 42 R201: while a command is in flight only pause and stop are taken from the commands issued; the others
stay, in their order; and where the host does nothing and no `in` holds, the first pause or stop issued is taken and
performed (42 R199, R200, 60 R419; that it is the first of the two kinds is log entry 19). With nothing in flight the
first command issued is taken and performed (R181), and where none has been issued the machine stays as it is (60
R427). -/
def Obligations.HeldCommandsWait : Prop :=
  (∀ (s u : State) (c : Command), s.flight ≠ .idle → takePending s = some (c, u) →
    (c = .pause ∨ c = .stop) ∧ u.flight = s.flight ∧
    u.pending.filter (fun x => !x.isLatch) = s.pending.filter (fun x => !x.isLatch)) ∧
  (∀ s : State, s.flight ≠ .idle → s.hold = none → HostSilent s → (.pause ∈ s.pending ∨ .stop ∈ s.pending) →
    ∃ (held after : List Command) (c : Command), s.pending = held ++ c :: after ∧ (c = .pause ∨ c = .stop) ∧
      (∀ x ∈ held, x ≠ .pause ∧ x ≠ .stop) ∧
      takePending (tickOff s) = some (c, { tickOff s with pending := held ++ after }) ∧
      step s = perform c { tickOff s with pending := held ++ after }) ∧
  ∀ s : State, s.flight = .idle → s.hold = none → HostSilent s →
    (∀ (c : Command) (cs : List Command), s.pending = c :: cs →
      step s = perform c { tickOff s with pending := cs }) ∧
    (s.pending = [] → step s = .next (tickOff s))

/-- 10 R45, 60 R416, R426: nothing but load and load-state clears HALTED, or, in a machine in which no `in` holds (no
halted machine holds, as the invariant says), FAULTED and the cause: neither another command, nor a step of the
machine's own, of a command in flight, of a held `in` or of the host's. -/
def Obligations.OnlyLoadClearsHalted : Prop :=
  (∀ (c : Command) (s t : State), (∀ image, c ≠ .load image) → (∀ bs, c ≠ .loadState bs) →
    s.halted = true → perform c s = .next t →
      t.halted = true ∧ t.faulted = s.faulted ∧ t.faultCause = s.faultCause) ∧
  ∀ s t : State, s.halted = true → step s = .next t →
    (t.halted = true ∧ (s.hold = none → t.faulted = s.faulted ∧ t.faultCause = s.faultCause)) ∨
    (HostSilent s ∧ s.hold = none ∧ s.flight = .idle ∧ ∃ (c : Command) (cs : List Command), s.pending = c :: cs ∧
      ((∃ image, c = .load image) ∨ ∃ bs, c = .loadState bs))

/-! ### Snapshots (47) -/

/-- 47 R302, R301: the place of every field in the stream, its bytes in numbers, and the length (what stands in a
count of 2^32 or more is log entry 15). -/
def Obligations.SnapshotLayout : Prop := ∀ s : State, LayoutOf (snapshotBytes s) (heldBy s)

/-- 47 R308, 10 R55: save then load gives identical memory, registers, PC, breakpoints and stacks, a Ready machine, a
cache with the record at the restored PC only, and the notifications of the restore (47 R306); where the decode at
the restored PC runs past memory the restored machine faults (that its response is FAULT, and that no refresh is
emitted, is log entry 14). The stacks are such as the machine's capacities and 32-bit counts allow (log entry 15);
that inserted-at carries the position is log entry 11, that the refresh carries PC log entry 13, and that the ports
stay as they are log entry 7. -/
def Obligations.SaveThenLoad : Prop :=
  ∀ s t : State, s.mem.wf → BpTableWf s.bt → Fits t.params.osCapacity s.os → Fits t.params.csCapacity s.cs →
    s.os.length < 4294967296 → s.cs.length < 4294967296 →
    ∃ u, loadState (snapshotBytes s) t = u ∧
      u.mem = s.mem ∧ u.regs = s.regs ∧ u.pc = s.pc ∧ u.bt = s.bt ∧ u.os = s.os ∧ u.cs = s.cs ∧
      u.pausePending = false ∧ u.depth = 0 ∧ u.loaded = true ∧
      u.input = t.input ∧ u.output = t.output ∧ u.params = t.params ∧
      (¬ Overruns s.mem s.pc → u.response = some .ok ∧ u.halted = false ∧ u.faulted = false ∧
        u.faultCause = .none ∧ u.es = .ready ∧ (∃ d, decodeAt s.mem s.pc = some d ∧ u.ic = [d]) ∧
        u.notes = notesPlus t [.disasmReset, .disasmInsertedAt s.pc] ++
          [.consolidatedRefresh { mem := s.mem, regs := s.regs, os := s.os, cs := s.cs, view := s.pc }]) ∧
      (Overruns s.mem s.pc → u.response = some (.step .fault) ∧ u.halted = true ∧ u.faulted = true ∧
        u.faultCause = .decodeRange ∧ u.es = .halted ∧ u.ic = [] ∧
        u.notes = notesPlus t [.disasmReset, .halted])

/-- 47 R303: save answers the stream of R302 and changes nothing else, halted or faulted machines included; with a
command in flight it is not performed; and what is restored saves as the same bytes. -/
def Obligations.LoadThenSave : Prop :=
  (∀ s : State, s.loaded = true →
    perform .save s = .next { s with response := some (.snapshot (snapshotBytes s)) } ∧
    (s.flight ≠ .idle → ∀ u, takePending s ≠ some (.save, u))) ∧
  ∀ (bs : List Byte) (t : State), (loadState bs t).response = some .ok → snapshotBytes (loadState bs t) = bs

/-- 47 R304, R305: a stream that is accepted has none of the malformations: it is the layout, byte for byte, of the
snapshot that is read from it, and every field of that is within its bounds; one that is not accepted changes nothing
but the response. -/
def Obligations.MalformedStreamsRefused : Prop :=
  ∀ (bs : List Byte) (s : State),
    (parseSnapshot s.params bs = none → loadState bs s = { s with response := some .restoreMalformed }) ∧
    (∀ n, parseSnapshot s.params bs = some n →
      LayoutOf bs n ∧ n.os.length < 4294967296 ∧ n.cs.length < 4294967296 ∧
      n.cells.length = 32768 ∧ (∀ v ∈ n.cells, v ≤ 65535) ∧ n.regs.length = 8 ∧ (∀ v ∈ n.regs, v ≤ 32767) ∧
      n.pc ≤ 32767 ∧ n.bt.length ≤ 32776 ∧ BpTableWf n.bt ∧
      (∀ c, s.params.osCapacity = some c → n.os.length ≤ c) ∧ (∀ v ∈ n.os, v ≤ 32767) ∧
      (∀ c, s.params.csCapacity = some c → n.cs.length ≤ c) ∧ (∀ v ∈ n.cs, v ≤ 32767))

/-! ### Invariants -/

/-- The invariant holds after reset. -/
def Obligations.ResetSatisfiesInv : Prop := State.reset.Inv

/-- Every step keeps the invariant, from every state that has it (40 R150; 10 R47, R48, R52; 00 R10). -/
def Obligations.StepKeepsInv : Prop :=
  ∀ s t : State, s.Inv → step s = .next t → t.Inv
end

