-- ==== Sys2Proof/Laws/Decode.lean ====
section
/-! SUPPORT. The decoder and the encoder: operands, the words of a position, what a decode depends on. -/

namespace Sys2Proof

theorem Operand.ofRaw_lit {v : Raw} (h : v.toNat ≤ 32767) : Operand.ofRaw v = .lit (BitVec.ofNat 15 v.toNat) :=
  if_pos h

theorem Operand.ofRaw_reg {v : Raw} (h : 32768 ≤ v.toNat) (h' : v.toNat ≤ 32775) :
    Operand.ofRaw v = .reg ⟨(v.toNat - 32768) % 8, Nat.mod_lt _ (by decide)⟩ := by
  unfold Operand.ofRaw
  rw [if_neg (by omega), if_pos h']

theorem Operand.ofRaw_bad {v : Raw} (h : 32776 ≤ v.toNat) : Operand.ofRaw v = .bad v := by
  unfold Operand.ofRaw
  rw [if_neg (by omega), if_neg (by omega)]

theorem Operand.toRaw_ofRaw (v : Raw) : (Operand.ofRaw v).toRaw = v := by
  have hv : v.toNat < 65536 := v.isLt
  by_cases h1 : v.toNat ≤ 32767
  · rw [Operand.ofRaw_lit h1]
    apply BitVec.eq_of_toNat_eq
    simp only [Operand.toRaw, BitVec.toNat_ofNat]; omega
  · by_cases h2 : v.toNat ≤ 32775
    · rw [Operand.ofRaw_reg (by omega) h2]
      apply BitVec.eq_of_toNat_eq
      simp only [Operand.toRaw, BitVec.toNat_ofNat, Config.regBase]; omega
    · rw [Operand.ofRaw_bad (by omega)]
      rfl

theorem Operand.ofRaw_toRaw {o : Operand} (h : o.wf = true) : Operand.ofRaw o.toRaw = o := by
  cases o with
  | lit w =>
    have hw : w.toNat < 32768 := w.isLt
    have e : (Operand.lit w).toRaw.toNat = w.toNat := by
      simp only [Operand.toRaw, BitVec.toNat_ofNat]; omega
    rw [Operand.ofRaw_lit (by omega), e, BitVec.ofNat_toNat, BitVec.setWidth_eq]
  | reg r =>
    obtain ⟨r, hr⟩ := r
    have e : (Operand.reg ⟨r, hr⟩).toRaw.toNat = 32768 + r := by
      simp only [Operand.toRaw, BitVec.toNat_ofNat, Config.regBase]; omega
    generalize (Operand.reg ⟨r, hr⟩).toRaw = v at e
    rw [Operand.ofRaw_reg (by omega) (by omega)]
    refine congrArg Operand.reg (Fin.ext ?_)
    simp only [e]; omega
  | bad v =>
    simp only [Operand.wf, decide_eq_true_eq] at h
    exact Operand.ofRaw_bad h

theorem Operand.ofRaw_wf (v : Raw) : (Operand.ofRaw v).wf = true := by
  by_cases h1 : v.toNat ≤ 32767
  · rw [Operand.ofRaw_lit h1]; rfl
  · by_cases h2 : v.toNat ≤ 32775
    · rw [Operand.ofRaw_reg (by omega) h2]; rfl
    · rw [Operand.ofRaw_bad (by omega)]
      simp only [Operand.wf, decide_eq_true_eq]; omega

theorem Instr.opcode_le (i : Instr) : i.opcode ≤ 21 := by cases i <;> simp [Instr.opcode]

theorem Instr.arity_opcode (i : Instr) : arity i.opcode = i.operands.length := by cases i <;> rfl

/-- A number of at most 21 is one of the opcodes. -/
theorem opcode_cases {n : Nat} (h : n ≤ 21) :
    n = 0 ∨ n = 1 ∨ n = 2 ∨ n = 3 ∨ n = 4 ∨ n = 5 ∨ n = 6 ∨ n = 7 ∨ n = 8 ∨ n = 9 ∨ n = 10 ∨ n = 11 ∨
    n = 12 ∨ n = 13 ∨ n = 14 ∨ n = 15 ∨ n = 16 ∨ n = 17 ∨ n = 18 ∨ n = 19 ∨ n = 20 ∨ n = 21 := by omega

theorem decodeOpcode_unknown {w0 : Raw} (h : 21 < w0.toNat) (ws : List Raw) :
    decodeOpcode w0 ws = .unknown w0 ws := by
  unfold decodeOpcode
  split <;> first | rfl | omega

/-- Decoding an opcode word: the words end too soon, or an instruction of that opcode takes its operands. -/
theorem decodeOpcode_known {w0 : Raw} (h : w0.toNat ≤ 21) (ws : List Raw) :
    (ws.length < arity w0.toNat ∧ decodeOpcode w0 ws = .truncated) ∨
    (arity w0.toNat ≤ ws.length ∧ ∃ i : Instr, decodeOpcode w0 ws = .instr i (ws.drop (arity w0.toNat)) ∧
      i.wf = true ∧ i.opcode = w0.toNat ∧ i.operands.map Operand.toRaw = ws.take (arity w0.toNat)) := by
  unfold decodeOpcode
  rcases opcode_cases h with e | e | e | e | e | e | e | e | e | e | e | e | e | e | e | e | e | e | e | e | e | e <;>
    rw [e] <;> rcases ws with _ | ⟨a, _ | ⟨b, _ | ⟨c, ws⟩⟩⟩ <;>
    simp [decodeF0, decodeF1, decodeF2, decodeF3, arity, Instr.wf, Instr.operands, Instr.opcode,
      Operand.ofRaw_wf, Operand.toRaw_ofRaw]

end Sys2Proof

namespace Sys2Proof.Machine

/-- The words at a position: those of the next four cells that memory has. -/
theorem window_eq (m : Memory) (p : Word) :
    m.window p = (List.range (min 4 (Config.memWords - p.toNat))).map fun k => m.read (p.toNat + k) := by
  have hp : p.toNat < 32768 := p.isLt
  unfold Memory.window
  have : min 4 (Config.memWords - p.toNat) = 4 ∨ min 4 (Config.memWords - p.toNat) = 3 ∨
      min 4 (Config.memWords - p.toNat) = 2 ∨ min 4 (Config.memWords - p.toNat) = 1 := by
    simp only [Config.memWords]; omega
  rcases this with e | e | e | e <;> rw [e] <;> simp only [Config.memWords] at e ⊢
  all_goals
    simp [List.filter_cons, List.range_succ]
    try simp [show p.toNat < 32768 by omega]
  · simp [show p.toNat + 1 < 32768 by omega, show p.toNat + 2 < 32768 by omega, show p.toNat + 3 < 32768 by omega]
  · simp [show p.toNat + 1 < 32768 by omega, show p.toNat + 2 < 32768 by omega,
      show ¬ p.toNat + 3 < 32768 by omega]
  · simp [show p.toNat + 1 < 32768 by omega, show ¬ p.toNat + 2 < 32768 by omega,
      show ¬ p.toNat + 3 < 32768 by omega]
  · simp [show ¬ p.toNat + 1 < 32768 by omega, show ¬ p.toNat + 2 < 32768 by omega,
      show ¬ p.toNat + 3 < 32768 by omega]

/-- What a decode at a position is: a placeholder, the range fault, or an instruction of the opcode there with the
words after it. -/
theorem decodeAt_cases (m : Memory) (p : Word) :
    (21 < (m.read p.toNat).toNat ∧
      decodeAt m p = some { pos := p, body := .unknown (m.read p.toNat) }) ∨
    ((m.read p.toNat).toNat ≤ 21 ∧ 32767 < p.toNat + arity (m.read p.toNat).toNat ∧ decodeAt m p = none) ∨
    ((m.read p.toNat).toNat ≤ 21 ∧ p.toNat + arity (m.read p.toNat).toNat ≤ 32767 ∧
      ∃ i : Instr, decodeAt m p = some { pos := p, body := .instr i } ∧ i.wf = true ∧
        i.opcode = (m.read p.toNat).toNat ∧
        i.operands.map Operand.toRaw =
          (List.range (arity (m.read p.toNat).toNat)).map fun k => m.read (p.toNat + 1 + k)) := by
  have hp : p.toNat < 32768 := p.isLt
  have hw := window_eq m p
  obtain ⟨n, hn, hn4⟩ : ∃ n, min 4 (Config.memWords - p.toNat) = n + 1 ∧
      n = min 3 (32767 - p.toNat) := by
    refine ⟨min 3 (32767 - p.toNat), ?_, rfl⟩
    simp only [Config.memWords]; omega
  rw [hn, List.range_succ_eq_map, List.map_cons, List.map_map] at hw
  simp only [Nat.add_zero] at hw
  have key : decodeWords (m.window p) = decodeOpcode (m.read p.toNat)
      ((List.range n).map ((fun k => m.read (p.toNat + k)) ∘ Nat.succ)) := by rw [hw]; rfl
  have har : arity (m.read p.toNat).toNat ≤ 3 := by
    by_cases h : (m.read p.toNat).toNat ≤ 21
    · rcases opcode_cases h with e | e | e | e | e | e | e | e | e | e | e | e | e | e | e | e | e | e | e | e | e | e <;>
        rw [e] <;> decide
    · simp only [arity]
      rw [List.getD_eq_default _ _ (by simp; omega)]
      omega
  by_cases h : 21 < (m.read p.toNat).toNat
  · left
    refine ⟨h, ?_⟩
    unfold decodeAt
    rw [key, decodeOpcode_unknown h]
  · have h' : (m.read p.toNat).toNat ≤ 21 := by omega
    right
    rcases decodeOpcode_known h' ((List.range n).map ((fun k => m.read (p.toNat + k)) ∘ Nat.succ)) with
      ⟨hl, he⟩ | ⟨hl, i, he, hwf, hop, hargs⟩
    · left
      rw [List.length_map, List.length_range] at hl
      refine ⟨h', by omega, ?_⟩
      unfold decodeAt
      rw [key, he]
    · right
      rw [List.length_map, List.length_range] at hl
      refine ⟨h', by omega, i, ?_, hwf, hop, ?_⟩
      · unfold decodeAt
        rw [key, he]
      · rw [hargs, ← List.map_take, List.take_range, Nat.min_eq_left hl]
        apply List.map_congr_left
        intro k _
        simp only [Function.comp]
        congr 1
        omega

/-- A decoded record stands at the position asked for. -/
theorem decodeAt_pos {m : Memory} {p : Word} {d : Decoded} (h : decodeAt m p = some d) : d.pos = p := by
  rcases decodeAt_cases m p with ⟨-, e⟩ | ⟨-, -, e⟩ | ⟨-, -, i, e, -⟩ <;> rw [e] at h <;> cases h <;> rfl

/-- The range fault of 40 R143 is the decode that gives no record. -/
theorem overruns_iff (m : Memory) (p : Word) : Overruns m p ↔ decodeAt m p = none := by
  rcases decodeAt_cases m p with ⟨h, e⟩ | ⟨h, h', e⟩ | ⟨h, h', i, e, -⟩ <;> rw [e, Overruns] <;> simp <;> omega

theorem arity_le (n : Nat) : arity n ≤ 3 := by
  by_cases h : n ≤ 21
  · rcases opcode_cases h with e | e | e | e | e | e | e | e | e | e | e | e | e | e | e | e | e | e | e | e | e | e <;>
      rw [e] <;> decide
  · simp only [arity]
    rw [List.getD_eq_default _ _ (by simp; omega)]
    omega

/-- The first decode after load cannot fault (70 R500). -/
theorem decodeAt_zero (m : Memory) : ∃ d, decodeAt m 0 = some d := by
  cases h : decodeAt m 0 with
  | some d => exact ⟨d, rfl⟩
  | none =>
    have h1 : 32767 < 0 + arity (m.read 0).toNat := ((overruns_iff m 0).mpr h).2
    have h2 := arity_le (m.read 0).toNat
    omega

end Sys2Proof.Machine
end

