-- ==== Sys2Proof/Laws/State.lean ====
section
/-! SUPPORT. What each named update does to each field: an equation that gives the update as one record update,
or one lemma per field it leaves alone. Later proofs cite these and unfold no update. -/

namespace Sys2Proof.Machine

/-- A run suppresses notifications, and nothing else does (42 R203). -/
theorem emitAll_eq (ns : List Notification) (s : State) :
    emitAll ns s = { s with notes := notesPlus s ns } := by
  unfold emitAll notesPlus
  split <;> simp_all
  rename_i h
  cases s
  simp_all

theorem emit_eq (n : Notification) (s : State) : emit n s = { s with notes := notesPlus s [n] } :=
  emitAll_eq [n] s

@[simp] theorem notesPlus_run {s : State} (h : s.flight = .run) (ns : List Notification) :
    notesPlus s ns = s.notes := by simp [notesPlus, h]

@[simp] theorem notesPlus_nil (s : State) : notesPlus s [] = s.notes := by simp [notesPlus]

/-! ### Fields an update leaves alone -/

@[simp] theorem emitAll_regs (ns : List Notification) (s : State) : (emitAll ns s).regs = s.regs := by rw [emitAll_eq]
@[simp] theorem emitAll_pc (ns : List Notification) (s : State) : (emitAll ns s).pc = s.pc := by rw [emitAll_eq]
@[simp] theorem emitAll_mem (ns : List Notification) (s : State) : (emitAll ns s).mem = s.mem := by rw [emitAll_eq]
@[simp] theorem emitAll_os (ns : List Notification) (s : State) : (emitAll ns s).os = s.os := by rw [emitAll_eq]
@[simp] theorem emitAll_cs (ns : List Notification) (s : State) : (emitAll ns s).cs = s.cs := by rw [emitAll_eq]
@[simp] theorem emitAll_depth (ns : List Notification) (s : State) : (emitAll ns s).depth = s.depth := by rw [emitAll_eq]
@[simp] theorem emitAll_halted (ns : List Notification) (s : State) : (emitAll ns s).halted = s.halted := by rw [emitAll_eq]
@[simp] theorem emitAll_pausePending (ns : List Notification) (s : State) : (emitAll ns s).pausePending = s.pausePending := by rw [emitAll_eq]
@[simp] theorem emitAll_faulted (ns : List Notification) (s : State) : (emitAll ns s).faulted = s.faulted := by rw [emitAll_eq]
@[simp] theorem emitAll_faultCause (ns : List Notification) (s : State) : (emitAll ns s).faultCause = s.faultCause := by rw [emitAll_eq]
@[simp] theorem emitAll_es (ns : List Notification) (s : State) : (emitAll ns s).es = s.es := by rw [emitAll_eq]
@[simp] theorem emitAll_bt (ns : List Notification) (s : State) : (emitAll ns s).bt = s.bt := by rw [emitAll_eq]
@[simp] theorem emitAll_ic (ns : List Notification) (s : State) : (emitAll ns s).ic = s.ic := by rw [emitAll_eq]
@[simp] theorem emitAll_loaded (ns : List Notification) (s : State) : (emitAll ns s).loaded = s.loaded := by rw [emitAll_eq]
@[simp] theorem emitAll_flight (ns : List Notification) (s : State) : (emitAll ns s).flight = s.flight := by rw [emitAll_eq]
@[simp] theorem emitAll_hold (ns : List Notification) (s : State) : (emitAll ns s).hold = s.hold := by rw [emitAll_eq]
@[simp] theorem emitAll_stepResult (ns : List Notification) (s : State) : (emitAll ns s).stepResult = s.stepResult := by rw [emitAll_eq]
@[simp] theorem emitAll_response (ns : List Notification) (s : State) : (emitAll ns s).response = s.response := by rw [emitAll_eq]
@[simp] theorem emitAll_pending (ns : List Notification) (s : State) : (emitAll ns s).pending = s.pending := by rw [emitAll_eq]
@[simp] theorem emitAll_schedule (ns : List Notification) (s : State) : (emitAll ns s).schedule = s.schedule := by rw [emitAll_eq]
@[simp] theorem emitAll_input (ns : List Notification) (s : State) : (emitAll ns s).input = s.input := by rw [emitAll_eq]
@[simp] theorem emitAll_output (ns : List Notification) (s : State) : (emitAll ns s).output = s.output := by rw [emitAll_eq]
@[simp] theorem emitAll_params (ns : List Notification) (s : State) : (emitAll ns s).params = s.params := by rw [emitAll_eq]

@[simp] theorem emit_regs (n : Notification) (s : State) : (emit n s).regs = s.regs := by rw [emit_eq]
@[simp] theorem emit_pc (n : Notification) (s : State) : (emit n s).pc = s.pc := by rw [emit_eq]
@[simp] theorem emit_mem (n : Notification) (s : State) : (emit n s).mem = s.mem := by rw [emit_eq]
@[simp] theorem emit_os (n : Notification) (s : State) : (emit n s).os = s.os := by rw [emit_eq]
@[simp] theorem emit_cs (n : Notification) (s : State) : (emit n s).cs = s.cs := by rw [emit_eq]
@[simp] theorem emit_depth (n : Notification) (s : State) : (emit n s).depth = s.depth := by rw [emit_eq]
@[simp] theorem emit_halted (n : Notification) (s : State) : (emit n s).halted = s.halted := by rw [emit_eq]
@[simp] theorem emit_pausePending (n : Notification) (s : State) : (emit n s).pausePending = s.pausePending := by rw [emit_eq]
@[simp] theorem emit_faulted (n : Notification) (s : State) : (emit n s).faulted = s.faulted := by rw [emit_eq]
@[simp] theorem emit_faultCause (n : Notification) (s : State) : (emit n s).faultCause = s.faultCause := by rw [emit_eq]
@[simp] theorem emit_es (n : Notification) (s : State) : (emit n s).es = s.es := by rw [emit_eq]
@[simp] theorem emit_bt (n : Notification) (s : State) : (emit n s).bt = s.bt := by rw [emit_eq]
@[simp] theorem emit_ic (n : Notification) (s : State) : (emit n s).ic = s.ic := by rw [emit_eq]
@[simp] theorem emit_loaded (n : Notification) (s : State) : (emit n s).loaded = s.loaded := by rw [emit_eq]
@[simp] theorem emit_flight (n : Notification) (s : State) : (emit n s).flight = s.flight := by rw [emit_eq]
@[simp] theorem emit_hold (n : Notification) (s : State) : (emit n s).hold = s.hold := by rw [emit_eq]
@[simp] theorem emit_stepResult (n : Notification) (s : State) : (emit n s).stepResult = s.stepResult := by rw [emit_eq]
@[simp] theorem emit_response (n : Notification) (s : State) : (emit n s).response = s.response := by rw [emit_eq]
@[simp] theorem emit_pending (n : Notification) (s : State) : (emit n s).pending = s.pending := by rw [emit_eq]
@[simp] theorem emit_schedule (n : Notification) (s : State) : (emit n s).schedule = s.schedule := by rw [emit_eq]
@[simp] theorem emit_input (n : Notification) (s : State) : (emit n s).input = s.input := by rw [emit_eq]
@[simp] theorem emit_output (n : Notification) (s : State) : (emit n s).output = s.output := by rw [emit_eq]
@[simp] theorem emit_params (n : Notification) (s : State) : (emit n s).params = s.params := by rw [emit_eq]

@[simp] theorem emitRefresh_regs (s : State) : (emitRefresh s).regs = s.regs := rfl
@[simp] theorem emitRefresh_pc (s : State) : (emitRefresh s).pc = s.pc := rfl
@[simp] theorem emitRefresh_mem (s : State) : (emitRefresh s).mem = s.mem := rfl
@[simp] theorem emitRefresh_os (s : State) : (emitRefresh s).os = s.os := rfl
@[simp] theorem emitRefresh_cs (s : State) : (emitRefresh s).cs = s.cs := rfl
@[simp] theorem emitRefresh_depth (s : State) : (emitRefresh s).depth = s.depth := rfl
@[simp] theorem emitRefresh_halted (s : State) : (emitRefresh s).halted = s.halted := rfl
@[simp] theorem emitRefresh_pausePending (s : State) : (emitRefresh s).pausePending = s.pausePending := rfl
@[simp] theorem emitRefresh_faulted (s : State) : (emitRefresh s).faulted = s.faulted := rfl
@[simp] theorem emitRefresh_faultCause (s : State) : (emitRefresh s).faultCause = s.faultCause := rfl
@[simp] theorem emitRefresh_es (s : State) : (emitRefresh s).es = s.es := rfl
@[simp] theorem emitRefresh_bt (s : State) : (emitRefresh s).bt = s.bt := rfl
@[simp] theorem emitRefresh_ic (s : State) : (emitRefresh s).ic = s.ic := rfl
@[simp] theorem emitRefresh_loaded (s : State) : (emitRefresh s).loaded = s.loaded := rfl
@[simp] theorem emitRefresh_flight (s : State) : (emitRefresh s).flight = s.flight := rfl
@[simp] theorem emitRefresh_hold (s : State) : (emitRefresh s).hold = s.hold := rfl
@[simp] theorem emitRefresh_stepResult (s : State) : (emitRefresh s).stepResult = s.stepResult := rfl
@[simp] theorem emitRefresh_response (s : State) : (emitRefresh s).response = s.response := rfl
@[simp] theorem emitRefresh_pending (s : State) : (emitRefresh s).pending = s.pending := rfl
@[simp] theorem emitRefresh_schedule (s : State) : (emitRefresh s).schedule = s.schedule := rfl
@[simp] theorem emitRefresh_input (s : State) : (emitRefresh s).input = s.input := rfl
@[simp] theorem emitRefresh_output (s : State) : (emitRefresh s).output = s.output := rfl
@[simp] theorem emitRefresh_params (s : State) : (emitRefresh s).params = s.params := rfl

@[simp] theorem armIf_regs (b : Bool) (s : State) : (armIf b s).regs = s.regs := rfl
@[simp] theorem armIf_pc (b : Bool) (s : State) : (armIf b s).pc = s.pc := rfl
@[simp] theorem armIf_mem (b : Bool) (s : State) : (armIf b s).mem = s.mem := rfl
@[simp] theorem armIf_os (b : Bool) (s : State) : (armIf b s).os = s.os := rfl
@[simp] theorem armIf_cs (b : Bool) (s : State) : (armIf b s).cs = s.cs := rfl
@[simp] theorem armIf_depth (b : Bool) (s : State) : (armIf b s).depth = s.depth := rfl
@[simp] theorem armIf_halted (b : Bool) (s : State) : (armIf b s).halted = s.halted := rfl
@[simp] theorem armIf_faulted (b : Bool) (s : State) : (armIf b s).faulted = s.faulted := rfl
@[simp] theorem armIf_faultCause (b : Bool) (s : State) : (armIf b s).faultCause = s.faultCause := rfl
@[simp] theorem armIf_es (b : Bool) (s : State) : (armIf b s).es = s.es := rfl
@[simp] theorem armIf_bt (b : Bool) (s : State) : (armIf b s).bt = s.bt := rfl
@[simp] theorem armIf_ic (b : Bool) (s : State) : (armIf b s).ic = s.ic := rfl
@[simp] theorem armIf_loaded (b : Bool) (s : State) : (armIf b s).loaded = s.loaded := rfl
@[simp] theorem armIf_flight (b : Bool) (s : State) : (armIf b s).flight = s.flight := rfl
@[simp] theorem armIf_hold (b : Bool) (s : State) : (armIf b s).hold = s.hold := rfl
@[simp] theorem armIf_stepResult (b : Bool) (s : State) : (armIf b s).stepResult = s.stepResult := rfl
@[simp] theorem armIf_response (b : Bool) (s : State) : (armIf b s).response = s.response := rfl
@[simp] theorem armIf_pending (b : Bool) (s : State) : (armIf b s).pending = s.pending := rfl
@[simp] theorem armIf_schedule (b : Bool) (s : State) : (armIf b s).schedule = s.schedule := rfl
@[simp] theorem armIf_input (b : Bool) (s : State) : (armIf b s).input = s.input := rfl
@[simp] theorem armIf_output (b : Bool) (s : State) : (armIf b s).output = s.output := rfl
@[simp] theorem armIf_notes (b : Bool) (s : State) : (armIf b s).notes = s.notes := rfl
@[simp] theorem armIf_params (b : Bool) (s : State) : (armIf b s).params = s.params := rfl
@[simp] theorem armIf_pausePending (b : Bool) (s : State) :
    (armIf b s).pausePending = (s.pausePending || b) := rfl

@[simp] theorem cacheEvict_regs (a : Nat) (s : State) : (cacheEvict a s).regs = s.regs := by simp [cacheEvict]
@[simp] theorem cacheEvict_pc (a : Nat) (s : State) : (cacheEvict a s).pc = s.pc := by simp [cacheEvict]
@[simp] theorem cacheEvict_mem (a : Nat) (s : State) : (cacheEvict a s).mem = s.mem := by simp [cacheEvict]
@[simp] theorem cacheEvict_os (a : Nat) (s : State) : (cacheEvict a s).os = s.os := by simp [cacheEvict]
@[simp] theorem cacheEvict_cs (a : Nat) (s : State) : (cacheEvict a s).cs = s.cs := by simp [cacheEvict]
@[simp] theorem cacheEvict_depth (a : Nat) (s : State) : (cacheEvict a s).depth = s.depth := by simp [cacheEvict]
@[simp] theorem cacheEvict_halted (a : Nat) (s : State) : (cacheEvict a s).halted = s.halted := by simp [cacheEvict]
@[simp] theorem cacheEvict_pausePending (a : Nat) (s : State) : (cacheEvict a s).pausePending = s.pausePending := by simp [cacheEvict]
@[simp] theorem cacheEvict_faulted (a : Nat) (s : State) : (cacheEvict a s).faulted = s.faulted := by simp [cacheEvict]
@[simp] theorem cacheEvict_faultCause (a : Nat) (s : State) : (cacheEvict a s).faultCause = s.faultCause := by simp [cacheEvict]
@[simp] theorem cacheEvict_es (a : Nat) (s : State) : (cacheEvict a s).es = s.es := by simp [cacheEvict]
@[simp] theorem cacheEvict_bt (a : Nat) (s : State) : (cacheEvict a s).bt = s.bt := by simp [cacheEvict]
@[simp] theorem cacheEvict_loaded (a : Nat) (s : State) : (cacheEvict a s).loaded = s.loaded := by simp [cacheEvict]
@[simp] theorem cacheEvict_flight (a : Nat) (s : State) : (cacheEvict a s).flight = s.flight := by simp [cacheEvict]
@[simp] theorem cacheEvict_hold (a : Nat) (s : State) : (cacheEvict a s).hold = s.hold := by simp [cacheEvict]
@[simp] theorem cacheEvict_stepResult (a : Nat) (s : State) : (cacheEvict a s).stepResult = s.stepResult := by simp [cacheEvict]
@[simp] theorem cacheEvict_response (a : Nat) (s : State) : (cacheEvict a s).response = s.response := by simp [cacheEvict]
@[simp] theorem cacheEvict_pending (a : Nat) (s : State) : (cacheEvict a s).pending = s.pending := by simp [cacheEvict]
@[simp] theorem cacheEvict_schedule (a : Nat) (s : State) : (cacheEvict a s).schedule = s.schedule := by simp [cacheEvict]
@[simp] theorem cacheEvict_input (a : Nat) (s : State) : (cacheEvict a s).input = s.input := by simp [cacheEvict]
@[simp] theorem cacheEvict_output (a : Nat) (s : State) : (cacheEvict a s).output = s.output := by simp [cacheEvict]
@[simp] theorem cacheEvict_params (a : Nat) (s : State) : (cacheEvict a s).params = s.params := by simp [cacheEvict]
@[simp] theorem cacheEvict_ic (a : Nat) (s : State) :
    (cacheEvict a s).ic = s.ic.filter fun d => !covers a d := by simp [cacheEvict]

@[simp] theorem cacheInsert_regs (d : Decoded) (s : State) : (cacheInsert d s).regs = s.regs := by
  unfold cacheInsert; split <;> (try split) <;> simp
@[simp] theorem cacheInsert_pc (d : Decoded) (s : State) : (cacheInsert d s).pc = s.pc := by
  unfold cacheInsert; split <;> (try split) <;> simp
@[simp] theorem cacheInsert_mem (d : Decoded) (s : State) : (cacheInsert d s).mem = s.mem := by
  unfold cacheInsert; split <;> (try split) <;> simp
@[simp] theorem cacheInsert_os (d : Decoded) (s : State) : (cacheInsert d s).os = s.os := by
  unfold cacheInsert; split <;> (try split) <;> simp
@[simp] theorem cacheInsert_cs (d : Decoded) (s : State) : (cacheInsert d s).cs = s.cs := by
  unfold cacheInsert; split <;> (try split) <;> simp
@[simp] theorem cacheInsert_depth (d : Decoded) (s : State) : (cacheInsert d s).depth = s.depth := by
  unfold cacheInsert; split <;> (try split) <;> simp
@[simp] theorem cacheInsert_halted (d : Decoded) (s : State) : (cacheInsert d s).halted = s.halted := by
  unfold cacheInsert; split <;> (try split) <;> simp
@[simp] theorem cacheInsert_pausePending (d : Decoded) (s : State) : (cacheInsert d s).pausePending = s.pausePending := by
  unfold cacheInsert; split <;> (try split) <;> simp
@[simp] theorem cacheInsert_faulted (d : Decoded) (s : State) : (cacheInsert d s).faulted = s.faulted := by
  unfold cacheInsert; split <;> (try split) <;> simp
@[simp] theorem cacheInsert_faultCause (d : Decoded) (s : State) : (cacheInsert d s).faultCause = s.faultCause := by
  unfold cacheInsert; split <;> (try split) <;> simp
@[simp] theorem cacheInsert_es (d : Decoded) (s : State) : (cacheInsert d s).es = s.es := by
  unfold cacheInsert; split <;> (try split) <;> simp
@[simp] theorem cacheInsert_bt (d : Decoded) (s : State) : (cacheInsert d s).bt = s.bt := by
  unfold cacheInsert; split <;> (try split) <;> simp
@[simp] theorem cacheInsert_loaded (d : Decoded) (s : State) : (cacheInsert d s).loaded = s.loaded := by
  unfold cacheInsert; split <;> (try split) <;> simp
@[simp] theorem cacheInsert_flight (d : Decoded) (s : State) : (cacheInsert d s).flight = s.flight := by
  unfold cacheInsert; split <;> (try split) <;> simp
@[simp] theorem cacheInsert_hold (d : Decoded) (s : State) : (cacheInsert d s).hold = s.hold := by
  unfold cacheInsert; split <;> (try split) <;> simp
@[simp] theorem cacheInsert_stepResult (d : Decoded) (s : State) : (cacheInsert d s).stepResult = s.stepResult := by
  unfold cacheInsert; split <;> (try split) <;> simp
@[simp] theorem cacheInsert_response (d : Decoded) (s : State) : (cacheInsert d s).response = s.response := by
  unfold cacheInsert; split <;> (try split) <;> simp
@[simp] theorem cacheInsert_pending (d : Decoded) (s : State) : (cacheInsert d s).pending = s.pending := by
  unfold cacheInsert; split <;> (try split) <;> simp
@[simp] theorem cacheInsert_schedule (d : Decoded) (s : State) : (cacheInsert d s).schedule = s.schedule := by
  unfold cacheInsert; split <;> (try split) <;> simp
@[simp] theorem cacheInsert_input (d : Decoded) (s : State) : (cacheInsert d s).input = s.input := by
  unfold cacheInsert; split <;> (try split) <;> simp
@[simp] theorem cacheInsert_output (d : Decoded) (s : State) : (cacheInsert d s).output = s.output := by
  unfold cacheInsert; split <;> (try split) <;> simp
@[simp] theorem cacheInsert_params (d : Decoded) (s : State) : (cacheInsert d s).params = s.params := by
  unfold cacheInsert; split <;> (try split) <;> simp

@[simp] theorem memWrite_regs (a x : Word) (s : State) : (memWrite a x s).regs = s.regs := by simp [memWrite]
@[simp] theorem memWrite_pc (a x : Word) (s : State) : (memWrite a x s).pc = s.pc := by simp [memWrite]
@[simp] theorem memWrite_os (a x : Word) (s : State) : (memWrite a x s).os = s.os := by simp [memWrite]
@[simp] theorem memWrite_cs (a x : Word) (s : State) : (memWrite a x s).cs = s.cs := by simp [memWrite]
@[simp] theorem memWrite_depth (a x : Word) (s : State) : (memWrite a x s).depth = s.depth := by simp [memWrite]
@[simp] theorem memWrite_halted (a x : Word) (s : State) : (memWrite a x s).halted = s.halted := by simp [memWrite]
@[simp] theorem memWrite_pausePending (a x : Word) (s : State) : (memWrite a x s).pausePending = s.pausePending := by simp [memWrite]
@[simp] theorem memWrite_faulted (a x : Word) (s : State) : (memWrite a x s).faulted = s.faulted := by simp [memWrite]
@[simp] theorem memWrite_faultCause (a x : Word) (s : State) : (memWrite a x s).faultCause = s.faultCause := by simp [memWrite]
@[simp] theorem memWrite_es (a x : Word) (s : State) : (memWrite a x s).es = s.es := by simp [memWrite]
@[simp] theorem memWrite_bt (a x : Word) (s : State) : (memWrite a x s).bt = s.bt := by simp [memWrite]
@[simp] theorem memWrite_loaded (a x : Word) (s : State) : (memWrite a x s).loaded = s.loaded := by simp [memWrite]
@[simp] theorem memWrite_flight (a x : Word) (s : State) : (memWrite a x s).flight = s.flight := by simp [memWrite]
@[simp] theorem memWrite_hold (a x : Word) (s : State) : (memWrite a x s).hold = s.hold := by simp [memWrite]
@[simp] theorem memWrite_stepResult (a x : Word) (s : State) : (memWrite a x s).stepResult = s.stepResult := by simp [memWrite]
@[simp] theorem memWrite_response (a x : Word) (s : State) : (memWrite a x s).response = s.response := by simp [memWrite]
@[simp] theorem memWrite_pending (a x : Word) (s : State) : (memWrite a x s).pending = s.pending := by simp [memWrite]
@[simp] theorem memWrite_schedule (a x : Word) (s : State) : (memWrite a x s).schedule = s.schedule := by simp [memWrite]
@[simp] theorem memWrite_input (a x : Word) (s : State) : (memWrite a x s).input = s.input := by simp [memWrite]
@[simp] theorem memWrite_output (a x : Word) (s : State) : (memWrite a x s).output = s.output := by simp [memWrite]
@[simp] theorem memWrite_params (a x : Word) (s : State) : (memWrite a x s).params = s.params := by simp [memWrite]
@[simp] theorem memWrite_mem (a x : Word) (s : State) :
    (memWrite a x s).mem = s.mem.write a.toNat x.toRaw := by simp [memWrite]
@[simp] theorem memWrite_ic (a x : Word) (s : State) :
    (memWrite a x s).ic = s.ic.filter fun d => !covers a.toNat d := by simp [memWrite]

@[simp] theorem writeReg_pc (r : Fin 8) (x : Word) (s : State) : (writeReg r x s).pc = s.pc := by simp [writeReg]
@[simp] theorem writeReg_mem (r : Fin 8) (x : Word) (s : State) : (writeReg r x s).mem = s.mem := by simp [writeReg]
@[simp] theorem writeReg_os (r : Fin 8) (x : Word) (s : State) : (writeReg r x s).os = s.os := by simp [writeReg]
@[simp] theorem writeReg_cs (r : Fin 8) (x : Word) (s : State) : (writeReg r x s).cs = s.cs := by simp [writeReg]
@[simp] theorem writeReg_depth (r : Fin 8) (x : Word) (s : State) : (writeReg r x s).depth = s.depth := by simp [writeReg]
@[simp] theorem writeReg_halted (r : Fin 8) (x : Word) (s : State) : (writeReg r x s).halted = s.halted := by simp [writeReg]
@[simp] theorem writeReg_pausePending (r : Fin 8) (x : Word) (s : State) : (writeReg r x s).pausePending = s.pausePending := by simp [writeReg]
@[simp] theorem writeReg_faulted (r : Fin 8) (x : Word) (s : State) : (writeReg r x s).faulted = s.faulted := by simp [writeReg]
@[simp] theorem writeReg_faultCause (r : Fin 8) (x : Word) (s : State) : (writeReg r x s).faultCause = s.faultCause := by simp [writeReg]
@[simp] theorem writeReg_es (r : Fin 8) (x : Word) (s : State) : (writeReg r x s).es = s.es := by simp [writeReg]
@[simp] theorem writeReg_bt (r : Fin 8) (x : Word) (s : State) : (writeReg r x s).bt = s.bt := by simp [writeReg]
@[simp] theorem writeReg_ic (r : Fin 8) (x : Word) (s : State) : (writeReg r x s).ic = s.ic := by simp [writeReg]
@[simp] theorem writeReg_loaded (r : Fin 8) (x : Word) (s : State) : (writeReg r x s).loaded = s.loaded := by simp [writeReg]
@[simp] theorem writeReg_flight (r : Fin 8) (x : Word) (s : State) : (writeReg r x s).flight = s.flight := by simp [writeReg]
@[simp] theorem writeReg_hold (r : Fin 8) (x : Word) (s : State) : (writeReg r x s).hold = s.hold := by simp [writeReg]
@[simp] theorem writeReg_stepResult (r : Fin 8) (x : Word) (s : State) : (writeReg r x s).stepResult = s.stepResult := by simp [writeReg]
@[simp] theorem writeReg_response (r : Fin 8) (x : Word) (s : State) : (writeReg r x s).response = s.response := by simp [writeReg]
@[simp] theorem writeReg_pending (r : Fin 8) (x : Word) (s : State) : (writeReg r x s).pending = s.pending := by simp [writeReg]
@[simp] theorem writeReg_schedule (r : Fin 8) (x : Word) (s : State) : (writeReg r x s).schedule = s.schedule := by simp [writeReg]
@[simp] theorem writeReg_input (r : Fin 8) (x : Word) (s : State) : (writeReg r x s).input = s.input := by simp [writeReg]
@[simp] theorem writeReg_output (r : Fin 8) (x : Word) (s : State) : (writeReg r x s).output = s.output := by simp [writeReg]
@[simp] theorem writeReg_params (r : Fin 8) (x : Word) (s : State) : (writeReg r x s).params = s.params := by simp [writeReg]
@[simp] theorem writeReg_regs (r : Fin 8) (x : Word) (s : State) :
    (writeReg r x s).regs = s.regs.set r x := by simp [writeReg]

@[simp] theorem raiseFault_regs (c : FaultCause) (s : State) : (raiseFault c s).regs = s.regs := by
  unfold raiseFault; split <;> simp
@[simp] theorem raiseFault_pc (c : FaultCause) (s : State) : (raiseFault c s).pc = s.pc := by
  unfold raiseFault; split <;> simp
@[simp] theorem raiseFault_mem (c : FaultCause) (s : State) : (raiseFault c s).mem = s.mem := by
  unfold raiseFault; split <;> simp
@[simp] theorem raiseFault_os (c : FaultCause) (s : State) : (raiseFault c s).os = s.os := by
  unfold raiseFault; split <;> simp
@[simp] theorem raiseFault_cs (c : FaultCause) (s : State) : (raiseFault c s).cs = s.cs := by
  unfold raiseFault; split <;> simp
@[simp] theorem raiseFault_depth (c : FaultCause) (s : State) : (raiseFault c s).depth = s.depth := by
  unfold raiseFault; split <;> simp
@[simp] theorem raiseFault_pausePending (c : FaultCause) (s : State) : (raiseFault c s).pausePending = s.pausePending := by
  unfold raiseFault; split <;> simp
@[simp] theorem raiseFault_es (c : FaultCause) (s : State) : (raiseFault c s).es = s.es := by
  unfold raiseFault; split <;> simp
@[simp] theorem raiseFault_bt (c : FaultCause) (s : State) : (raiseFault c s).bt = s.bt := by
  unfold raiseFault; split <;> simp
@[simp] theorem raiseFault_ic (c : FaultCause) (s : State) : (raiseFault c s).ic = s.ic := by
  unfold raiseFault; split <;> simp
@[simp] theorem raiseFault_loaded (c : FaultCause) (s : State) : (raiseFault c s).loaded = s.loaded := by
  unfold raiseFault; split <;> simp
@[simp] theorem raiseFault_flight (c : FaultCause) (s : State) : (raiseFault c s).flight = s.flight := by
  unfold raiseFault; split <;> simp
@[simp] theorem raiseFault_hold (c : FaultCause) (s : State) : (raiseFault c s).hold = s.hold := by
  unfold raiseFault; split <;> simp
@[simp] theorem raiseFault_response (c : FaultCause) (s : State) : (raiseFault c s).response = s.response := by
  unfold raiseFault; split <;> simp
@[simp] theorem raiseFault_pending (c : FaultCause) (s : State) : (raiseFault c s).pending = s.pending := by
  unfold raiseFault; split <;> simp
@[simp] theorem raiseFault_schedule (c : FaultCause) (s : State) : (raiseFault c s).schedule = s.schedule := by
  unfold raiseFault; split <;> simp
@[simp] theorem raiseFault_input (c : FaultCause) (s : State) : (raiseFault c s).input = s.input := by
  unfold raiseFault; split <;> simp
@[simp] theorem raiseFault_output (c : FaultCause) (s : State) : (raiseFault c s).output = s.output := by
  unfold raiseFault; split <;> simp
@[simp] theorem raiseFault_params (c : FaultCause) (s : State) : (raiseFault c s).params = s.params := by
  unfold raiseFault; split <;> simp
@[simp] theorem raiseFault_halted (c : FaultCause) (s : State) : (raiseFault c s).halted = true := by
  unfold raiseFault; split <;> simp_all
@[simp] theorem raiseFault_faulted (c : FaultCause) (s : State) : (raiseFault c s).faulted = true := by
  unfold raiseFault; split <;> simp
@[simp] theorem raiseFault_faultCause (c : FaultCause) (s : State) : (raiseFault c s).faultCause = c := by
  unfold raiseFault; split <;> simp
@[simp] theorem raiseFault_stepResult (c : FaultCause) (s : State) :
    (raiseFault c s).stepResult = some .fault := by
  unfold raiseFault; split <;> simp

/-! ### Updates as one record update -/

theorem pushOs_eq (x : Word) (s : State) : pushOs x s =
    { s with os := s.os ++ [x], notes := notesPlus s [.operandStackPushed x] } := by
  simp [pushOs, emit_eq, notesPlus]
theorem pushCs_eq (x : Word) (s : State) : pushCs x s =
    { s with cs := s.cs ++ [x], notes := notesPlus s [.callStackPushed x] } := by
  simp [pushCs, emit_eq, notesPlus]
theorem dropOs_eq (s : State) : dropOs s =
    { s with os := s.os.dropLast, notes := notesPlus s [.operandStackPopped] } := by
  simp [dropOs, emit_eq, notesPlus]
theorem dropCs_eq (s : State) : dropCs s =
    { s with cs := s.cs.dropLast, notes := notesPlus s [.callStackPopped] } := by
  simp [dropCs, emit_eq, notesPlus]
theorem writeReg_eq (r : Fin 8) (x : Word) (s : State) : writeReg r x s =
    { s with regs := s.regs.set r x, notes := notesPlus s [.registerChanged r x] } := by
  simp [writeReg, emit_eq, notesPlus]

end Sys2Proof.Machine
end

