-- ==== Sys2Proof/Laws/Memory.lean ====
section
/-! SUPPORT. The memory laws: reads after writes, the canonical form, and the cells an image gives. -/

namespace Sys2Proof.Machine

theorem read_eq_zero_of_lt {m : Memory} {a : Nat} (h : ∀ c ∈ m, a < c.1) : m.read a = 0#16 := by
  induction m with
  | nil => rfl
  | cons c m ih =>
    obtain ⟨k, v⟩ := c
    have hk : a < k := h (k, v) (by simp)
    simp only [Memory.read, if_neg (Nat.ne_of_gt hk)]
    exact ih fun d hd => h d (List.mem_cons_of_mem _ hd)

theorem read_put_same (m : Memory) (a : Nat) (v : Raw) : (m.put a v).read a = v := by
  induction m with
  | nil => simp [Memory.put, Memory.read]
  | cons c m ih =>
    obtain ⟨k, u⟩ := c
    unfold Memory.put
    split
    · simp [Memory.read]
    · split
      · simp [Memory.read]
      · rename_i hne
        simp only [Memory.read, if_neg (Ne.symm hne)]
        exact ih

theorem read_put_other (m : Memory) {a b : Nat} (v : Raw) (h : b ≠ a) : (m.put a v).read b = m.read b := by
  induction m with
  | nil => simp [Memory.put, Memory.read, h.symm]
  | cons c m ih =>
    obtain ⟨k, u⟩ := c
    unfold Memory.put
    split
    · simp [Memory.read, h.symm]
    · split
      · rename_i heq
        have hk : k ≠ b := fun e => h (by rw [← e, heq])
        simp [Memory.read, hk, h.symm]
      · simp only [Memory.read, ih]

theorem read_unlist (m : Memory) (a b : Nat) :
    Memory.read (m.filter fun c => decide (c.1 ≠ a)) b = if b = a then 0#16 else m.read b := by
  induction m with
  | nil => simp [Memory.read]
  | cons c m ih =>
    obtain ⟨k, u⟩ := c
    rw [List.filter_cons]
    by_cases hk : k = a
    · subst hk
      by_cases hb : b = k
      · subst hb; simpa using ih
      · simpa [Memory.read, hb, Ne.symm hb] using ih
    · by_cases hb : b = a
      · subst hb; simpa [Memory.read, hk] using ih
      · simp only [decide_not, hb, if_false] at ih
        simp [Memory.read, hk, hb, ih]

/-- A read gives what the last write to that address wrote (20 R81), in every memory. -/
theorem read_write_same (m : Memory) (a : Nat) (v : Raw) : (m.write a v).read a = v := by
  unfold Memory.write
  split
  · rename_i hv
    rw [read_unlist, if_pos rfl, hv]
  · exact read_put_same m a v

/-- A write leaves every other cell alone. -/
theorem read_write_other (m : Memory) {a b : Nat} (v : Raw) (h : b ≠ a) : (m.write a v).read b = m.read b := by
  unfold Memory.write
  split
  · rw [read_unlist, if_neg h]
  · exact read_put_other m v h

theorem mem_put {m : Memory} {a : Nat} {v : Raw} {c : Nat × Raw} (h : c ∈ m.put a v) : c ∈ m ∨ c = (a, v) := by
  induction m with
  | nil => simp_all [Memory.put]
  | cons d m ih =>
    obtain ⟨k, u⟩ := d
    unfold Memory.put at h
    split at h
    · simp_all; tauto
    · split at h
      · simp_all; tauto
      · rcases List.mem_cons.mp h with h | h
        · exact .inl (by simp [h])
        · rcases ih h with h | h
          · exact .inl (List.mem_cons_of_mem _ h)
          · exact .inr h

theorem put_sorted {m : Memory} (a : Nat) (v : Raw) (h : m.Pairwise fun c d => c.1 < d.1) :
    (m.put a v).Pairwise fun c d => c.1 < d.1 := by
  induction m with
  | nil => simp [Memory.put]
  | cons d m ih =>
    obtain ⟨k, u⟩ := d
    rw [List.pairwise_cons] at h
    unfold Memory.put
    split
    · rename_i hlt
      refine List.pairwise_cons.mpr ⟨fun c hc => ?_, List.pairwise_cons.mpr h⟩
      rcases List.mem_cons.mp hc with rfl | hc
      · exact hlt
      · exact Nat.lt_trans hlt (h.1 c hc)
    · split
      · rename_i heq
        exact List.pairwise_cons.mpr ⟨fun c hc => heq ▸ h.1 c hc, h.2⟩
      · rename_i hlt hne
        refine List.pairwise_cons.mpr ⟨fun c hc => ?_, ih h.2⟩
        rcases mem_put hc with hc | rfl
        · exact h.1 c hc
        · simp only; omega

/-- Writing inside memory keeps the canonical form. -/
theorem write_wf {m : Memory} {a : Nat} (v : Raw) (h : m.wf) (ha : a < Config.memWords) : (m.write a v).wf := by
  unfold Memory.write
  split
  · exact ⟨h.1.sublist List.filter_sublist, fun c hc => h.2 c (List.mem_of_mem_filter hc)⟩
  · rename_i hv
    refine ⟨put_sorted a v h.1, fun c hc => ?_⟩
    rcases mem_put hc with hc | rfl
    · exact h.2 c hc
    · exact ⟨ha, hv⟩

theorem mem_ofCells {vs : List Raw} {b : Nat} {c : Nat × Raw} (h : c ∈ Memory.ofCells b vs) :
    b ≤ c.1 ∧ c.1 < b + vs.length ∧ c.2 ≠ 0#16 := by
  induction vs generalizing b with
  | nil => simp [Memory.ofCells] at h
  | cons v vs ih =>
    unfold Memory.ofCells at h
    simp only [List.length_cons]
    split at h
    · obtain ⟨h1, h2, h3⟩ := ih h
      exact ⟨by omega, by omega, h3⟩
    · rename_i hv
      rcases List.mem_cons.mp h with rfl | h
      · exact ⟨Nat.le_refl _, by simp only; omega, hv⟩
      · obtain ⟨h1, h2, h3⟩ := ih h
        exact ⟨by omega, by omega, h3⟩

/-- The cells an image gives are in canonical form. -/
theorem ofCells_wf (b : Nat) (vs : List Raw) (h : b + vs.length ≤ Config.memWords) : (Memory.ofCells b vs).wf := by
  refine ⟨?_, fun c hc => ?_⟩
  · induction vs generalizing b with
    | nil => simp [Memory.ofCells]
    | cons v vs ih =>
      simp only [List.length_cons] at h
      unfold Memory.ofCells
      split
      · exact ih (b + 1) (by omega)
      · refine List.pairwise_cons.mpr ⟨fun c hc => ?_, ih (b + 1) (by omega)⟩
        have := (mem_ofCells hc).1
        simp only; omega
  · obtain ⟨-, h2, h3⟩ := mem_ofCells hc
    exact ⟨by omega, h3⟩

/-- Reading the cells an image gives. -/
theorem read_ofCells (b : Nat) (vs : List Raw) (a : Nat) :
    (Memory.ofCells b vs).read a = if b ≤ a then vs.getD (a - b) 0#16 else 0#16 := by
  induction vs generalizing b with
  | nil => simp [Memory.ofCells, Memory.read]
  | cons v vs ih =>
    have key : (if v = 0#16 then Memory.ofCells (b + 1) vs else (b, v) :: Memory.ofCells (b + 1) vs).read a =
        if b = a then v else (Memory.ofCells (b + 1) vs).read a := by
      split
      · rename_i hv
        split
        · rename_i hb
          rw [read_eq_zero_of_lt, hv]
          intro c hc
          have := (mem_ofCells hc).1
          omega
        · rfl
      · simp only [Memory.read]
    unfold Memory.ofCells
    rw [key, ih]
    split
    · rename_i hb; subst hb; simp
    · rename_i hb
      by_cases hle : b ≤ a
      · have hlt : b + 1 ≤ a := by omega
        have : a - b = (a - (b + 1)) + 1 := by omega
        simp [hle, hlt, this]
      · have : ¬ b + 1 ≤ a := by omega
        simp [hle, this]

theorem read_of_mem {m : Memory} {c : Nat × Raw} (h : m.wf) (hc : c ∈ m) : m.read c.1 = c.2 := by
  induction m with
  | nil => simp at hc
  | cons d m ih =>
    obtain ⟨hp, hb⟩ := h
    rw [List.pairwise_cons] at hp
    rcases List.mem_cons.mp hc with rfl | hin
    · simp [Memory.read]
    · obtain ⟨k, u⟩ := d
      have hlt : k < c.1 := hp.1 c hin
      simp only [Memory.read, if_neg (Nat.ne_of_lt hlt)]
      exact ih ⟨hp.2, fun d hd => hb d (List.mem_cons_of_mem _ hd)⟩ hin

/-- Memories in canonical form that read the same are the same data. -/
theorem eq_of_read_eq {m n : Memory} (hm : m.wf) (hn : n.wf) (h : ∀ a, m.read a = n.read a) : m = n := by
  have sub : ∀ {x y : Memory}, x.wf → y.wf → (∀ a, x.read a = y.read a) → ∀ c ∈ x, c ∈ y := by
    intro x y hx hy h c hc
    have hr : y.read c.1 = c.2 := by rw [← h, read_of_mem hx hc]
    have hnz : c.2 ≠ 0#16 := (hx.2 c hc).2
    clear h hx hc
    induction y with
    | nil => exact absurd hr.symm hnz
    | cons d y ih =>
      obtain ⟨k, u⟩ := d
      simp only [Memory.read] at hr
      split at hr
      · rename_i hk
        have : c = (k, u) := by rw [hk, hr]
        exact this ▸ List.mem_cons_self
      · exact List.mem_cons_of_mem _
          (ih ⟨(List.pairwise_cons.mp hy.1).2, fun d hd => hy.2 d (List.mem_cons_of_mem _ hd)⟩ hr)
  have perm : m.Perm n := by
    refine (List.perm_ext_iff_of_nodup ?_ ?_).mpr fun c =>
      ⟨sub hm hn h c, sub hn hm (fun a => (h a).symm) c⟩
    · exact hm.1.imp fun hlt e => absurd (e ▸ hlt) (Nat.lt_irrefl _)
    · exact hn.1.imp fun hlt e => absurd (e ▸ hlt) (Nat.lt_irrefl _)
  exact perm.eq_of_pairwise (fun a b _ _ hab hba => absurd (Nat.lt_trans hab hba) (Nat.lt_irrefl _)) hm.1 hn.1

/-! ### The operations over the state keep the canonical form -/

theorem memWrite_wf (a x : Word) {s : State} (h : s.mem.wf) : (memWrite a x s).mem.wf := by
  have ha : a.toNat < 32768 := a.isLt
  rw [memWrite_mem]
  exact write_wf _ h ha

theorem storeTo_wf (v : Operand) (x : Word) {s : State} (h : s.mem.wf) : (storeTo v x s).mem.wf := by
  cases v with
  | lit a => exact memWrite_wf a x h
  | reg r => simpa [storeTo] using h
  | bad b => simpa [storeTo] using h

theorem storeData_wf (v : Operand) (c : Raw) {s : State} (h : s.mem.wf) : (storeData v c s).mem.wf := by
  unfold storeData
  split
  · simpa using h
  · exact storeTo_wf v _ h

theorem load_wf (image : List Raw) {s : State} (h : s.mem.wf) : (load image s).mem.wf := by
  unfold load
  split
  · exact h
  · rename_i hl
    have key : (installImage image s).mem.wf := by
      simpa [installImage] using ofCells_wf 0 image (by simp only [Config.memWords] at hl ⊢; omega)
    unfold decodeHere
    split <;> simpa [Flow.state] using key

theorem placeWords_wf (a : Nat) (ws : List Raw) {s : State} (h : s.mem.wf) : (placeWords a ws s).mem.wf := by
  induction ws generalizing a s with
  | nil => exact h
  | cons w ws ih =>
    unfold placeWords
    split
    · rename_i ha
      exact ih (a + 1) (write_wf w h ha)
    · exact h

theorem reset_wf : State.reset.mem.wf := by decide

end Sys2Proof.Machine
end

