-- ==== Sys2Proof/Laws/Operands.lean ====
section
/-! SUPPORT. What the operand primitives do (42 R190, R191): one lemma for each way they can end. -/

namespace Sys2Proof.Machine

theorem resolve_some {v : Operand} {s : State} {x : Word} (h : valueOf v s = some x) :
    resolve v s = .ok x (afterReads [v] s) := by
  cases v <;> simp_all [valueOf, resolve, afterReads, readHit, armIf, readReg]

theorem resolve_none {v : Operand} {s : State} (h : valueOf v s = none) :
    resolve v s = .stop (raiseFault .badOperand s) := by
  cases v <;> simp_all [valueOf, resolve]

/-- Resolving gives the operand's value, or faults. -/
theorem resolve_cases (v : Operand) (s : State) :
    (∃ x, valueOf v s = some x ∧ resolve v s = .ok x (afterReads [v] s)) ∨
    (valueOf v s = none ∧ resolve v s = .stop (raiseFault .badOperand s)) := by
  cases h : valueOf v s with
  | none => exact .inr ⟨rfl, resolve_none h⟩
  | some x => exact .inl ⟨x, rfl, resolve_some h⟩

@[simp] theorem andThen_ok {α : Type} (a : α) (s : State) (f : α → State → Host.Outcome State Fault Refusal) :
    (Flow.ok a s).andThen f = f a s := rfl

@[simp] theorem andThen_stop {α : Type} (s : State) (f : α → State → Host.Outcome State Fault Refusal) :
    (Flow.stop s : Flow α).andThen f = .next s := rfl

/-! ### Reading operands changes the pause latch only -/

@[simp] theorem valueOf_afterReads (v : Operand) (vs : List Operand) (s : State) :
    valueOf v (afterReads vs s) = valueOf v s := by cases v <;> rfl

@[simp] theorem readHit_afterReads (v : Operand) (vs : List Operand) (s : State) :
    readHit v (afterReads vs s) = readHit v s := by cases v <;> rfl

@[simp] theorem writeHit_afterReads (v : Operand) (vs : List Operand) (s : State) :
    writeHit v (afterReads vs s) = writeHit v s := by cases v <;> rfl

theorem afterReads_two (v w : Operand) (s : State) :
    afterReads [w] (afterReads [v] s) = afterReads [v, w] s := by
  simp [afterReads, readHit, Bool.or_assoc]

/-! ### Storing -/

theorem storeTo_bad {a : Operand} (h : ¬ IsPlace a) (x : Word) (s : State) :
    storeTo a x s = raiseFault .badOperand s := by
  cases a <;> simp_all [IsPlace, storeTo]

theorem storeTo_holds {a : Operand} (h : IsPlace a) (x : Word) (s : State) :
    Holds a x.toNat (storeTo a x s) := by
  have hx : x.toNat < 32768 := x.isLt
  cases a with
  | lit w => simp [Holds, storeTo, read_write_same]; omega
  | reg r => simp [Holds, storeTo]
  | bad v => exact absurd rfl (h v)

theorem storeTo_pausePending {a : Operand} (h : IsPlace a) (x : Word) (s : State) :
    (storeTo a x s).pausePending = (s.pausePending || writeHit a s) := by
  cases a with
  | lit w => simp [storeTo]
  | reg r => simp [storeTo]
  | bad v => exact absurd rfl (h v)

theorem storeTo_onlyPlace {a : Operand} (h : IsPlace a) (x : Word) (s : State) :
    OnlyPlace a s (storeTo a x s) := by
  cases a with
  | lit w =>
    refine ⟨fun r _ => by simp [storeTo], fun q hq => ?_, fun d => by simp [storeTo], ?_⟩
    · simp [storeTo]; exact read_write_other _ _ (hq w rfl)
    · constructor <;> simp [storeTo]
  | reg r =>
    refine ⟨fun q hq => ?_, fun q _ => by simp [storeTo], fun d => by simp [storeTo], ?_⟩
    · simp [storeTo]
      rw [Vector.getElem_set_ne]
      intro e; exact hq (by rw [Fin.ext e])
    · constructor <;> simp [storeTo]
  | bad v => exact absurd rfl (h v)

/-- The frame does not see the pause latch. -/
theorem onlyPlace_afterReads {a : Operand} {vs : List Operand} {s t : State}
    (h : OnlyPlace a (afterReads vs s) t) : OnlyPlace a s t :=
  ⟨h.regs, h.mem, h.cache, ⟨h.outside.1, h.outside.2, h.outside.3, h.outside.4, h.outside.5, h.outside.6,
    h.outside.7, h.outside.8, h.outside.9, h.outside.10, h.outside.11, h.outside.12, h.outside.13, h.outside.14,
    h.outside.15, h.outside.16, h.outside.17, h.outside.18, h.outside.19⟩⟩

end Sys2Proof.Machine
end

