-- ==== Sys2Proof/Laws/Exec.lean ====
section
/-! SUPPORT. What the meanings of the instructions can do, in one lemma that needs no meaning unfolded. -/

namespace Sys2Proof.Machine

/-- What holds of a resolved operand's rest and of the fault holds of the whole. -/
theorem andThen_rel {R : State → State → Prop} {v : Operand} {s t : State}
    {f : Word → State → Host.Outcome State Fault Refusal}
    (h : (resolve v s).andThen f = .next t) (hf : R s (raiseFault .badOperand s))
    (hg : ∀ x, f x (afterReads [v] s) = .next t → R s t) : R s t := by
  rcases resolve_cases v s with ⟨x, -, e⟩ | ⟨-, e⟩
  · rw [e] at h; exact hg x h
  · rw [e] at h; cases h; exact hf

/-- A relation between states that composes, and that a fault and an armed pause latch keep. -/
structure Composes (R : State → State → Prop) : Prop where
  refl : ∀ s, R s s
  trans : ∀ s t u, R s t → R t u → R s u
  fault : ∀ c s, c ≠ FaultCause.none → R s (raiseFault c s)
  arm : ∀ b s, R s (armIf b s)

theorem composes_reads {R : State → State → Prop} (h : Composes R) (v s) : R s (afterReads [v] s) := h.arm _ s

theorem composes_resolve {R : State → State → Prop} (h : Composes R) {v : Operand} {s t : State}
    {f : Word → State → Host.Outcome State Fault Refusal}
    (e : (resolve v s).andThen f = .next t) (hg : ∀ x u, f x u = .next t → R u t) : R s t :=
  andThen_rel e (h.fault _ _ (by decide)) fun x e' => h.trans _ _ _ (composes_reads h v s) (hg x _ e')

theorem composes_storeTo {R : State → State → Prop} (h : Composes R) (hm : ∀ a x s, R s (memWrite a x s))
    (hr : ∀ r x s, R s (writeReg r x s)) (a x s) : R s (storeTo a x s) := by
  cases a with
  | lit w => exact h.trans _ _ _ (h.arm _ _) (hm _ _ _)
  | reg r => exact h.trans _ _ _ (h.arm _ _) (hr _ _ _)
  | bad v => exact h.fault _ _ (by decide)

theorem composes_storeData {R : State → State → Prop} (h : Composes R) (hm : ∀ a x s, R s (memWrite a x s))
    (hr : ∀ r x s, R s (writeReg r x s)) (a x s) : R s (storeData a x s) := by
  unfold storeData; split
  · exact h.fault _ _ (by decide)
  · exact composes_storeTo h hm hr _ _ _

/-- What an instruction can do, said once: a relation that composes, and that every primitive the instruction
uses keeps, holds between the states before and after it. -/
theorem exec_composes {R : State → State → Prop} (h : Composes R) (hm : ∀ a x s, R s (memWrite a x s))
    (hr : ∀ r x s, R s (writeReg r x s))
    (i : Instr) (s t : State) (e : exec i s = .next t)
    (hhalt : i = .halt → ∀ s, R s (emit .halted { s with halted := true }))
    (hpc : ((∃ a, i = .jmp a) ∨ (∃ a b, i = .jt a b) ∨ (∃ a b, i = .jf a b)) →
      ∀ (p : Word) (s : State), R s { s with pc := p })
    (hpush : (∃ a, i = .push a) → ∀ (x : Word) (s : State),
      atCapacity s.params.osCapacity s.os = false → R s (pushOs x s))
    (hpop : (∃ a, i = .pop a) → ∀ (s : State), s.os ≠ [] → R s (dropOs s))
    (hcall : (∃ a, i = .call a) → ∀ (x : Word) (s : State), atCapacity s.params.osCapacity s.os = false →
      atCapacity s.params.csCapacity s.cs = false →
      R s { pushCs s.pc (pushOs s.pc s) with depth := s.depth + 1, pc := x })
    (hret : i = .ret → ∀ (x : Word) (s : State), R s { dropCsIfAny (dropOs s) with depth := s.depth - 1, pc := x })
    (hsend : (∃ a, i = .out a) → ∀ (x : Word) (s : State), R s (send x s))
    (hin : (∃ a, i = .input a) → ∀ (s : State) (l : List Raw) (o : Option Hold),
      R s { s with input := l, hold := o }) :
    R s t := by
  have hb : ∀ f a b c, binary f a b c s = .next t → R s t := fun f a b c e =>
    composes_resolve h e fun x u e => composes_resolve h e fun y w e => by cases e; exact composes_storeTo h hm hr _ _ _
  have hj : (∀ (p : Word) (s : State), R s { s with pc := p }) → ∀ v s, jumpTo v s = .next t → R s t :=
    fun hpc v s e =>
    composes_resolve h e fun x u e => by cases e; exact hpc _ _
  have hbr : (∀ (p : Word) (s : State), R s { s with pc := p }) → ∀ f a b, branchIf f a b s = .next t → R s t :=
    fun hpc f a b e =>
    composes_resolve h e fun x u e => by
      split at e
      · exact hj hpc _ _ e
      · cases e; exact h.refl _
  cases i with
  | halt => cases e; exact hhalt rfl _
  | noop => cases e; exact h.refl _
  | set a b =>
    exact composes_resolve h e fun x u e => by
      cases a <;> cases e
      · exact h.fault _ _ (by decide)
      · exact h.trans _ _ _ (h.arm _ _) (hr _ _ _)
      · exact h.fault _ _ (by decide)
  | push a =>
    exact composes_resolve h e fun x u e => by
      split at e <;> cases e
      · exact h.fault _ _ (by decide)
      · rename_i hh; exact hpush ⟨_, rfl⟩ _ _ (by simpa using hh)
  | pop a =>
    simp only [exec, execPop] at e; split at e <;> cases e
    · exact h.fault _ _ (by decide)
    · refine h.trans _ _ _ (hpop ⟨_, rfl⟩ _ ?_) (composes_storeTo h hm hr _ _ _)
      rename_i h; intro e; rw [e] at h; simp [topOf] at h
  | eq a b c => exact hb _ _ _ _ e
  | gt a b c => exact hb _ _ _ _ e
  | add a b c => exact hb _ _ _ _ e
  | mult a b c => exact hb _ _ _ _ e
  | and a b c => exact hb _ _ _ _ e
  | or a b c => exact hb _ _ _ _ e
  | mod a b c =>
    exact composes_resolve h e fun x u e => composes_resolve h e fun y w e => by
      split at e <;> cases e
      · exact h.fault _ _ (by decide)
      · exact composes_storeTo h hm hr _ _ _
  | not a b => exact composes_resolve h e fun x u e => by cases e; exact composes_storeTo h hm hr _ _ _
  | rmem a b =>
    exact composes_resolve h e fun x u e => by
      cases e; exact h.trans _ _ _ (h.arm _ _) (composes_storeData h hm hr _ _ _)
  | wmem a b =>
    exact composes_resolve h e fun x u e => composes_resolve h e fun y w e => by
      cases e; exact h.trans _ _ _ (h.arm _ _) (hm _ _ _)
  | jmp a => exact hj (hpc (.inl ⟨_, rfl⟩)) _ _ e
  | jt a b => exact hbr (hpc (.inr (.inl ⟨_, _, rfl⟩))) _ _ _ e
  | jf a b => exact hbr (hpc (.inr (.inr ⟨_, _, rfl⟩))) _ _ _ e
  | call a =>
    exact composes_resolve h e fun x u e => by
      split at e <;> cases e
      · exact h.fault _ _ (by decide)
      · rename_i hh; simp at hh; exact hcall ⟨_, rfl⟩ _ _ hh.1 hh.2
  | ret =>
    simp only [exec, execRet] at e; split at e
    · cases e; exact h.fault _ _ (by decide)
    · split at e <;> cases e
      · exact h.fault _ _ (by decide)
      · exact hret rfl _ _
  | out a => exact composes_resolve h e fun x u e => by cases e; exact hsend ⟨_, rfl⟩ _ _
  | input a =>
    have hin := hin ⟨_, rfl⟩
    have hcr : ∀ a s, R s (takeAfterCr a s) := fun a s => by
      unfold takeAfterCr; split
      · exact hin _ _ _
      · exact h.trans _ _ _ (hin _ _ _) (composes_storeData h hm hr _ _ _)
    cases e; unfold takeUnit; split
    · exact hin _ _ _
    · split
      · exact h.trans _ _ _ (hin _ _ _) (hcr _ _)
      · exact h.trans _ _ _ (hin _ _ _) (composes_storeData h hm hr _ _ _)

end Sys2Proof.Machine
end

