-- ==== Sys2Proof/Laws/Engine.lean ====
section
/-! SUPPORT. The instruction cache (40), fetching, the ways a step-into can end (42 R187), and what a step
of the model can be. -/

namespace Sys2Proof.Machine

/-! ### The cache -/

@[simp] theorem sameAs_self (d : Decoded) : d.sameAs d = true := by simp [Decoded.sameAs]

theorem mem_of_lookup {ic : List Decoded} {p : Word} {d : Decoded} (h : cacheLookup ic p = some d) :
    d ∈ ic ∧ d.pos = p := by
  unfold cacheLookup at h
  exact ⟨List.mem_of_find?_eq_some h, by simpa using List.find?_some h⟩

theorem mem_cachePut {d e : Decoded} {ic : List Decoded} (h : e ∈ cachePut d ic) : e = d ∨ e ∈ ic := by
  induction ic with
  | nil => exact .inl (by simpa [cachePut] using h)
  | cons f ic ih =>
    unfold cachePut at h
    split at h
    · rcases List.mem_cons.mp h with h | h
      · exact .inl h
      · exact .inr h
    · split at h
      · rcases List.mem_cons.mp h with h | h
        · exact .inl h
        · exact .inr (List.mem_cons_of_mem _ h)
      · rcases List.mem_cons.mp h with h | h
        · exact .inr (by simp [h])
        · rcases ih h with h | h
          · exact .inl h
          · exact .inr (List.mem_cons_of_mem _ h)

theorem cachePut_sorted {d : Decoded} {ic : List Decoded} (h : ic.Pairwise fun x y => x.pos.toNat < y.pos.toNat) :
    (cachePut d ic).Pairwise fun x y => x.pos.toNat < y.pos.toNat := by
  induction ic with
  | nil => simp [cachePut]
  | cons f ic ih =>
    rw [List.pairwise_cons] at h
    unfold cachePut
    split
    · rename_i hlt
      refine List.pairwise_cons.mpr ⟨fun c hc => ?_, List.pairwise_cons.mpr h⟩
      rcases List.mem_cons.mp hc with rfl | hc
      · exact hlt
      · exact Nat.lt_trans hlt (h.1 c hc)
    · split
      · rename_i heq
        exact List.pairwise_cons.mpr ⟨fun c hc => heq ▸ h.1 c hc, h.2⟩
      · rename_i hlt hne
        refine List.pairwise_cons.mpr ⟨fun c hc => ?_, ih h.2⟩
        rcases mem_cachePut hc with rfl | hc
        · have : f.pos.toNat ≠ c.pos.toNat := fun e => hne (BitVec.eq_of_toNat_eq e).symm
          omega
        · exact h.1 c hc

/-- What a lookup finds after a record was put where none stood. -/
theorem lookup_cachePut {d : Decoded} {ic : List Decoded} (h : cacheLookup ic d.pos = none) :
    cacheLookup (cachePut d ic) d.pos = some d := by
  induction ic with
  | nil => simp [cacheLookup, cachePut]
  | cons f ic ih =>
    simp only [cacheLookup, List.find?_cons] at h
    split at h
    · cases h
    · rename_i hf
      simp only [decide_eq_false_iff_not] at hf
      unfold cachePut
      split
      · simp [cacheLookup]
      · rw [if_neg (Ne.symm hf)]
        simp only [cacheLookup, List.find?_cons, decide_eq_false hf]
        exact ih h

/-- A fetch where the cache is transparent (40 R150) and the decode succeeds. -/
theorem fetch_ok {s : State} {d : Decoded} (hc : CacheCoherent s) (hd : decodeAt s.mem s.pc = some d) :
    fetch s = .ok d (cacheInsert d s) := by
  have hp := decodeAt_pos hd
  unfold fetch
  split
  · rename_i e h
    obtain ⟨hm, hpos⟩ := mem_of_lookup h
    have : e = d := by
      have := hc e hm
      rw [hpos, hd] at this
      exact (Option.some.inj this).symm
    subst this
    simp only [cacheInsert, hp, h, sameAs_self, if_true]
  · simp [decodeHere, hd]

/-- A fetch where the cache is transparent and the decode runs past memory (40 R143). -/
theorem fetch_stop {s : State} (hc : CacheCoherent s) (hd : decodeAt s.mem s.pc = none) :
    fetch s = .stop (raiseFault .decodeRange s) := by
  unfold fetch
  split
  · rename_i e h
    obtain ⟨hm, hpos⟩ := mem_of_lookup h
    have := hc e hm
    rw [hpos, hd] at this
    cases this
  · simp [decodeHere, hd]

/-! ### Step-into -/

theorem stepInto_ok {s u : State} {d : Decoded} (hh : s.halted = false)
    (hf : fetch { s with stepResult := none } = .ok d u) :
    stepInto s = match advancePc d u with
      | none => .next (raiseFault .pcRange u)
      | some t => onNext (completeStep u.pc) (execBody d.body t) := by
  unfold stepInto
  rw [hf, if_neg (by rw [hh]; simp), andThen_ok]
  all_goals rfl

theorem stepInto_stop {s u : State} (hh : s.halted = false) (hf : fetch { s with stepResult := none } = .stop u) :
    stepInto s = .next u := by
  unfold stepInto
  rw [hf, if_neg (by rw [hh]; simp), andThen_stop]

/-- A step that has a result or holds is complete (42 R188, R189). -/
theorem completeStep_done {old : Word} {s : State} (h : s.stepResult.isSome = true ∨ s.hold.isSome = true) :
    completeStep old s = s := by
  unfold completeStep
  rw [if_pos (by simpa using h)]

/-- The end of a step whose next instruction is d (42 R186). -/
theorem completeStep_report {old : Word} {s : State} {d : Decoded} (h1 : s.stepResult = none) (h2 : s.hold = none)
    (hd : decodeAt s.mem s.pc = some d) :
    completeStep old s = reportStep d (emit (.decodeViewChanged old s.pc) (cacheInsert d s)) := by
  simp [completeStep, h1, h2, finishStep, decodeHere, hd]

/-! ### Steps of the model -/

/-- Where the host does nothing, a step is a move of the machine. -/
theorem step_silent {s : State} (h : HostSilent s) : step s = advance (tickOff s) := by
  cases hq : s.schedule with
  | nil =>
    have e : tickOff s = s := by cases s; simp_all [tickOff]
    simp only [step, hq, e]
  | cons e r =>
    obtain h | h := h
    · rw [hq] at h; cases h
    · rw [hq] at h; cases h; simp only [step, hq, hostEvent, tickOff, List.tail_cons]

theorem step_command {s : State} {c : Command} {r : List HostEvent} (h : s.schedule = .command c :: r) :
    step s = .next { s with schedule := r, pending := s.pending ++ [c] } := by simp [step, h, hostEvent]

theorem step_supply {s : State} {u : Raw} {r : List HostEvent} (h : s.schedule = .supply u :: r) :
    step s = .next { s with schedule := r, input := s.input ++ [u] } := by simp [step, h, hostEvent]

/-- Whatever the schedule, the host does nothing at this boundary, or it issues a command, or supplies a code
unit. -/
theorem schedule_cases (s : State) : HostSilent s ∨ (∃ c r, s.schedule = .command c :: r) ∨
    ∃ u r, s.schedule = .supply u :: r := by
  cases hq : s.schedule with
  | nil => exact .inl (.inl hq)
  | cons e r =>
    cases e with
    | tick => exact .inl (.inr (by rw [hq]; rfl))
    | command c => exact .inr (.inl ⟨c, r, rfl⟩)
    | supply u => exact .inr (.inr ⟨u, r, rfl⟩)

theorem advance_hold {s : State} {h : Hold} (hh : s.hold = some h) : advance s = .next (settle (resumeStep h s)) := by
  unfold advance; rw [hh]

theorem advance_take {s u : State} {c : Command} (hh : s.hold = none) (ht : takePending s = some (c, u)) :
    advance s = perform c u := by
  unfold advance; rw [hh, ht]

theorem advance_move {s : State} (hh : s.hold = none) (ht : takePending s = none) : advance s = engineMove s := by
  unfold advance; rw [hh, ht]

theorem takePending_idle {s : State} (h : s.flight = .idle) : takePending s = match s.pending with
    | [] => none
    | c :: cs => some (c, { s with pending := cs }) := by
  unfold takePending; rw [h]
  all_goals rfl

/-- The engine's move where a command is in flight. -/
theorem engineMove_inFlight {s : State} (h : s.flight ≠ .idle) : engineMove s = onNext settle (stepInto s) := by
  unfold engineMove; cases hf : s.flight <;> first | rfl | exact absurd hf h

end Sys2Proof.Machine
end

