-- ==== Sys2Proof/Laws/PerInstr.lean ====
section
/-! SUPPORT. The statements made of every instruction, one lemma per constructor. -/

namespace Sys2Proof.Laws.Shape

/-- The shape of an instruction (30 R100, R103): its opcode is one of the 22, the table gives that opcode the
number of its operands and its mnemonic, and it occupies one word more than it has operands, the first of them its
opcode. -/
def Statement (i : Instr) : Prop :=
  i.opcode ≤ 21 ∧ arity i.opcode = i.operands.length ∧ Machine.mnemonics[i.opcode]? = some i.mnemonic ∧
  (encode i).length = i.span ∧ (encode i).head? = some (BitVec.ofNat 16 i.opcode)

theorem halt : Statement .halt := ⟨by decide, rfl, rfl, rfl, rfl⟩
theorem set (a b : Operand) : Statement (.set a b) :=
  ⟨by simp [Instr.opcode], rfl, rfl, rfl, rfl⟩
theorem push (a : Operand) : Statement (.push a) :=
  ⟨by simp [Instr.opcode], rfl, rfl, rfl, rfl⟩
theorem pop (a : Operand) : Statement (.pop a) :=
  ⟨by simp [Instr.opcode], rfl, rfl, rfl, rfl⟩
theorem eq (a b c : Operand) : Statement (.eq a b c) :=
  ⟨by simp [Instr.opcode], rfl, rfl, rfl, rfl⟩
theorem gt (a b c : Operand) : Statement (.gt a b c) :=
  ⟨by simp [Instr.opcode], rfl, rfl, rfl, rfl⟩
theorem jmp (a : Operand) : Statement (.jmp a) :=
  ⟨by simp [Instr.opcode], rfl, rfl, rfl, rfl⟩
theorem jt (a b : Operand) : Statement (.jt a b) :=
  ⟨by simp [Instr.opcode], rfl, rfl, rfl, rfl⟩
theorem jf (a b : Operand) : Statement (.jf a b) :=
  ⟨by simp [Instr.opcode], rfl, rfl, rfl, rfl⟩
theorem add (a b c : Operand) : Statement (.add a b c) :=
  ⟨by simp [Instr.opcode], rfl, rfl, rfl, rfl⟩
theorem mult (a b c : Operand) : Statement (.mult a b c) :=
  ⟨by simp [Instr.opcode], rfl, rfl, rfl, rfl⟩
theorem mod (a b c : Operand) : Statement (.mod a b c) :=
  ⟨by simp [Instr.opcode], rfl, rfl, rfl, rfl⟩
theorem and (a b c : Operand) : Statement (.and a b c) :=
  ⟨by simp [Instr.opcode], rfl, rfl, rfl, rfl⟩
theorem or (a b c : Operand) : Statement (.or a b c) :=
  ⟨by simp [Instr.opcode], rfl, rfl, rfl, rfl⟩
theorem not (a b : Operand) : Statement (.not a b) :=
  ⟨by simp [Instr.opcode], rfl, rfl, rfl, rfl⟩
theorem rmem (a b : Operand) : Statement (.rmem a b) :=
  ⟨by simp [Instr.opcode], rfl, rfl, rfl, rfl⟩
theorem wmem (a b : Operand) : Statement (.wmem a b) :=
  ⟨by simp [Instr.opcode], rfl, rfl, rfl, rfl⟩
theorem call (a : Operand) : Statement (.call a) :=
  ⟨by simp [Instr.opcode], rfl, rfl, rfl, rfl⟩
theorem ret : Statement .ret := ⟨by decide, rfl, rfl, rfl, rfl⟩
theorem out (a : Operand) : Statement (.out a) :=
  ⟨by simp [Instr.opcode], rfl, rfl, rfl, rfl⟩
theorem input (a : Operand) : Statement (.input a) :=
  ⟨by simp [Instr.opcode], rfl, rfl, rfl, rfl⟩
theorem noop : Statement .noop := ⟨by decide, rfl, rfl, rfl, rfl⟩

end Sys2Proof.Laws.Shape
end

