-- ==== Sys2Proof/Laws/Snapshot.lean ====
section
/-! SUPPORT. The pieces of the snapshot stream (47 R301, R302): their lengths, and that reading undoes writing. -/

namespace Sys2Proof.Machine

/-! ### Lengths -/

@[simp] theorem fieldBytes_length (n : Nat) : (fieldBytes n).length = 4 := rfl

@[simp] theorem countBytes_length (n : Nat) : (countBytes n).length = 4 := rfl

@[simp] theorem entryBytes_length (e : BpEntry) : (entryBytes e).length = 7 := rfl

@[simp] theorem fieldsBytes_length (ns : List Nat) : (fieldsBytes ns).length = 4 * ns.length := by
  induction ns with
  | nil => rfl
  | cons n ns ih => simp only [fieldsBytes, List.length_append, fieldBytes_length, ih, List.length_cons]; omega

@[simp] theorem entriesBytes_length (es : List BpEntry) : (entriesBytes es).length = 7 * es.length := by
  induction es with
  | nil => rfl
  | cons e es ih => simp only [entriesBytes, List.length_append, entryBytes_length, ih, List.length_cons]; omega

@[simp] theorem cellValues_length (m : Memory) (a n : Nat) : (cellValues m a n).length = n := by
  induction n generalizing a with
  | zero => rfl
  | succ n ih => simp [cellValues, ih]

theorem cellValues_get (m : Memory) (a n k : Nat) (h : k < n) :
    (cellValues m a n)[k]? = some (m.read (a + k)).toNat := by
  induction n generalizing a k with
  | zero => omega
  | succ n ih =>
    cases k with
    | zero => rfl
    | succ k =>
      simp only [cellValues, List.getElem?_cons_succ]
      rw [ih (a + 1) k (by omega)]
      rw [show a + 1 + k = a + (k + 1) by omega]

/-! ### Segments -/

theorem segment_right {bs cs : List Byte} {o n : Nat} (h : bs.length ≤ o) :
    segment (bs ++ cs) o n = segment cs (o - bs.length) n := by
  simp only [segment, List.drop_append, List.drop_eq_nil_of_le h, List.nil_append]

theorem segment_left {bs cs : List Byte} {o n : Nat} (h : o + n ≤ bs.length) :
    segment (bs ++ cs) o n = segment bs o n := by
  simp only [segment, List.drop_append]
  rw [List.take_append_of_le_length (by simp; omega)]

theorem segment_all {bs : List Byte} {n : Nat} (h : bs.length = n) : segment bs 0 n = bs := by
  simp [segment, ← h]

theorem segment_fieldsBytes (ns : List Nat) (j v : Nat) (h : ns[j]? = some v) :
    segment (fieldsBytes ns) (4 * j) 4 = fieldBytes v := by
  induction ns generalizing j with
  | nil => simp at h
  | cons n ns ih =>
    cases j with
    | zero =>
      simp only [List.getElem?_cons_zero, Option.some.injEq] at h
      subst h
      rw [fieldsBytes, segment_left (by simp), Nat.mul_zero, segment_all (fieldBytes_length _)]
    | succ j =>
      rw [fieldsBytes, segment_right (by rw [fieldBytes_length]; omega), fieldBytes_length,
        show 4 * (j + 1) - 4 = 4 * j by omega]
      exact ih j (by simpa using h)

theorem fieldBytes_numbers (n : Nat) : (fieldBytes n).map (·.toNat) = littleEndian n := by
  simp [fieldBytes, littleEndian]

theorem entryBytes_numbers (e : BpEntry) : (entryBytes e).map (·.toNat) =
    littleEndian e.addr ++ [flagByte e.exec, flagByte e.write, flagByte e.read] := by
  simp only [entryBytes, List.map_append, fieldBytes_numbers, List.map_cons, List.map_nil]
  cases e.exec <;> cases e.write <;> cases e.read <;> rfl

theorem segment_entriesBytes (es : List BpEntry) (j : Nat) (e : BpEntry) (h : es[j]? = some e) :
    segment (entriesBytes es) (7 * j) 7 = entryBytes e := by
  induction es generalizing j with
  | nil => simp at h
  | cons d es ih =>
    cases j with
    | zero =>
      simp only [List.getElem?_cons_zero, Option.some.injEq] at h
      subst h
      rw [entriesBytes, segment_left (by simp), Nat.mul_zero, segment_all (entryBytes_length _)]
    | succ j =>
      rw [entriesBytes, segment_right (by rw [entryBytes_length]; omega), entryBytes_length,
        show 7 * (j + 1) - 7 = 7 * j by omega]
      exact ih j (by simpa using h)

/-! ### Reading what was written -/

theorem takeField_fieldBytes {n bound : Nat} (h : n < 4294967296) (hb : n ≤ bound) (rest : List Byte) :
    takeField bound (fieldBytes n ++ rest) = some (n, rest) := by
  simp only [fieldBytes, List.cons_append, List.nil_append, takeField, BitVec.toNat_ofNat]
  have e : n % 2 ^ 8 + 256 * (n / 256 % 2 ^ 8) + 65536 * (n / 65536 % 2 ^ 8) +
      16777216 * (n / 16777216 % 2 ^ 8) = n := by omega
  rw [e, if_pos hb]

theorem takeFields_fieldsBytes {ns : List Nat} {bound : Nat} (hb : bound < 4294967296)
    (h : ∀ v ∈ ns, v ≤ bound) (rest : List Byte) :
    takeFields bound ns.length (fieldsBytes ns ++ rest) = some (ns, rest) := by
  induction ns with
  | nil => rfl
  | cons n ns ih =>
    have hn := h n (by simp)
    simp only [fieldsBytes, List.length_cons, takeFields, List.append_assoc]
    rw [takeField_fieldBytes (by omega) hn]
    simp only [ih fun v hv => h v (by simp [hv])]

theorem takeBool_boolByte (b : Bool) (rest : List Byte) : takeBool (boolByte b :: rest) = some (b, rest) := by
  cases b <;> rfl

theorem takeEntry_entryBytes {e : BpEntry} (h : e.addr ≤ Config.bpAddrMax)
    (ht : (e.exec || e.write || e.read) = true) (rest : List Byte) :
    takeEntry (entryBytes e ++ rest) = some (e, rest) := by
  simp only [entryBytes, takeEntry, List.append_assoc, List.cons_append, List.nil_append]
  rw [takeField_fieldBytes (by simp only [Config.bpAddrMax] at h; omega) h]
  simp only [takeBool_boolByte, ht, if_true]

theorem takeEntries_entriesBytes {es : List BpEntry} (h : BpTableWf es) (rest : List Byte) :
    takeEntries es.length (entriesBytes es ++ rest) = some (es, rest) := by
  induction es with
  | nil => rfl
  | cons e es ih =>
    obtain ⟨hp, he⟩ := h
    rw [List.pairwise_cons] at hp
    obtain ⟨ha, ht⟩ := he e (by simp)
    simp only [entriesBytes, List.length_cons, takeEntries, List.append_assoc]
    rw [takeEntry_entryBytes ha ht]
    simp only [ih ⟨hp.2, fun f hf => he f (by simp [hf])⟩]
    rw [if_neg]
    simp only [List.any_eq_true, decide_eq_true_eq, not_exists, not_and]
    exact fun f hf heq => hp.1 f hf heq.symm

theorem takeStack_countBytes {l : List Word} {cap : Option Nat} (hl : l.length < 4294967296) (hf : Fits cap l)
    (rest : List Byte) :
    takeStack cap (countBytes l.length ++ (fieldsBytes (l.map (·.toNat)) ++ rest)) =
      some (l.map (·.toNat), rest) := by
  have hw : ∀ v ∈ l.map (·.toNat), v ≤ Config.maxWord := by
    intro v hv
    obtain ⟨w, -, rfl⟩ := List.mem_map.mp hv
    have := w.isLt
    simp only [Config.maxWord]; omega
  have key := takeFields_fieldsBytes (by decide) hw rest
  rw [List.length_map] at key
  simp only [takeStack, countBytes, if_pos hl]
  rw [takeField_fieldBytes hl (by omega)]
  cases cap with
  | none => exact key
  | some c => simp only [if_pos (hf c rfl), key]

/-! ### Writing what was read -/

theorem takeField_eq {bound n : Nat} {bs rest : List Byte} (h : takeField bound bs = some (n, rest)) :
    n ≤ bound ∧ n < 4294967296 ∧ bs = fieldBytes n ++ rest := by
  unfold takeField at h
  split at h
  · rename_i b0 b1 b2 b3 r
    have h0 := b0.isLt; have h1 := b1.isLt; have h2 := b2.isLt; have h3 := b3.isLt
    simp only [Option.ite_none_right_eq_some, Option.some.injEq, Prod.mk.injEq] at h
    obtain ⟨hb, rfl, rfl⟩ := h
    refine ⟨hb, by omega, ?_⟩
    simp only [fieldBytes, List.cons_append, List.nil_append]
    congr 1
    · apply BitVec.eq_of_toNat_eq; simp only [BitVec.toNat_ofNat]; omega
    congr 1
    · apply BitVec.eq_of_toNat_eq; simp only [BitVec.toNat_ofNat]; omega
    congr 1
    · apply BitVec.eq_of_toNat_eq; simp only [BitVec.toNat_ofNat]; omega
    congr 1
    · apply BitVec.eq_of_toNat_eq; simp only [BitVec.toNat_ofNat]; omega
  · cases h

theorem takeFields_eq {bound k : Nat} {ns : List Nat} {bs rest : List Byte}
    (h : takeFields bound k bs = some (ns, rest)) :
    ns.length = k ∧ (∀ v ∈ ns, v ≤ bound) ∧ bs = fieldsBytes ns ++ rest := by
  induction k generalizing ns bs with
  | zero => simp only [takeFields, Option.some.injEq, Prod.mk.injEq] at h; obtain ⟨rfl, rfl⟩ := h; simp [fieldsBytes]
  | succ k ih =>
    simp only [takeFields] at h
    split at h
    · cases h
    · rename_i v bs1 h1
      split at h
      · cases h
      · rename_i vs bs2 h2
        cases h
        obtain ⟨hv, -, rfl⟩ := takeField_eq h1
        obtain ⟨hl, hb, rfl⟩ := ih h2
        refine ⟨by simp [hl], ?_, by simp [fieldsBytes]⟩
        intro w hw
        rcases List.mem_cons.mp hw with rfl | hw
        · exact hv
        · exact hb w hw

theorem takeBool_eq {b : Bool} {bs rest : List Byte} (h : takeBool bs = some (b, rest)) :
    bs = boolByte b :: rest := by
  unfold takeBool at h
  split at h
  · cases h
  · split at h
    · rename_i hb; cases h; simp [boolByte, hb]
    · split at h
      · rename_i hb; cases h; simp [boolByte, hb]
      · cases h

theorem takeEntry_eq {e : BpEntry} {bs rest : List Byte} (h : takeEntry bs = some (e, rest)) :
    e.addr ≤ Config.bpAddrMax ∧ (e.exec || e.write || e.read) = true ∧ bs = entryBytes e ++ rest := by
  unfold takeEntry at h
  split at h
  · cases h
  rename_i h0
  split at h
  · cases h
  rename_i h1
  split at h
  · cases h
  rename_i h2
  split at h
  · cases h
  rename_i h3
  split at h
  · rename_i ht
    cases h
    obtain ⟨ha, -, rfl⟩ := takeField_eq h0
    rw [takeBool_eq h1, takeBool_eq h2, takeBool_eq h3]
    exact ⟨ha, ht, by simp [entryBytes]⟩
  · cases h

theorem takeEntries_eq {k : Nat} {es : List BpEntry} {bs rest : List Byte}
    (h : takeEntries k bs = some (es, rest)) :
    es.length = k ∧ BpTableWf es ∧ bs = entriesBytes es ++ rest := by
  induction k generalizing es bs with
  | zero =>
    simp only [takeEntries, Option.some.injEq, Prod.mk.injEq] at h
    obtain ⟨rfl, rfl⟩ := h
    exact ⟨rfl, ⟨List.Pairwise.nil, by simp⟩, rfl⟩
  | succ k ih =>
    simp only [takeEntries] at h
    split at h
    · cases h
    rename_i e bs1 h1
    split at h
    · cases h
    rename_i es' bs2 h2
    split at h
    · cases h
    rename_i hne
    cases h
    obtain ⟨ha, ht, rfl⟩ := takeEntry_eq h1
    obtain ⟨hl, hw, rfl⟩ := ih h2
    refine ⟨by simp [hl], ⟨List.pairwise_cons.mpr ⟨?_, hw.1⟩, ?_⟩, by simp [entriesBytes]⟩
    · intro f hf heq
      exact hne (List.any_eq_true.mpr ⟨f, hf, by simp [heq]⟩)
    · intro f hf
      rcases List.mem_cons.mp hf with rfl | hf
      · exact ⟨ha, ht⟩
      · exact hw.2 f hf

theorem takeStack_eq {cap : Option Nat} {ns : List Nat} {bs rest : List Byte}
    (h : takeStack cap bs = some (ns, rest)) :
    (∀ c, cap = some c → ns.length ≤ c) ∧ (∀ v ∈ ns, v ≤ 32767) ∧ ns.length < 4294967296 ∧
    bs = countBytes ns.length ++ (fieldsBytes ns ++ rest) := by
  unfold takeStack at h
  split at h
  · cases h
  rename_i m bs1 h1
  obtain ⟨-, hm, rfl⟩ := takeField_eq h1
  have key : takeFields Config.maxWord m bs1 = some (ns, rest) → (∀ c, cap = some c → m ≤ c) →
      (∀ c, cap = some c → ns.length ≤ c) ∧ (∀ v ∈ ns, v ≤ 32767) ∧ ns.length < 4294967296 ∧
      fieldBytes m ++ bs1 = countBytes ns.length ++ (fieldsBytes ns ++ rest) := by
    intro h hc
    obtain ⟨hl, hb, rfl⟩ := takeFields_eq h
    subst hl
    exact ⟨hc, hb, hm, by rw [countBytes, if_pos hm]⟩
  split at h
  · exact key h fun c hc => by cases hc
  · split at h
    · rename_i c hle
      exact key h fun c' hc => by cases hc; exact hle
    · cases h

/-! ### A restored memory is in canonical form -/

theorem parse_cells_length {p : Config.Params} {bs : List Byte} {n : Snapshot} (h : parseSnapshot p bs = some n) :
    n.cells.length = Config.memWords := by
  unfold parseSnapshot at h
  split at h
  · cases h
  rename_i h1
  repeat' split at h
  all_goals cases h
  exact (takeFields_eq h1).1

/-- A stream that is accepted is longer than its memory part (47 R302). -/
theorem parse_length {p : Config.Params} {bs : List Byte} {n : Snapshot} (h : parseSnapshot p bs = some n) :
    131072 ≤ bs.length := by
  unfold parseSnapshot at h
  split at h
  · cases h
  rename_i cells rest h1
  obtain ⟨hl, -, rfl⟩ := takeFields_eq h1
  rw [List.length_append, fieldsBytes_length, hl]
  simp only [Config.memWords]; omega

theorem loadState_wf (bs : List Byte) {s : State} (h : s.mem.wf) : (loadState bs s).mem.wf := by
  unfold loadState
  split
  · exact h
  · rename_i n hn
    have key : (installSnapshot n s).mem.wf := by
      have hl := parse_cells_length hn
      simpa [installSnapshot] using ofCells_wf 0 (n.cells.map (BitVec.ofNat 16 ·)) (by simp [hl])
    cases hd : decodeHere (installSnapshot n s) <;> unfold decodeHere at hd <;> split at hd <;> cases hd <;>
      simpa using key

theorem loadState_ok {bs : List Byte} {n : Snapshot} {d : Decoded} {s : State}
    (h : parseSnapshot s.params bs = some n)
    (hd : decodeAt (installSnapshot n s).mem (installSnapshot n s).pc = some d) :
    (loadState bs s).response = some .ok := by
  simp only [loadState, h, decodeHere, hd]

/-! ### The stream of a state -/

/-- A well-formed table has at most one entry for each legal address (47 R305 item 5). -/
theorem bpTable_length {bt : List BpEntry} (h : BpTableWf bt) : bt.length ≤ 32776 := by
  have hn : (bt.map (·.addr)).Nodup := by
    rw [List.Nodup, List.pairwise_map]
    exact h.1
  have hs : (bt.map (·.addr)) ⊆ List.range 32776 := by
    intro a ha
    obtain ⟨e, he, rfl⟩ := List.mem_map.mp ha
    have := (h.2 e he).1
    simp only [Config.bpAddrMax] at this
    exact List.mem_range.mpr (by omega)
  have := (List.subperm_of_subset hn hs).length_le
  simpa using this

theorem cellValues_le (m : Memory) (a n : Nat) : ∀ v ∈ cellValues m a n, v ≤ 65535 := by
  induction n generalizing a with
  | zero => simp [cellValues]
  | succ n ih =>
    intro v hv
    rcases List.mem_cons.mp hv with rfl | hv
    · have := (m.read a).isLt
      omega
    · exact ih (a + 1) v hv

/-- What the fields of a state's stream hold. -/
def snapshotOf (s : State) : Snapshot :=
  { cells := cellValues s.mem 0 Config.memWords
    regs := s.regs.toList.map (·.toNat)
    pc := s.pc.toNat
    bt := s.bt
    os := s.os.map (·.toNat)
    cs := s.cs.map (·.toNat) }

theorem snapshotOf_eq_heldBy (s : State) : snapshotOf s = heldBy s := by
  have h : cellValues s.mem 0 32768 = (List.range 32768).map fun a => (s.mem.read a).toNat := by
    refine List.ext_getElem? fun k => ?_
    by_cases hk : k < 32768
    · rw [cellValues_get _ _ _ _ hk]
      simp [hk]
    · rw [List.getElem?_eq_none (by simp; omega), List.getElem?_eq_none (by simp; omega)]
  simp only [snapshotOf, heldBy, Config.memWords, h]

theorem parse_snapshotBytes {s : State} {p : Config.Params} (hb : BpTableWf s.bt) (ho : Fits p.osCapacity s.os)
    (hc : Fits p.csCapacity s.cs) (lo : s.os.length < 4294967296) (lc : s.cs.length < 4294967296) :
    parseSnapshot p (snapshotBytes s) = some (snapshotOf s) := by
  unfold parseSnapshot
  simp only [snapshotBytes, List.append_assoc]
  have h1 := takeFields_fieldsBytes (ns := cellValues s.mem 0 Config.memWords) (bound := 65535) (by decide)
    (cellValues_le _ _ _)
  rw [cellValues_length] at h1
  rw [h1]
  dsimp only
  have h2 := takeFields_fieldsBytes (ns := s.regs.toList.map (·.toNat)) (bound := Config.maxWord) (by decide) (by
    intro v hv
    obtain ⟨w, -, rfl⟩ := List.mem_map.mp hv
    have := w.isLt
    simp only [Config.maxWord]; omega)
  rw [show (s.regs.toList.map (·.toNat)).length = 8 by simp] at h2
  rw [h2]
  dsimp only
  have hpc := s.pc.isLt
  have hn := bpTable_length hb
  rw [takeField_fieldBytes (by omega) (by simp only [Config.maxWord]; omega)]
  dsimp only
  rw [countBytes, if_pos (by omega), takeField_fieldBytes (by omega) (by omega)]
  dsimp only
  rw [takeEntries_entriesBytes hb]
  dsimp only
  rw [takeStack_countBytes lo ho]
  dsimp only
  have h3 := takeStack_countBytes lc hc []
  rw [List.append_nil] at h3
  rw [h3]
  rfl

theorem read_outside {m : Memory} (h : m.wf) {a : Nat} (ha : ¬ a < Config.memWords) : m.read a = 0#16 := by
  induction m with
  | nil => rfl
  | cons c m ih =>
    obtain ⟨k, v⟩ := c
    have hk := (h.2 (k, v) (by simp)).1
    have : k ≠ a := by
      rintro rfl
      exact ha hk
    simp only [Memory.read, if_neg this]
    exact ih ⟨(List.pairwise_cons.mp h.1).2, fun c hc => h.2 c (List.mem_cons_of_mem _ hc)⟩

/-- The cells of a stream give the memory back. -/
theorem ofCells_cellValues {m : Memory} (h : m.wf) :
    Memory.ofCells 0 ((cellValues m 0 Config.memWords).map (BitVec.ofNat 16 ·)) = m := by
  refine eq_of_read_eq (ofCells_wf _ _ (by simp)) h fun a => ?_
  rw [read_ofCells, if_pos (Nat.zero_le _), Nat.sub_zero, List.getD_eq_getElem?_getD, List.getElem?_map]
  by_cases ha : a < Config.memWords
  · rw [cellValues_get _ _ _ _ ha]
    simp
  · rw [List.getElem?_eq_none (by simpa using ha), read_outside h ha]
    rfl

@[simp] theorem ofNat_toNat_words (l : List Word) : (l.map (·.toNat)).map (BitVec.ofNat 15 ·) = l := by
  rw [List.map_map]
  conv => rhs; rw [← List.map_id l]
  exact List.map_congr_left fun w _ => by simp

@[simp] theorem regFile_toNat (v : Vector Word 8) : regFile (v.toList.map (·.toNat)) = v := by
  ext i hi
  have : i = 0 ∨ i = 1 ∨ i = 2 ∨ i = 3 ∨ i = 4 ∨ i = 5 ∨ i = 6 ∨ i = 7 := by omega
  rcases this with rfl | rfl | rfl | rfl | rfl | rfl | rfl | rfl <;> simp [regFile]

theorem installSnapshot_mem {s t : State} (h : s.mem.wf) : (installSnapshot (snapshotOf s) t).mem = s.mem := by
  simp only [installSnapshot, emit_mem, snapshotOf]
  exact ofCells_cellValues h

theorem installSnapshot_pc (s t : State) : (installSnapshot (snapshotOf s) t).pc = s.pc := by
  simp [installSnapshot, snapshotOf]

end Sys2Proof.Machine
end

