-- ==== Sys2Proof/Tests/Slice0.lean ====
section
/-! SUPPORT. The smoke test of the checks, the decoding of words written out from the spec's table, one-step tests
with the results of spec/95, and for every statement with hypotheses a state and operands that meet them. -/

namespace Sys2Proof.Tests

open Sys2Proof Sys2Proof.Machine

/-! ### The checks refuse ill-formed terms -/

theorem test_wf_operand : (Operand.bad 5).wf = false ∧ (Operand.bad 32775).wf = false ∧
    (Operand.bad 32776).wf = true ∧ (Operand.lit 32767).wf = true ∧ (Operand.reg 7).wf = true := by decide

theorem test_wf_instr : (Instr.add (.reg 0) (.lit 1) (.bad 5)).wf = false ∧
    (Instr.add (.bad 5) (.lit 1) (.reg 0)).wf = false ∧ (Instr.push (.bad 40000)).wf = true := by decide

theorem test_wf_body : (Body.unknown 3).wf = false ∧ (Body.unknown 21).wf = false ∧ (Body.unknown 22).wf = true ∧
    (Body.instr (.out (.bad 1))).wf = false := by decide

/-! ### Decoding: the words are written out from 30 R103 and R104 -/

theorem test_decode_control :
    decodeWords [0, 7] = .instr .halt [7] ∧
    decodeWords [6, 5] = .instr (.jmp (.lit 5)) [] ∧
    decodeWords [7, 32768, 32775] = .instr (.jt (.reg 0) (.reg 7)) [] ∧
    decodeWords [8, 32769, 32767] = .instr (.jf (.reg 1) (.lit 32767)) [] ∧
    decodeWords [17, 10] = .instr (.call (.lit 10)) [] ∧
    decodeWords [18] = .instr .ret [] ∧
    decodeWords [21] = .instr .noop [] := by decide

theorem test_decode_transfer :
    decodeWords [1, 32769, 5] = .instr (.set (.reg 1) (.lit 5)) [] ∧
    decodeWords [2, 31337] = .instr (.push (.lit 31337)) [] ∧
    decodeWords [3, 501] = .instr (.pop (.lit 501)) [] ∧
    decodeWords [15, 32769, 32768] = .instr (.rmem (.reg 1) (.reg 0)) [] ∧
    decodeWords [16, 1, 67] = .instr (.wmem (.lit 1) (.lit 67)) [] := by decide

theorem test_decode_arith :
    decodeWords [4, 500, 32775, 1] = .instr (.eq (.lit 500) (.reg 7) (.lit 1)) [] ∧
    decodeWords [5, 32775, 32774, 766] = .instr (.gt (.reg 7) (.reg 6) (.lit 766)) [] ∧
    decodeWords [9, 32768, 32769, 4] = .instr (.add (.reg 0) (.reg 1) (.lit 4)) [] ∧
    decodeWords [10, 32770, 300, 200] = .instr (.mult (.reg 2) (.lit 300) (.lit 200)) [] ∧
    decodeWords [11, 32774, 32773, 1000] = .instr (.mod (.reg 6) (.reg 5) (.lit 1000)) [] ∧
    decodeWords [12, 32772, 32770, 32771] = .instr (.and (.reg 4) (.reg 2) (.reg 3)) [] ∧
    decodeWords [13, 32773, 32770, 32771] = .instr (.or (.reg 5) (.reg 2) (.reg 3)) [] ∧
    decodeWords [14, 32771, 32770] = .instr (.not (.reg 3) (.reg 2)) [] := by decide

theorem test_decode_io :
    decodeWords [19, 32776] = .instr (.out (.bad 32776)) [] ∧
    decodeWords [20, 100] = .instr (.input (.lit 100)) [] := by decide

/-- 40 R142, R143; vectors DEC2 to DEC4, DEC9. -/
theorem test_decode_rejects :
    decodeWords [22] = .unknown 22 [] ∧ decodeWords [65535] = .unknown 65535 [] ∧
    decodeWords [32768, 1] = .unknown 32768 [1] ∧ decodeWords [9, 1, 2] = .truncated ∧
    decodeTableWord 16 9 = some (.add (.lit 0) (.lit 0) (.lit 0)) ∧
    decodeTableWord 32 (2 + 65536 * 32775) = some (.push (.reg 7)) ∧ decodeTableWord 16 22 = none := by decide

/-- Vectors DEC1, DEC3, DEC5, DEC6, DEC11. -/
theorem test_text :
    (Instr.add (.reg 0) (.reg 1) (.lit 4)).text = "add R0, R1, 0004" ∧ (Body.unknown 65535).text = "FFFF" ∧
    (Instr.out (.bad 32776)).text = "out 8008" ∧ (Instr.jt (.reg 0) (.reg 7)).text = "jt R0, R7" ∧
    Instr.ret.text = "ret" := by decide

/-- Vector DEC7: the destination of `set` has the open text. -/
theorem test_text_set : (Instr.set (.lit 5) (.reg 0)).text =
    "set" ++ " " ++ (Config.setBadDestText 5 ++ ", " ++ String.ofList ['R', '0']) := rfl

/-! ### One step each -/

/-- The state that load gives for an image, without the notifications of load, and a step-into issued. -/
def image (ws : List Raw) : State :=
  { load ws State.reset with notes := [], response := none, pending := [.stepInto] }

/-- The state with those values in R0 and R1. -/
def withR (x y : Word) (s : State) : State := { s with regs := (s.regs.set 0 x).set 1 y }

/-- One step, and a look at the state it gives. -/
def after {α : Type} (s : State) (look : State → α) : Option α :=
  match step s with
  | .next t => some (look t)
  | .fault _ => none
  | .refused _ => none

/-- The response, PC and STATUS. -/
def ends (t : State) : Option Response × Nat × Nat := (t.response, t.pc.toNat, t.statusWord.toNat)

/-- CTL1. -/
theorem test_halt : after (image [0]) ends = some (some (.step .halted), 1, 0x0007) := by decide

/-- CTL2, CTL3. -/
theorem test_jmp : after (image [6, 5, 0, 0, 0, 0]) ends = some (some (.step .continue), 5, 2) ∧
    after (withR 7 0 (image [6, 32768])) ends = some (some (.step .continue), 7, 2) := by decide

/-- CTL4, CTL5. -/
theorem test_jt : after (image [7, 0, 40000, 0]) ends = some (some (.step .continue), 3, 2) ∧
    after (image [7, 1, 40000]) ends = some (some (.step .fault), 3, 0x0417) := by decide

/-- CTL6, CTL7. -/
theorem test_jf : after (image [8, 0, 5, 0, 0, 0]) ends = some (some (.step .continue), 5, 2) ∧
    after (withR 1 0 (image [8, 32768, 5, 0])) ends = some (some (.step .continue), 3, 2) := by decide

/-- W2, step 1. -/
theorem test_call : after (image [17, 4, 0, 0, 18]) (fun t => (t.os, t.cs, t.depth, t.pc.toNat)) =
    some ([2], [2], 1, 4) := by decide

/-- CTL13. -/
theorem test_call_bad : after (image [17, 32776]) (fun t => (ends t, t.os, t.cs)) =
    some ((some (.step .fault), 2, 0x0417), [], []) := by decide

/-- W2, step 2: the two stacks need not agree, and the target comes from the operand stack. -/
theorem test_ret : after { image [18] with os := [9, 2], cs := [5] } (fun t => (t.os, t.cs, t.depth, t.pc.toNat)) =
    some ([9], [], -1, 2) := by decide

/-- CTL9, CTL10. -/
theorem test_ret_faults : after (image [18]) ends = some (some (.step .fault), 1, 0x0217) ∧
    after { image [18] with os := [7] } (fun t => (ends t, t.os)) =
      some ((some (.step .fault), 1, 0x0917), [7]) := by decide

/-- CTL12. -/
theorem test_noop : after (image [21, 0]) ends = some (some (.step .continue), 1, 2) := by decide

/-- DT2. -/
theorem test_set : after (withR 9 0 (image [1, 32775, 32768])) (fun t => (t.regs[7], t.regs[0])) =
    some (9, 9) := by decide

/-- DT3, DT5. -/
theorem test_set_faults : after (image [1, 5, 7]) (fun t => (ends t, t.mem.read 5)) =
      some ((some (.step .fault), 3, 0x0517), 0) ∧
    after (image [1, 32768, 40000]) ends = some (some (.step .fault), 3, 0x0417) := by decide

/-- DT6, and the capacity of 60 R412. -/
theorem test_push : after (withR 42 0 (image [2, 32768])) (fun t => t.os) = some [42] ∧
    after { image [2, 5] with os := [1], params := { Config.Params.default with osCapacity := some 1 } }
      (fun t => (ends t, t.os)) = some ((some (.step .fault), 2, 0x0A17), [1]) := by decide

/-- DT9, DT8. -/
theorem test_pop : after { image [3, 100] with os := [8, 9] } (fun t => (t.mem.read 100, t.os)) = some (9, [8]) ∧
    after { image [3, 40000] with os := [5] } (fun t => (ends t, t.os)) =
      some ((some (.step .fault), 2, 0x0417), []) := by decide

/-- W3. -/
theorem test_pop_underflow : after (image [3, 32768]) (fun t => (ends t, t.regs[0])) =
    some ((some (.step .fault), 2, 0x0217), 0) := by decide

/-- DT10, DT11. -/
theorem test_rmem : after (withR 4 0 (image [15, 32769, 32768, 0, 1234])) (fun t => t.regs[1]) = some 1234 ∧
    after (image [15, 32768, 1]) (fun t => (ends t, t.regs[0])) =
      some ((some (.step .fault), 3, 0x0817), 0) := by decide

/-- DT13, DT14: the instruction that is written over while it executes. -/
theorem test_wmem : after (withR 100 0 (image [16, 32768, 5, 0])) (fun t => (t.mem.read 100, t.regs[0])) =
      some (5, 100) ∧
    after (image [16, 1, 99, 0]) (fun t => (t.mem.read 1, t.ic.map (·.pos))) = some (99, [3]) := by decide

/-- DT15. -/
theorem test_wmem_bad : after (image [16, 100, 40000]) (fun t => (ends t, t.mem.read 100)) =
    some ((some (.step .fault), 3, 0x0417), 0) := by decide

/-- R0 after `op R0, x, y`. -/
def alu (op x y : Raw) : Option Nat := after (image [op, 32768, x, y]) fun t => (t.regs[0]).toNat

/-- ALU1, ALU2; ALU3 to ALU5. -/
theorem test_eq_gt : alu 4 1 1 = some 1 ∧ alu 4 0 32767 = some 0 ∧ alu 5 0 32767 = some 0 ∧
    alu 5 32767 0 = some 1 ∧ alu 5 5 5 = some 0 := by decide

/-- ALU6, ALU7; ALU9 to ALU11. -/
theorem test_add_mult : alu 9 32767 1 = some 0 ∧ alu 9 32767 32767 = some 32766 ∧ alu 10 32767 32767 = some 1 ∧
    alu 10 256 128 = some 0 ∧ alu 10 300 200 = some 27232 := by decide

/-- ALU8: the destination is also both sources. -/
theorem test_add_same : after (withR 20000 0 (image [9, 32768, 32768, 32768])) (fun t => (t.regs[0]).toNat) =
    some 7232 := by decide

/-- ALU12, ALU13, ALU15. -/
theorem test_mod : alu 11 7 3 = some 1 ∧ alu 11 5 7 = some 5 ∧
    after (image [11, 40000, 5, 0]) ends = some (some (.step .fault), 4, 0x0317) := by decide

/-- ALU16 to ALU18. -/
theorem test_and_or : alu 12 0x5555 0x2AAA = some 0 ∧ alu 12 32767 12345 = some 12345 ∧
    alu 13 0x5555 0x2AAA = some 32767 := by decide

/-- ALU19, ALU21. -/
theorem test_not : after (image [14, 32768, 0]) (fun t => (t.regs[0]).toNat) = some 32767 ∧
    after (image [14, 32768, 0x5555]) (fun t => (t.regs[0]).toNat) = some 10922 := by decide

/-- ALU22, ALU23. -/
theorem test_destination : after (image [9, 100, 1, 2]) (fun t => (t.mem.read 100, t.regs[0])) = some (3, 0) ∧
    after (image [9, 40000, 1, 2]) ends = some (some (.step .fault), 4, 0x0417) := by decide

/-- IO2, FLT3. -/
theorem test_out : after (withR 300 0 (image [19, 32768])) (fun t => t.output) = some [300] ∧
    after (image [19, 32776]) (fun t => (ends t, t.output)) =
      some ((some (.step .fault), 2, 0x0417), []) := by decide

/-- IO5, IO6. -/
theorem test_in : after { image [20, 32768, 0] with input := [13, 13] } (fun t => (t.regs[0], t.input)) =
      some (13, []) ∧
    after { image [20, 32768] with input := [40000] } (fun t => (ends t, t.regs[0])) =
      some ((some (.step .fault), 2, 0x0817), 0) := by decide

/-- IO7, IO8. -/
theorem test_in_holds : after { image [20, 40000] with input := [65] } (fun t => (ends t, t.input)) =
      some ((some (.step .fault), 2, 0x0417), []) ∧
    after (image [20, 32768]) (fun t => (t.response, t.hold.isSome)) = some (none, true) := by decide

/-- BP5: a read breakpoint on R0 pauses after the step, and the value is unaffected. -/
theorem test_bp_read : after { image [19, 32768, 0] with bt := [⟨32768, false, false, true⟩] }
    (fun t => (ends t, t.output)) = some ((some (.step .paused), 2, 2), [0]) := by decide

/-- FLT1, and the range faults of 60 R402 and R408 at the end of memory. -/
theorem test_range_faults : after (image [22]) ends = some (some (.step .fault), 1, 0x0617) ∧
    after { image [0] with pc := 32767 } ends = some (some (.step .fault), 32767, 0x0117) ∧
    after { image [0] with pc := 32767, mem := [(32767, 9)] } ends =
      some (some (.step .fault), 32767, 0x0717) := by decide

/-- BP1 to BP4. -/
theorem test_toggle : (toggle 100 true false false State.reset).bt = [⟨100, true, false, false⟩] ∧
    (toggle 100 false true false (toggle 100 true false false State.reset)).bt = [] ∧
    (toggle 200 false false false State.reset).response = some .disabled ∧
    (toggle 32776 true false false State.reset).response = some .rejected := by decide

/-- FLT8, ENG5. -/
theorem test_commands : after { State.powerOn with pending := [.stepInto] } (fun t => t.response) =
      some (some .notLoaded) ∧
    after { stop (image [0]) with pending := [.stepInto] } ends =
      some (some (.step .notAdvanced), 0, 0x0007) := by decide

/-- ENG3 and the start of ENG2: a step-over of a `set` and of a `call`. -/
theorem test_step_over : after { image [1, 32769, 5] with pending := [.stepOver] } ends =
      some (some (.step .continue), 3, 2) ∧
    after { image [17, 10] with pending := [.stepOver] } (fun t => (t.response, t.flight, t.depth, t.pc)) =
      some (none, .over, 1, 10) := by decide

/-- 42 R181, 60 R427: a machine on which nothing is in flight or issued stays as it is; a run that has been issued
starts, and its first step is the next. -/
theorem test_idle : step State.reset = .next State.reset ∧
    step { State.reset with pending := [.run] } = .next (startRun State.reset) ∧
    after (startRun (image [21, 0])) (fun t => (t.response, t.flight, t.pc)) = some (none, .run, 1) :=
  ⟨rfl, rfl, by decide⟩

/-- An instruction placed by `withFetchWord` is the one the next step runs. -/
theorem test_withFetchWord : after (State.reset.withFetchWord 48 (6 + 65536 * 9)) (fun t => t.pc.toNat) = some 9 ∧
    after (State.reset.withFetchWord 16 19) (fun t => t.output) = some [0] := by decide

/-! ### Witnesses: each shows hypotheses of a statement met, clause by clause -/

/-- An `out 0042` at 0 that is not yet in the cache. -/
def outAt0 : State := { State.reset with mem := [(0, 19), (1, 66)], ic := [] }

theorem fits_none (l : List Word) : Fits none l := nofun

theorem witness_DecodeOfEncode : (Instr.add (.reg 7) (.lit 32767) (.bad 32776)).wf = true := by decide

theorem witness_EncodeOfDecode :
    decodeWords [1, 5, 32775, 9] = .instr (.set (.lit 5) (.reg 7)) [9] := by decide

/-- The ends of the three ranges of 30 R104. -/
theorem witness_OperandClasses :
    (32767 : Raw).toNat ≤ 32767 ∧ (32768 ≤ (32768 : Raw).toNat ∧ (32768 : Raw).toNat ≤ 32775) ∧
    (32768 ≤ (32775 : Raw).toNat ∧ (32775 : Raw).toNat ≤ 32775) ∧ 32776 ≤ (32776 : Raw).toNat ∧
    32776 ≤ (65535 : Raw).toNat := by decide

/-- DEC2, DEC9, DEC10: the least word that is no opcode, and the last positions of a `push`. -/
theorem witness_DecodeAtPosition :
    21 < (Memory.read [(7, 22)] (7 : Word).toNat).toNat ∧
    ((Memory.read [(32767, 2)] (32767 : Word).toNat).toNat ≤ 21 ∧
      32767 < (32767 : Word).toNat + arity (Memory.read [(32767, 2)] (32767 : Word).toNat).toNat) ∧
    ((Memory.read [(32766, 2)] (32766 : Word).toNat).toNat ≤ 21 ∧
      (32766 : Word).toNat + arity (Memory.read [(32766, 2)] (32766 : Word).toNat).toNat ≤ 32767) := by decide

/-- Two memories that differ just past the span. -/
theorem witness_DecodeReadsItsSpan :
    decodeAt [(3, 19), (4, 66)] 3 = some { pos := 3, body := .instr (.out (.lit 66)) } ∧
    ∀ k, k < ({ pos := 3, body := .instr (.out (.lit 66)) } : Decoded).span →
      Memory.read [(3, 19), (4, 66), (5, 1)] ((3 : Word).toNat + k) =
        Memory.read [(3, 19), (4, 66)] ((3 : Word).toNat + k) := by decide

theorem witness_TextOfInstruction : (Instr.set (.bad 40000) (.reg 0)).wf = true := by decide

/-- 40 R142, vector DEC3: leading zeros are kept, and letters are in upper case. -/
theorem test_fourDigits : fourDigits 22 = "0016" ∧ fourDigits 65535 = "FFFF" ∧ fourDigits 0x1A2B = "1A2B" := by decide

theorem witness_MemoryReadsLastWrite : (32766 : Nat) ≠ 32767 ∧ Memory.wf [(5, 7), (32766, 1)] ∧
    (32767 : Nat) < Config.memWords := by decide

/-- An entry at the greatest legal address. -/
def bpLast : List BpEntry := [⟨32775, true, false, false⟩]

theorem witness_ToggleCases :
    (32775 : Nat) < 32776 ∧
    ((32775 : Nat) ≤ 32775 ∧ ∃ e ∈ ({ State.reset with bt := bpLast } : State).bt, e.addr = 32775) ∧
    ((32775 : Nat) ≤ 32775 ∧ (∀ e ∈ State.reset.bt, e.addr ≠ 32775) ∧ (false || false || false) = false) ∧
    ((32775 : Nat) ≤ 32775 ∧ (∀ e ∈ State.reset.bt, e.addr ≠ 32775) ∧ (false || false || true) = true) := by
  decide

theorem witness_FaultActions :
    (raiseFault .modZero { State.reset with flight := .run }).stepResult = some .fault ∧
    (raiseFault .modZero { State.reset with flight := .run }).flight ≠ .idle := by decide

theorem witness_StatusWordFields :
    (EngineState.halted, 3) ∈ [(EngineState.ready, 0), (.running, 1), (.paused, 2), (.halted, 3)] ∧
    ({ State.reset with es := .halted } : State).es = .halted ∧
    (raiseFault .stackOverflow State.reset).faultCause = .stackOverflow ∧
    (List.replicate 32768 (9 : Raw)).length ≤ 32768 ∧
    (loadState (snapshotBytes outAt0) State.reset).response = some .ok := by
  refine ⟨by decide, rfl, rfl, by rw [List.length_replicate], ?_⟩
  exact loadState_ok (parse_snapshotBytes (by decide) (fits_none _) (fits_none _) (by decide) (by decide))
    (d := ⟨0, .instr (.out (.lit 66))⟩) (by rw [installSnapshot_mem (by decide), installSnapshot_pc]; decide)

theorem witness_LoadEffect : 32768 < (List.replicate 32769 (0 : Raw)).length ∧
    (List.replicate 32768 (9 : Raw)).length ≤ 32768 := by
  rw [List.length_replicate, List.length_replicate]
  omega

theorem witness_NotLoadedRefused : State.powerOn.loaded = false ∧ (∀ image, Command.save ≠ .load image) ∧
    ∀ bs, Command.save ≠ .loadState bs := ⟨rfl, nofun, nofun⟩

theorem isPlace_reg (r : Fin 8) : IsPlace (.reg r) := nofun

theorem isPlace_lit (w : Word) : IsPlace (.lit w) := nofun

theorem not_isPlace_bad (v : Raw) : ¬ IsPlace (.bad v) := fun h => h v rfl

/-- Each clause, with a register and with a cell as the destination, and with an invalid first or second source. -/
theorem witness_BinaryInstructions :
    (Instr.gt, fun x y => if y < x then 1 else 0) ∈ binaryRules ∧
    (valueOf (.reg 0) (withR 20000 0 State.reset) = some 20000 ∧ valueOf (.lit 32767) State.reset = some 32767 ∧
      IsPlace (.reg 0) ∧ IsPlace (.lit 32767)) ∧
    ¬ IsPlace (.bad 40000) ∧ valueOf (.bad 40000) State.reset = none := by
  refine ⟨?_, ⟨by decide, by decide, isPlace_reg 0, isPlace_lit _⟩, not_isPlace_bad _, rfl⟩
  simp [binaryRules]

/-- A divisor that is not 0 and one that is. -/
theorem witness_ModInstruction :
    (valueOf (.lit 5) State.reset = some 5 ∧ valueOf (.lit 1) State.reset = some 1 ∧ (1 : Word) ≠ 0 ∧
      IsPlace (.reg 0)) ∧
    (valueOf (.lit 5) State.reset = some 5 ∧ valueOf (.reg 3) State.reset = some 0) ∧
    ¬ IsPlace (.bad 32776) ∧ valueOf (.bad 32776) State.reset = none :=
  ⟨⟨rfl, rfl, by decide, isPlace_reg 0⟩, ⟨rfl, by decide⟩, not_isPlace_bad _, rfl⟩

theorem witness_NotInstruction :
    (valueOf (.lit 0x5555) State.reset = some 0x5555 ∧ IsPlace (.lit 100)) ∧ ¬ IsPlace (.bad 65535) ∧
    valueOf (.bad 65535) State.reset = none := ⟨⟨rfl, isPlace_lit _⟩, not_isPlace_bad _, rfl⟩

theorem witness_SetInstruction :
    (valueOf (.lit 7) State.reset = some 7 ∧ Operand.reg 7 = .reg 7) ∧
    (valueOf (.lit 7) State.reset = some 7 ∧ ∀ r, Operand.lit 5 ≠ .reg r) ∧
    (valueOf (.lit 7) State.reset = some 7 ∧ ∀ r, Operand.bad 40000 ≠ .reg r) ∧
    valueOf (.bad 40000) State.reset = none := ⟨⟨rfl, rfl⟩, ⟨rfl, nofun⟩, ⟨rfl, nofun⟩, rfl⟩

/-- A machine whose stacks hold at most one word, with that word on the operand stack. -/
def full : State := { State.reset with os := [1], params := { Config.Params.default with osCapacity := some 1 } }

theorem witness_PushInstruction :
    (valueOf (.lit 7) { full with os := [] } = some 7 ∧
      full.params.osCapacity ≠ some ({ full with os := [] } : State).os.length) ∧
    (valueOf (.lit 7) full = some 7 ∧ full.params.osCapacity = some full.os.length) ∧
    valueOf (.bad 40000) full = none := by decide

theorem witness_PopInstruction :
    State.reset.os = [] ∧ (({ State.reset with os := [8, 9] } : State).os = [8] ++ [9] ∧ IsPlace (.lit 100)) ∧
    ¬ IsPlace (.bad 40000) := ⟨rfl, ⟨rfl, isPlace_lit _⟩, not_isPlace_bad _⟩

/-- DT10, DT11: the greatest cell that is a word and the least that is none. -/
theorem witness_RmemInstruction :
    valueOf (.bad 40000) State.reset = none ∧ valueOf (.lit 1) State.reset = some 1 ∧
    32767 < (({ State.reset with mem := [(1, 32768)] } : State).mem.read (1 : Word).toNat).toNat ∧
    ((({ State.reset with mem := [(1, 32767)] } : State).mem.read (1 : Word).toNat).toNat ≤ 32767 ∧
      IsPlace (.reg 0)) ∧
    ¬ IsPlace (.bad 40000) := ⟨rfl, rfl, by decide, ⟨by decide, isPlace_reg 0⟩, not_isPlace_bad _⟩

theorem witness_WmemInstruction :
    (valueOf (.reg 0) (withR 32767 0 State.reset) = some 32767 ∧ valueOf (.lit 5) State.reset = some 5) ∧
    valueOf (.bad 40000) State.reset = none := by decide

theorem witness_HaltInstruction :
    ({ State.reset with halted := true, flight := .single } : State).stepResult = none ∧
    ({ State.reset with halted := true, flight := .single } : State).hold = none ∧
    ({ State.reset with halted := true, flight := .single } : State).halted = true ∧
    decodeAt State.reset.mem State.reset.pc = some { pos := 0, body := .instr .halt } ∧
    ({ State.reset with halted := true, flight := .single } : State).flight ≠ .idle := by decide

theorem witness_JmpAndNoop : valueOf (.reg 0) (withR 7 0 State.reset) = some 7 ∧
    valueOf (.bad 40000) State.reset = none := by decide

/-- CTL4, CTL5: both branches, taken and not taken, with an invalid target. -/
theorem witness_BranchInstructions :
    (Instr.jt, fun n : Nat => n ≠ 0) ∈ [(Instr.jt, fun n : Nat => n ≠ 0), (Instr.jf, fun n : Nat => n = 0)] ∧
    (Instr.jf, fun n : Nat => n = 0) ∈ [(Instr.jt, fun n : Nat => n ≠ 0), (Instr.jf, fun n : Nat => n = 0)] ∧
    valueOf (.lit 1) State.reset = some 1 ∧ (1 : Word).toNat ≠ 0 ∧ valueOf (.reg 0) State.reset = some 0 ∧
    (0 : Word).toNat = 0 ∧ valueOf (.lit 5) State.reset = some 5 ∧ valueOf (.bad 40000) State.reset = none := by
  refine ⟨List.mem_cons_self, List.mem_cons_of_mem _ List.mem_cons_self, ?_⟩
  decide

theorem witness_CallInstruction :
    (valueOf (.lit 4) State.reset = some 4 ∧ State.reset.params.osCapacity ≠ some State.reset.os.length ∧
      State.reset.params.csCapacity ≠ some State.reset.cs.length) ∧
    (valueOf (.lit 4) full = some 4 ∧
      (full.params.osCapacity = some full.os.length ∨ full.params.csCapacity = some full.cs.length)) ∧
    valueOf (.bad 32776) State.reset = none := by decide

/-- CTL9, CTL10, CTL11, CTL8. -/
theorem witness_RetInstruction :
    State.reset.os = [] ∧
    (({ State.reset with os := [7] } : State).os ≠ [] ∧ State.reset.cs = [] ∧
      State.reset.params.callStackUnderflowFaults = true) ∧
    (({ State.reset with os := [7] } : State).os = [] ++ [7] ∧ State.reset.cs = [] ∧
      ({ Config.Params.default with callStackUnderflowFaults := false } : Config.Params).callStackUnderflowFaults =
        false) ∧
    (({ State.reset with os := [9, 2], cs := [5] } : State).os = [9] ++ [2] ∧
      ({ State.reset with os := [9, 2], cs := [5] } : State).cs = [] ++ [5]) := by decide

theorem witness_OutInstruction : valueOf (.reg 0) (withR 300 0 State.reset) = some 300 ∧
    valueOf (.bad 32776) State.reset = none := by decide

/-- IO3, IO4, IO8; the greatest code unit that is a word and the least that is none. -/
theorem witness_InInstruction :
    (({ State.reset with input := [120] } : State).input = 120 :: [] ∧ (120 : Raw) ≠ 13) ∧
    ({ State.reset with input := [13, 10] } : State).input = 13 :: 10 :: [] ∧ State.reset.input = [] ∧
    ({ State.reset with input := [13] } : State).input = [13] ∧
    32767 < (32768 : Raw).toNat ∧ (32767 : Raw).toNat ≤ 32767 ∧ IsPlace (.lit 100) ∧ ¬ IsPlace (.bad 40000) :=
  ⟨⟨rfl, by decide⟩, rfl, rfl, rfl, by decide, by decide, isPlace_lit _, not_isPlace_bad _⟩

/-- A machine whose `in` holds. -/
def holding : State := { State.reset with pc := 2, flight := .single, hold := some ⟨.reg 0, false⟩ }

theorem witness_InHoldsUntilInput :
    holding.hold = some ⟨.reg 0, false⟩ ∧ HostSilent holding ∧ HostSilent { holding with schedule := [.tick] } ∧
    holding.input = [] ∧ holding.stepResult = none ∧
    ({ holding with schedule := [.command .pause] } : State).schedule = .command .pause :: [] ∧
    ({ holding with schedule := [.supply 65] } : State).schedule = .supply 65 :: [] :=
  ⟨rfl, .inl rfl, .inr rfl, rfl, rfl, rfl, rfl⟩

/-- A halted machine with its pause latch armed, as `add` and `halt` leave it. -/
def latched : State := { State.reset with pausePending := true, halted := true, faulted := true }

theorem witness_ExecLeavesControl : exec .noop latched = .next latched ∧ latched.halted = true ∧
    latched.faulted = true ∧ latched.pausePending = true := ⟨rfl, rfl, rfl, rfl⟩

theorem witness_OnlyNamedInstructionsTouch :
    exec .noop State.reset = .next State.reset ∧ (∀ a, Instr.noop ≠ .push a) ∧ (∀ a, Instr.noop ≠ .pop a) ∧
    (∀ a, Instr.noop ≠ .call a) ∧ Instr.noop ≠ .ret ∧ (∀ a, Instr.noop ≠ .input a) ∧ (∀ a, Instr.noop ≠ .out a) ∧
    (∀ a, Instr.noop ≠ .jmp a) ∧ (∀ a b, Instr.noop ≠ .jt a b) ∧ (∀ a b, Instr.noop ≠ .jf a b) :=
  ⟨rfl, nofun, nofun, nofun, nofun, nofun, nofun, nofun, nofun, nofun⟩

theorem witness_MemoryIsWrittenWithWords :
    exec .noop { State.reset with mem := [(1, 32768)] } = .next { State.reset with mem := [(1, 32768)] } ∧
    32767 < (({ State.reset with mem := [(1, 32768)] } : State).mem.read 1).toNat := ⟨rfl, by decide⟩

theorem witness_CallStackValuesAreNotRead :
    [(3 : Word)].length = ({ State.reset with os := [2], cs := [5] } : State).cs.length := rfl

theorem coherent_of_empty {s : State} (h : s.ic = []) : CacheCoherent s := by
  intro d hd
  rw [h] at hd
  cases hd

theorem witness_StepRunsDecodedInstruction :
    outAt0.halted = false ∧ outAt0.hold = none ∧ HostSilent outAt0 ∧ CacheCoherent outAt0 ∧
    decodeAt outAt0.mem outAt0.pc = some { pos := outAt0.pc, body := .instr (.out (.lit 66)) } ∧
    outAt0.pc.toNat + (Instr.out (.lit 66)).span ≤ 32767 ∧
    ((startRun outAt0).flight ≠ .idle ∧ takePending (startRun outAt0) = none) ∧
    ((stop (startRun outAt0)).halted = true ∧ (stop (startRun outAt0)).flight ≠ .idle ∧
      (stop (startRun outAt0)).hold = none ∧ HostSilent (stop (startRun outAt0)) ∧
      takePending (stop (startRun outAt0)) = none) ∧
    (outAt0.flight = .idle ∧ outAt0.loaded = true ∧
      ({ outAt0 with pending := [.stepInto] } : State).pending = .stepInto :: []) :=
  ⟨rfl, rfl, .inl rfl, coherent_of_empty rfl, by decide, by decide, by decide,
    ⟨rfl, by decide, rfl, .inl rfl, rfl⟩, rfl, rfl, rfl⟩

theorem witness_HaltedStepIsNoop : latched.halted = true := rfl

/-- DEC8 and its neighbour: a `halt` in the last two cells. -/
theorem witness_PcAdvance :
    (({ State.reset with pc := 32766 } : State).halted = false ∧
      fetch { State.reset with pc := 32766, ic := [⟨32766, .instr .halt⟩] } =
        .ok ⟨32766, .instr .halt⟩ { State.reset with pc := 32766, ic := [⟨32766, .instr .halt⟩] } ∧
      (32766 : Word).toNat + (⟨32766, .instr .halt⟩ : Decoded).span ≤ 32767) ∧
    (fetch { State.reset with pc := 32767, ic := [⟨32767, .instr .halt⟩] } =
        .ok ⟨32767, .instr .halt⟩ { State.reset with pc := 32767, ic := [⟨32767, .instr .halt⟩] } ∧
      32767 < (32767 : Word).toNat + (⟨32767, .instr .halt⟩ : Decoded).span) :=
  ⟨⟨rfl, rfl, by decide⟩, ⟨rfl, by decide⟩⟩

theorem witness_UnknownOpcodeFaults :
    ({ State.reset with mem := [(32766, 22)], pc := 32766, ic := [] } : State).halted = false ∧
    CacheCoherent { State.reset with mem := [(32766, 22)], pc := 32766, ic := [] } ∧
    decodeAt [(32766, 22)] 32766 = some { pos := 32766, body := .unknown 22 } ∧ (32766 : Word).toNat < 32767 :=
  ⟨rfl, coherent_of_empty rfl, by decide, by decide⟩

/-- PC at the last cell, which holds an `add` (FLT4, SNAP8). -/
def cutOff : State := { State.reset with mem := [(32767, 9)], pc := 32767, ic := [] }

theorem parse_cutOff : parseSnapshot State.reset.params (snapshotBytes cutOff) = some (snapshotOf cutOff) :=
  parse_snapshotBytes (by decide) (fits_none _) (fits_none _) (by decide) (by decide)

theorem witness_DecodeRangeFaults :
    (cutOff.halted = false ∧ CacheCoherent cutOff ∧ Overruns cutOff.mem cutOff.pc) ∧
    (cutOff.stepResult = none ∧ cutOff.hold = none) ∧
    parseSnapshot State.reset.params (snapshotBytes cutOff) = some (snapshotOf cutOff) ∧
    Overruns (installSnapshot (snapshotOf cutOff) State.reset).mem
      (installSnapshot (snapshotOf cutOff) State.reset).pc := by
  have h : Overruns cutOff.mem cutOff.pc := ⟨by decide, by decide⟩
  refine ⟨⟨rfl, coherent_of_empty rfl, h⟩, ⟨rfl, rfl⟩, parse_cutOff, ?_⟩
  rw [installSnapshot_mem (by decide), installSnapshot_pc]
  exact h

/-- Each clause, the execute breakpoint on the last word of the next instruction's span (BP8) and one past it. -/
theorem witness_EndOfStep :
    (outAt0.stepResult = none ∧ outAt0.hold = none ∧
      decodeAt outAt0.mem outAt0.pc = some ⟨0, .instr (.out (.lit 66))⟩) ∧
    ({ outAt0 with halted := true } : State).halted = true ∧
    (outAt0.halted = false ∧ ∃ k, k < (⟨0, .instr (.out (.lit 66))⟩ : Decoded).span ∧
      bpCheck [⟨1, true, false, false⟩] ((0 : Word).toNat + k) .exec = true) ∧
    (outAt0.pausePending = false ∧ ∀ k, k < (⟨0, .instr (.out (.lit 66))⟩ : Decoded).span →
      bpCheck [⟨2, true, false, false⟩] ((0 : Word).toNat + k) .exec = false) :=
  ⟨⟨rfl, rfl, by decide⟩, rfl, ⟨rfl, 1, by decide, by decide⟩, ⟨rfl, by decide⟩⟩

theorem witness_CacheIsTransparent :
    CacheCoherent State.reset ∧
    decodeAt State.reset.mem State.reset.pc = some { pos := 0, body := .instr .halt } ∧
    (CacheCoherent cutOff ∧ decodeAt cutOff.mem cutOff.pc = none) ∧
    fetch (memWrite 0 21 State.reset) =
      .ok ⟨0, .instr .noop⟩ (cacheInsert ⟨0, .instr .noop⟩ (memWrite 0 21 State.reset)) := by
  refine ⟨?_, by decide, ⟨coherent_of_empty rfl, by decide⟩, rfl⟩
  intro d hd
  simp only [State.reset, List.mem_cons, List.not_mem_nil, or_false] at hd
  subst hd
  decide

/-- A miss, a hit with the same record, and a record that was overwritten behind the cache's back. -/
theorem witness_CacheInsertCases :
    cacheLookup State.reset.ic (⟨5, .instr .noop⟩ : Decoded).pos = none ∧
    (cacheLookup State.reset.ic (⟨0, .instr .halt⟩ : Decoded).pos = some ⟨0, .instr .halt⟩ ∧
      (⟨0, .instr .halt⟩ : Decoded).body.text = "halt") ∧
    (cacheLookup State.reset.ic (⟨0, .instr .noop⟩ : Decoded).pos = some ⟨0, .instr .halt⟩ ∧
      (⟨0, .instr .halt⟩ : Decoded).body.text ≠ (⟨0, .instr .noop⟩ : Decoded).body.text) ∧
    State.reset.ic.Pairwise (fun x y => x.pos.toNat < y.pos.toNat) ∧ (5 : Word) ≠ 0 := by decide

theorem witness_StepCommandEnds :
    ({ State.reset with flight := .single, stepResult := some .notAdvanced } : State).flight = .single ∧
    ({ State.reset with flight := .single, stepResult := some .notAdvanced } : State).stepResult =
      some .notAdvanced := ⟨rfl, rfl⟩

theorem witness_StepOverNonCall : latched.halted = true ∧
    ∀ d u, fetch State.reset = .ok d u → Decoded.isCall d = false := by
  refine ⟨rfl, ?_⟩
  intro d u h
  have e : fetch State.reset = .ok ⟨0, .instr .halt⟩ State.reset := rfl
  rw [e] at h
  cases h
  rfl

/-- A `call 000A` at 0 (P2 at 3). -/
def callAt0 : State := { State.reset with mem := [(0, 17), (1, 10)], ic := [⟨0, .instr (.call (.lit 10))⟩] }

theorem witness_StepOverCall :
    (callAt0.halted = false ∧
      fetch { callAt0 with flight := .single, response := none, stepResult := none } =
        .ok ⟨0, .instr (.call (.lit 10))⟩ { callAt0 with flight := .single, response := none, stepResult := none } ∧
      Decoded.isCall ⟨0, .instr (.call (.lit 10))⟩ = true) ∧
    (({ callAt0 with flight := .over, stepResult := some .continue, depth := 1 } : State).flight = .over ∧
      0 < ({ callAt0 with flight := .over, stepResult := some .continue, depth := 1 } : State).depth) ∧
    ({ callAt0 with flight := .over, stepResult := some .continue, depth := 0 } : State).depth ≤ 0 ∧
    StepResult.fault ≠ .continue := ⟨⟨rfl, rfl, rfl⟩, by decide⟩

theorem witness_RunLoop :
    (startRun outAt0).flight = .run ∧ stepInto (startRun latched) = .next
      { startRun latched with stepResult := some .notAdvanced } ∧
    ({ startRun outAt0 with stepResult := some .continue } : State).stepResult = some .continue ∧
    StepResult.paused ≠ .continue := ⟨rfl, rfl, rfl, by decide⟩

theorem witness_PauseAndStop : State.reset.flight ≠ .run ∧ (startRun State.reset).flight = .run ∧
    State.reset.loaded = true ∧ State.powerOn.loaded = false := by decide

theorem witness_HeldCommandsWait :
    (startRun { State.reset with pending := [.save, .stop, .stepInto] }).flight ≠ .idle ∧
    (startRun { State.reset with pending := [.save, .stop, .stepInto] }).hold = none ∧
    .stop ∈ (startRun { State.reset with pending := [.save, .stop, .stepInto] }).pending ∧
    takePending (startRun { State.reset with pending := [.save, .stop, .stepInto] }) =
      some (.stop, startRun { State.reset with pending := [.save, .stepInto] }) ∧
    (State.reset.flight = .idle ∧ State.reset.hold = none ∧ State.reset.pending = [] ∧
      ({ State.reset with pending := [.save, .stop] } : State).pending = .save :: [.stop]) := by decide

theorem witness_OnlyLoadClearsHalted : (∀ image, Command.run ≠ .load image) ∧ (∀ bs, Command.run ≠ .loadState bs) ∧
    latched.halted = true ∧ perform .run latched = .next (startRun latched) ∧
    step latched = .next latched ∧ latched.hold = none := ⟨nofun, nofun, rfl, rfl, rfl, rfl⟩

/-- A machine with an entry in every part of a snapshot. -/
def kept : State := { callAt0 with bt := [⟨32768, false, false, true⟩], os := [31337], cs := [5, 6] }

theorem witness_SnapshotLayout : (heldBy kept).bt[0]? = some ⟨32768, false, false, true⟩ ∧
    (heldBy kept).os[0]? = some 31337 ∧ (heldBy kept).cs[1]? = some 6 ∧ (heldBy kept).regs[7]? = some 0 ∧
    (heldBy kept).cs.length < 4294967296 := by decide

/-- 47 R309: the bytes of the count and of the value 31337 of P1's operand stack, and those of an address and its
triggers as 47 R301, R302 place them. -/
theorem test_littleEndian : littleEndian 31337 = [0x69, 0x7A, 0, 0] ∧ littleEndian 13 = [0x0D, 0, 0, 0] ∧
    (fieldBytes 31337).map (·.toNat) = [0x69, 0x7A, 0, 0] ∧
    (entryBytes ⟨32768, false, false, true⟩).map (·.toNat) = [0, 0x80, 0, 0, 0, 0, 1] := by decide

theorem witness_SaveThenLoad :
    kept.mem.wf ∧ BpTableWf kept.bt ∧ Fits full.params.osCapacity kept.os ∧ Fits full.params.csCapacity kept.cs ∧
    kept.os.length < 4294967296 ∧ kept.cs.length < 4294967296 ∧ ¬ Overruns kept.mem kept.pc ∧
    Overruns ({ kept with mem := [(32767, 17)], pc := 32767 } : State).mem 32767 := by
  refine ⟨by decide, by decide, ?_, fits_none _, by decide, by decide, ?_, ⟨by decide, by decide⟩⟩
  · intro n h
    cases h
    decide
  · rw [overruns_iff]
    decide

theorem witness_LoadThenSave : kept.loaded = true ∧ (startRun kept).flight ≠ .idle ∧
    (loadState (snapshotBytes kept) State.reset).response = some .ok :=
  ⟨rfl, by decide, loadState_ok
    (parse_snapshotBytes (by decide) (fits_none _) (fits_none _) (by decide) (by decide))
    (d := ⟨0, .instr (.call (.lit 10))⟩) (by rw [installSnapshot_mem (by decide), installSnapshot_pc]; decide)⟩

theorem parse_empty (p : Config.Params) : parseSnapshot p [] = none := by
  cases h : parseSnapshot p [] with
  | none => rfl
  | some n => exact absurd (parse_length h) (by simp)

/-- The empty stream, and one that is accepted. -/
theorem witness_MalformedStreamsRefused : parseSnapshot State.reset.params [] = none ∧
    parseSnapshot State.reset.params (snapshotBytes cutOff) = some (snapshotOf cutOff) :=
  ⟨parse_empty _, parse_cutOff⟩

/-- A state that has the invariant, a step-into having been issued, and its step: the `halt` of the empty memory. -/
theorem witness_StepKeepsInv : ({ State.reset with pending := [.stepInto] } : State).Inv ∧
    step { State.reset with pending := [.stepInto] } = .next
      (settle (completeStep 0 (emit .halted { State.reset with flight := .single, pc := 1, halted := true }))) := by
  refine ⟨?_, rfl⟩
  have hc : CacheCoherent State.reset := witness_CacheIsTransparent.1
  constructor <;> first | exact hc | exact fits_none _ | decide

end Sys2Proof.Tests
end

section
/-! PROOFS. The state after reset and the STATUS word (10 R49, R55): O14, O59, O12. -/

namespace Sys2Proof.Machine

/-! ### The state after reset -/

/-- Settles O14: every field of the column after load (10 R55), read off the reset state. -/
theorem resetState : Obligations.ResetState := by
  unfold Obligations.ResetState
  refine ⟨by decide, rfl, fun _ => rfl, rfl, rfl, rfl, rfl, rfl, rfl, rfl, rfl, rfl, rfl, ?ic, ?mem⟩
  case ic => decide
  case mem => rfl

theorem reset_cacheCoherent : CacheCoherent State.reset :=
  show ∀ d ∈ State.reset.ic, decodeAt State.reset.mem d.pos = some d by decide

theorem fits_unbounded (l : List Word) : Fits none l := nofun

/-- Settles O59: each part of the invariant, at the fixed reset state. -/
theorem resetSatisfiesInv : Obligations.ResetSatisfiesInv where
  memWf := reset_wf
  cacheSorted := by decide
  cacheCoherent := reset_cacheCoherent
  bpTable := by decide
  osFits := fits_unbounded _
  csFits := fits_unbounded _
  faultedCause := by decide
  faultedHalted := nofun
  esHalted := by decide
  esRunning := by decide
  holdInFlight := nofun
  singleHolds := nofun

/-! ### The STATUS word (10 R49) -/

/-- Every bit of STATUS: the fields lie where 10 R49 puts them, and the other bits are 0. -/
theorem statusWord_getLsbD (s : State) (i : Nat) : s.statusWord.getLsbD i =
    if i < 2 then s.es.code.getLsbD i
    else if i = 2 then s.halted
    else if i = 3 then s.pausePending
    else if i = 4 then s.faulted
    else if 8 ≤ i then s.faultCause.code.getLsbD (i - 8)
    else false := by
  have fields : s.statusWord.getLsbD i = BitVec.getLsbD (w := 4 + 4 + 3 + 1 + 1 + 1 + 2)
      (0#4 ++ s.faultCause.code ++ 0#3 ++ BitVec.ofBool s.faulted ++ BitVec.ofBool s.pausePending ++
        BitVec.ofBool s.halted ++ s.es.code) i := rfl
  rw [fields]
  simp only [BitVec.getLsbD_append, BitVec.getLsbD_ofBool, BitVec.getLsbD_zero]
  grind

theorem statusWord_es (s : State) : s.statusWord.extractLsb' 0 2 = s.es.code := by
  ext i hi
  simp [statusWord_getLsbD, ← BitVec.getLsbD_eq_getElem, hi]

theorem statusWord_faultCause (s : State) : s.statusWord.extractLsb' 8 4 = s.faultCause.code := by
  ext i hi
  rw [BitVec.getElem_extractLsb', statusWord_getLsbD, ← BitVec.getLsbD_eq_getElem]
  grind

theorem statusWord_reserved_low (s : State) : s.statusWord.extractLsb' 5 3 = 0 := by
  ext i hi
  rw [BitVec.getElem_extractLsb', statusWord_getLsbD]
  grind

theorem statusWord_reserved_high (s : State) : s.statusWord.extractLsb' 12 4 = 0 := by
  ext i hi
  have beyond : s.faultCause.code.getLsbD (12 + i - 8) = false := BitVec.getLsbD_of_ge _ _ (by omega)
  rw [BitVec.getElem_extractLsb', statusWord_getLsbD]
  grind

/-- The fields that make up STATUS have their values after load (10 R55). -/
structure ClearStatus (s : State) : Prop where
  es : s.es = .ready
  halted : s.halted = false
  pausePending : s.pausePending = false
  faulted : s.faulted = false
  faultCause : s.faultCause = .none

theorem ClearStatus.statusWord_eq_zero {s : State} (h : ClearStatus s) : s.statusWord = 0 := by
  obtain ⟨hes, hhalted, hpause, hfaulted, hcause⟩ := h
  rw [State.statusWord, hes, hhalted, hpause, hfaulted, hcause]
  rfl

theorem installImage_clearStatus (image : List Raw) (s : State) : ClearStatus (installImage image s) := by
  constructor <;> simp [installImage]

theorem installSnapshot_clearStatus (n : Snapshot) (s : State) : ClearStatus (installSnapshot n s) := by
  constructor <;> simp [installSnapshot]

/-- A decode at PC caches its record, or faults (40 R143, R147). -/
theorem decodeHere_cases (s : State) :
    (∃ d, decodeAt s.mem s.pc = some d ∧ decodeHere s = .ok d (cacheInsert d s)) ∨
    (decodeAt s.mem s.pc = none ∧ decodeHere s = .stop (raiseFault .decodeRange s)) := by
  unfold decodeHere
  cases h : decodeAt s.mem s.pc with
  | some d => exact .inl ⟨d, rfl, rfl⟩
  | none => exact .inr ⟨rfl, rfl⟩

theorem cacheInsert_clearStatus (d : Decoded) {s : State} (h : ClearStatus s) : ClearStatus (cacheInsert d s) := by
  obtain ⟨hes, hhalted, hpause, hfaulted, hcause⟩ := h
  constructor <;> simpa

/-- An image that fits is loaded: the decode at 0 cannot fault (70 R500). -/
theorem load_of_fits {image : List Raw} (h : image.length ≤ 32768) (s : State) : ∃ d,
    load image s = { emitRefresh (cacheInsert d (installImage image s)) with response := some .ok } := by
  obtain ⟨d, hd⟩ := decodeAt_zero (installImage image s).mem
  have hpc : (installImage image s).pc = 0 := by simp [installImage]
  refine ⟨d, ?_⟩
  unfold load
  rw [if_neg (by simpa using h), decodeHere, hpc, hd]
  rfl

/-- load-state refuses the stream, or restores it, or restores it and faults at the restored PC (47 R304, R306). -/
theorem loadState_cases (bs : List Byte) (s : State) :
    loadState bs s = { s with response := some .restoreMalformed } ∨
    (∃ n d, loadState bs s =
      { emitRefresh (cacheInsert d (installSnapshot n s)) with response := some .ok }) ∨
    ∃ n, loadState bs s =
      { raiseFault .decodeRange (installSnapshot n s) with es := .halted, response := some (.step .fault) } := by
  unfold loadState
  cases parseSnapshot s.params bs with
  | none => exact .inl rfl
  | some n =>
    rcases decodeHere_cases (installSnapshot n s) with ⟨d, -, e⟩ | ⟨-, e⟩
    · exact .inr (.inl ⟨n, d, by simp only [e]⟩)
    · exact .inr (.inr ⟨n, by simp only [e]⟩)

theorem load_clearStatus {image : List Raw} (h : image.length ≤ 32768) (s : State) :
    ClearStatus (load image s) := by
  obtain ⟨d, e⟩ := load_of_fits h s
  obtain ⟨hes, hhalted, hpause, hfaulted, hcause⟩ :=
    cacheInsert_clearStatus d (installImage_clearStatus image s)
  rw [e]
  exact ⟨hes, hhalted, hpause, hfaulted, hcause⟩

theorem loadState_clearStatus {bs : List Byte} {s : State} (h : (loadState bs s).response = some .ok) :
    ClearStatus (loadState bs s) := by
  rcases loadState_cases bs s with e | ⟨n, d, e⟩ | ⟨n, e⟩
  · rw [e] at h
    cases h
  · obtain ⟨hes, hhalted, hpause, hfaulted, hcause⟩ :=
      cacheInsert_clearStatus d (installSnapshot_clearStatus n s)
    rw [e]
    exact ⟨hes, hhalted, hpause, hfaulted, hcause⟩
  · rw [e] at h
    cases h

/-- Settles O12: the fields by the bits of STATUS, and the value 0 because load and restore clear every field and
their decode does not fault. -/
theorem statusWordFields : Obligations.StatusWordFields := by
  unfold Obligations.StatusWordFields
  refine ⟨fun s => ⟨?es, ?halted, ?pause, ?faulted, statusWord_reserved_low s, ?cause, statusWord_reserved_high s⟩,
    fun image s h => (load_clearStatus h s).statusWord_eq_zero,
    fun bs s h => (loadState_clearStatus h).statusWord_eq_zero⟩
  case es =>
    intro p hp hes
    rw [statusWord_es, hes]
    clear hes
    revert p
    decide
  case cause =>
    intro p hp hcause
    rw [statusWord_faultCause, hcause]
    clear hcause
    revert p
    decide
  case halted => rw [statusWord_getLsbD]; rfl
  case pause => rw [statusWord_getLsbD]; rfl
  case faulted => rw [statusWord_getLsbD]; rfl

end Sys2Proof.Machine
end

section
/-! PROOFS. What an instruction leaves alone (10 R39 to R51, 20 R79): O35, O36, O37, each an invariant of the
primitives, carried to the instructions by `exec_composes`. -/

namespace Sys2Proof.Machine

/-- A pop of the call stack that leaves an empty one as it is (60 R411), as one record update. -/
theorem dropCsIfAny_eq (s : State) : dropCsIfAny s =
    { s with cs := s.cs.dropLast,
             notes := if s.cs.isEmpty then s.notes else notesPlus s [.callStackPopped] } := by
  unfold dropCsIfAny
  split
  next h =>
    cases s
    simp_all
  next h => simp [dropCs_eq]

/-- Keeping a part of the state composes, where a fault and the pause latch keep it. -/
theorem composes_eq {α : Type} (f : State → α) (hfault : ∀ c s, f (raiseFault c s) = f s)
    (harm : ∀ b s, f (armIf b s) = f s) : Composes fun s t => f t = f s where
  refl _ := rfl
  trans _ _ _ h₁ h₂ := h₂.trans h₁
  fault c s _ := hfault c s
  arm := harm

/-! ### What no instruction changes (10 R51) -/

/-- The part of the state that belongs to the debugger, the command port and the host. -/
def controlPart (s : State) :=
  (s.bt, s.es, s.loaded, s.flight, s.response, s.pending, s.schedule, s.params)

theorem exec_controlPart {i : Instr} {s t : State} (e : exec i s = .next t) : controlPart t = controlPart s := by
  apply exec_composes (composes_eq controlPart ?_ ?_) ?_ ?_ i s t e
  all_goals simp [controlPart, pushOs_eq, pushCs_eq, dropOs_eq, dropCsIfAny_eq, send]

/-- None of HALTED, FAULTED and the pause latch is cleared between two states. -/
structure KeepsBits (s t : State) : Prop where
  halted : s.halted = true → t.halted = true
  faulted : s.faulted = true → t.faulted = true
  pausePending : s.pausePending = true → t.pausePending = true

theorem keepsBits_of_eq {s t : State} (hhalted : t.halted = s.halted) (hfaulted : t.faulted = s.faulted)
    (hpause : t.pausePending = s.pausePending) : KeepsBits s t :=
  ⟨fun h => hhalted.trans h, fun h => hfaulted.trans h, fun h => hpause.trans h⟩

theorem composes_keepsBits : Composes KeepsBits where
  refl _ := keepsBits_of_eq rfl rfl rfl
  trans _ _ _ h₁ h₂ := ⟨h₂.halted ∘ h₁.halted, h₂.faulted ∘ h₁.faulted, h₂.pausePending ∘ h₁.pausePending⟩
  fault c s _ := ⟨fun _ => raiseFault_halted c s, fun _ => raiseFault_faulted c s, by simp⟩
  arm _ _ := ⟨id, id, fun h => by simp [h]⟩

theorem memWrite_keepsBits (a x : Word) (s : State) : KeepsBits s (memWrite a x s) :=
  keepsBits_of_eq (memWrite_halted a x s) (memWrite_faulted a x s) (memWrite_pausePending a x s)

theorem writeReg_keepsBits (r : Fin 8) (x : Word) (s : State) : KeepsBits s (writeReg r x s) :=
  keepsBits_of_eq (writeReg_halted r x s) (writeReg_faulted r x s) (writeReg_pausePending r x s)

theorem exec_keepsBits {i : Instr} {s t : State} (e : exec i s = .next t) : KeepsBits s t := by
  apply exec_composes composes_keepsBits memWrite_keepsBits writeReg_keepsBits i s t e
  case hhalt => exact fun _ s => ⟨fun _ => emit_halted .halted _, by simp, by simp⟩
  all_goals
    intros
    apply keepsBits_of_eq <;> simp [pushOs_eq, pushCs_eq, dropOs_eq, dropCsIfAny_eq, send]

/-- Settles O35: every primitive an instruction uses keeps the control part and clears no sticky bit. -/
theorem execLeavesControl : Obligations.ExecLeavesControl := by
  unfold Obligations.ExecLeavesControl
  intro i s t e
  have control := exec_controlPart e
  simp only [controlPart, Prod.mk.injEq] at control
  obtain ⟨hbt, hes, hloaded, hflight, hresponse, hpending, hschedule, hparams⟩ := control
  obtain ⟨hhalted, hfaulted, hpause⟩ := exec_keepsBits e
  exact ⟨hbt, hes, hloaded, hflight, hresponse, hpending, hschedule, hparams, hhalted, hfaulted, hpause⟩

/-! ### Which instructions write the stacks, reach the ports and assign PC

The hypotheses of each lemma rule out the instructions whose primitives write that part; every other primitive keeps
it. -/

theorem exec_os {i : Instr} {s t : State} (e : exec i s = .next t) (hpush : ∀ a, i ≠ .push a)
    (hpop : ∀ a, i ≠ .pop a) (hcall : ∀ a, i ≠ .call a) (hret : i ≠ .ret) : t.os = s.os := by
  apply exec_composes (composes_eq State.os ?_ ?_) ?_ ?_ i s t e
  all_goals simp [hpush, hpop, hcall, hret, send]

theorem exec_cs_depth {i : Instr} {s t : State} (e : exec i s = .next t) (hcall : ∀ a, i ≠ .call a)
    (hret : i ≠ .ret) : (t.cs, t.depth) = (s.cs, s.depth) := by
  apply exec_composes (composes_eq (fun s => (s.cs, s.depth)) ?_ ?_) ?_ ?_ i s t e
  all_goals simp [hcall, hret, pushOs_eq, dropOs_eq, send]

theorem exec_input_hold {i : Instr} {s t : State} (e : exec i s = .next t) (hin : ∀ a, i ≠ .input a) :
    (t.input, t.hold) = (s.input, s.hold) := by
  apply exec_composes (composes_eq (fun s => (s.input, s.hold)) ?_ ?_) ?_ ?_ i s t e
  all_goals simp [hin, pushOs_eq, pushCs_eq, dropOs_eq, dropCsIfAny_eq, send]

theorem exec_output {i : Instr} {s t : State} (e : exec i s = .next t) (hout : ∀ a, i ≠ .out a) :
    t.output = s.output := by
  apply exec_composes (composes_eq State.output ?_ ?_) ?_ ?_ i s t e
  all_goals simp [hout, pushOs_eq, pushCs_eq, dropOs_eq, dropCsIfAny_eq]

theorem exec_pc {i : Instr} {s t : State} (e : exec i s = .next t) (hjmp : ∀ a, i ≠ .jmp a)
    (hjt : ∀ a b, i ≠ .jt a b) (hjf : ∀ a b, i ≠ .jf a b) (hcall : ∀ a, i ≠ .call a) (hret : i ≠ .ret) :
    t.pc = s.pc := by
  apply exec_composes (composes_eq State.pc ?_ ?_) ?_ ?_ i s t e
  all_goals simp [hjmp, hjt, hjf, hcall, hret, pushOs_eq, dropOs_eq, send]

/-- Settles O36: each part is kept by every primitive but those of the instructions named. -/
theorem onlyNamedInstructionsTouch : Obligations.OnlyNamedInstructionsTouch := by
  unfold Obligations.OnlyNamedInstructionsTouch
  intro i s t e
  exact ⟨exec_os e, fun hcall hret => Prod.mk.inj (exec_cs_depth e hcall hret),
    fun hin => Prod.mk.inj (exec_input_hold e hin), exec_output e, exec_pc e⟩

/-! ### Memory is written with words (10 R39, 20 R79) -/

/-- A cell of the later state above 32767 already held its value in the earlier one. -/
def WritesWords (s t : State) : Prop := ∀ q, 32767 < (t.mem.read q).toNat → t.mem.read q = s.mem.read q

theorem writesWords_of_mem_eq {s t : State} (h : t.mem = s.mem) : WritesWords s t := fun q _ => by rw [h]

theorem composes_writesWords : Composes WritesWords where
  refl _ _ _ := rfl
  trans s t u h₁ h₂ q hq := by
    have h := h₂ q hq
    rw [h] at hq ⊢
    exact h₁ q hq
  fault c s _ := writesWords_of_mem_eq (raiseFault_mem c s)
  arm b s := writesWords_of_mem_eq (armIf_mem b s)

theorem memWrite_writesWords (a x : Word) (s : State) : WritesWords s (memWrite a x s) := by
  intro q hq
  rw [memWrite_mem] at hq ⊢
  by_cases h : q = a.toNat
  · subst h
    have hx : x.toNat < 32768 := x.isLt
    rw [read_write_same, BitVec.toNat_setWidth] at hq
    omega
  · exact read_write_other _ _ h

theorem exec_writesWords {i : Instr} {s t : State} (e : exec i s = .next t) : WritesWords s t := by
  apply exec_composes composes_writesWords memWrite_writesWords ?_ i s t e
  all_goals
    intros
    apply writesWords_of_mem_eq
    simp [pushOs_eq, pushCs_eq, dropOs_eq, dropCsIfAny_eq, send]

/-- The part of the state that an instruction which stores to a cell changes. -/
def cellPart (s : State) := (s.mem, s.ic)

theorem composes_cellPart : Composes fun s t => cellPart t = cellPart s :=
  composes_eq cellPart (by simp [cellPart]) (by simp [cellPart])

theorem jumpTo_cellPart {v : Operand} {s t : State} (e : jumpTo v s = .next t) : cellPart t = cellPart s :=
  composes_resolve composes_cellPart e fun _ _ e => by cases e; rfl

theorem branchIf_cellPart {f : Word → Bool} {a b : Operand} {s t : State} (e : branchIf f a b s = .next t) :
    cellPart t = cellPart s :=
  composes_resolve composes_cellPart e fun x u e => by
    split at e
    · exact jumpTo_cellPart e
    · cases e; rfl

theorem execSet_cellPart {a b : Operand} {s t : State} (e : execSet a b s = .next t) :
    cellPart t = cellPart s :=
  composes_resolve composes_cellPart e fun x u e => by
    cases a <;> cases e <;> simp [cellPart]

theorem execPush_cellPart {a : Operand} {s t : State} (e : execPush a s = .next t) :
    cellPart t = cellPart s :=
  composes_resolve composes_cellPart e fun x u e => by
    split at e <;> cases e <;> simp [cellPart, pushOs_eq]

theorem execCall_cellPart {a : Operand} {s t : State} (e : execCall a s = .next t) :
    cellPart t = cellPart s :=
  composes_resolve composes_cellPart e fun x u e => by
    split at e <;> cases e <;> simp [cellPart, pushOs_eq, pushCs_eq]

theorem execRet_cellPart {s t : State} (e : execRet s = .next t) : cellPart t = cellPart s := by
  unfold execRet at e
  split at e
  · cases e
    simp [cellPart]
  · split at e <;> cases e <;> simp [cellPart, dropOs_eq, dropCsIfAny_eq]

theorem execOut_cellPart {a : Operand} {s t : State} (e : execOut a s = .next t) : cellPart t = cellPart s :=
  composes_resolve composes_cellPart e fun x u e => by cases e; rfl

theorem execHalt_cellPart {s t : State} (e : execHalt s = .next t) : cellPart t = cellPart s := by
  cases e
  simp [cellPart]

/-- Settles O37: a store writes a word, and the ten instructions use no store. -/
theorem memoryIsWrittenWithWords : Obligations.MemoryIsWrittenWithWords := by
  unfold Obligations.MemoryIsWrittenWithWords
  intro i s t e
  refine ⟨exec_writesWords e, fun hi => ?_⟩
  have kept : cellPart t = cellPart s := by
    rcases hi with rfl | rfl | rfl | ⟨a, b, rfl⟩ | ⟨a, rfl⟩ | ⟨a, rfl⟩ | ⟨a, rfl⟩ | ⟨a, b, rfl⟩ | ⟨a, b, rfl⟩ |
      ⟨a, rfl⟩
    · exact execHalt_cellPart e
    · exact execRet_cellPart e
    · cases e; rfl
    · exact execSet_cellPart e
    · exact execPush_cellPart e
    · exact execCall_cellPart e
    · exact jumpTo_cellPart e
    · exact branchIf_cellPart e
    · exact branchIf_cellPart e
    · exact execOut_cellPart e
  obtain ⟨hmem, hic⟩ := Prod.mk.inj kept
  exact ⟨fun q => by rw [hmem], hic⟩

end Sys2Proof.Machine
end

section
/-! PROOFS. Two runs that differ in the words on the call stack agree in everything else (10 R42): O38. -/

namespace Sys2Proof.Machine

/-- What raising a fault does (60 R401), as one record update. -/
theorem raiseFault_eq (c : FaultCause) (s : State) : raiseFault c s =
    { s with faulted := true, faultCause := c, halted := true, stepResult := some .fault,
             notes := if s.halted then s.notes else notesPlus s [.halted] } := by
  unfold raiseFault
  cases h : s.halted
  · simp [emit_eq, notesPlus]
  · simp

/-! ### The call stack is not read (10 R42) -/

/-- The state with other words on the call stack. -/
def withCs (k : List Word) (s : State) : State := { s with cs := k }

theorem withCs_cs (k : List Word) (s : State) : (withCs k s).cs = k := rfl
theorem withCs_os (k : List Word) (s : State) : (withCs k s).os = s.os := rfl
theorem withCs_input (k : List Word) (s : State) : (withCs k s).input = s.input := rfl
theorem withCs_params (k : List Word) (s : State) : (withCs k s).params = s.params := rfl

/-- An update that neither reads nor writes the call stack. -/
structure IgnoresCs (F : State → State) : Prop where
  comm : ∀ k s, F (withCs k s) = withCs k (F s)
  keeps : ∀ s, (F s).cs = s.cs

theorem IgnoresCs.comp {F G : State → State} (hF : IgnoresCs F) (hG : IgnoresCs G) : IgnoresCs fun s => F (G s) where
  comm k s := by rw [hG.comm, hF.comm]
  keeps s := by rw [hF.keeps, hG.keeps]

theorem emitAll_ignoresCs (ns : List Notification) : IgnoresCs (emitAll ns) where
  comm k s := by simp only [emitAll_eq]; rfl
  keeps := emitAll_cs ns

theorem raiseFault_ignoresCs (c : FaultCause) : IgnoresCs (raiseFault c) where
  comm k s := by rw [raiseFault_eq, raiseFault_eq]; rfl
  keeps := raiseFault_cs c

theorem armIf_ignoresCs (b : Bool) : IgnoresCs (armIf b) where
  comm _ _ := rfl
  keeps := armIf_cs b

theorem memWrite_ignoresCs (a x : Word) : IgnoresCs (memWrite a x) where
  comm k s := by simp only [memWrite, cacheEvict, emit_eq, emitAll_eq]; rfl
  keeps := memWrite_cs a x

theorem writeReg_ignoresCs (r : Fin 8) (x : Word) : IgnoresCs (writeReg r x) where
  comm k s := by simp only [writeReg_eq]; rfl
  keeps := writeReg_cs r x

theorem pushOs_ignoresCs (x : Word) : IgnoresCs (pushOs x) where
  comm k s := by simp only [pushOs_eq]; rfl
  keeps s := by rw [pushOs_eq]

theorem dropOs_ignoresCs : IgnoresCs dropOs where
  comm k s := by simp only [dropOs_eq]; rfl
  keeps s := by rw [dropOs_eq]

theorem storeTo_ignoresCs (v : Operand) (x : Word) : IgnoresCs (storeTo v x) where
  comm k s := by
    cases v with
    | lit a => exact (memWrite_ignoresCs a x).comm k (armIf (writeHit (.lit a) s) s)
    | reg r => exact (writeReg_ignoresCs r x).comm k (armIf (writeHit (.reg r) s) s)
    | bad b => exact (raiseFault_ignoresCs .badOperand).comm k s
  keeps s := by cases v <;> simp [storeTo]

theorem storeData_ignoresCs (v : Operand) (c : Raw) : IgnoresCs (storeData v c) := by
  by_cases h : Config.maxWord < c.toNat
  · have fault : storeData v c = raiseFault .badData := funext fun s => if_pos h
    exact fault ▸ raiseFault_ignoresCs .badData
  · have store : storeData v c = storeTo v (BitVec.ofNat 15 c.toNat) := funext fun s => if_neg h
    exact store ▸ storeTo_ignoresCs v _

theorem takeAfterCr_ignoresCs (a : Operand) : IgnoresCs (takeAfterCr a) where
  comm k s := by
    unfold takeAfterCr
    rw [withCs_input]
    cases s.input with
    | nil => rfl
    | cons c rest => exact (storeData_ignoresCs a c).comm k { s with input := rest, hold := none }
  keeps s := by
    unfold takeAfterCr
    cases s.input with
    | nil => rfl
    | cons c rest => exact (storeData_ignoresCs a c).keeps _

theorem takeUnit_ignoresCs (a : Operand) : IgnoresCs (takeUnit a) where
  comm k s := by
    unfold takeUnit
    rw [withCs_input]
    cases s.input with
    | nil => rfl
    | cons c rest =>
      by_cases h : c = Config.carriageReturn
      · simp only [if_pos h]
        exact (takeAfterCr_ignoresCs a).comm k { s with input := rest, hold := none }
      · simp only [if_neg h]
        exact (storeData_ignoresCs a c).comm k { s with input := rest, hold := none }
  keeps s := (Prod.mk.inj (exec_cs_depth (i := .input a) (s := s) rfl nofun nofun)).1

/-- Both outcomes are next states, equal but for the words on equally long call stacks. -/
def AgreeButCs (o o' : Host.Outcome State Fault Refusal) : Prop :=
  ∃ t k, k.length = t.cs.length ∧ o = .next t ∧ o' = .next (withCs k t)

theorem IgnoresCs.agree {F : State → State} (h : IgnoresCs F) {s : State} {k : List Word}
    (hk : k.length = s.cs.length) : AgreeButCs (.next (F s)) (.next (F (withCs k s))) :=
  ⟨F s, k, by rw [h.keeps, hk], rfl, by rw [h.comm]⟩

theorem valueOf_withCs (v : Operand) (k : List Word) (s : State) : valueOf v (withCs k s) = valueOf v s := by
  cases v <;> rfl

theorem afterReads_withCs (v : Operand) (k : List Word) (s : State) :
    afterReads [v] (withCs k s) = withCs k (afterReads [v] s) := by
  cases v <;> rfl

/-- Resolving an operand gives the same word, or the same fault, whatever is on the call stack. -/
theorem agree_resolve {v : Operand} {s : State} {k : List Word}
    {f : Word → State → Host.Outcome State Fault Refusal} (hk : k.length = s.cs.length)
    (hf : ∀ x u, k.length = u.cs.length → AgreeButCs (f x u) (f x (withCs k u))) :
    AgreeButCs ((resolve v s).andThen f) ((resolve v (withCs k s)).andThen f) := by
  cases h : valueOf v s with
  | none =>
    rw [resolve_none h, resolve_none ((valueOf_withCs v k s).trans h)]
    exact (raiseFault_ignoresCs .badOperand).agree hk
  | some x =>
    rw [resolve_some h, resolve_some ((valueOf_withCs v k s).trans h), afterReads_withCs]
    exact hf x _ hk

theorem binary_agree (f : Word → Word → Word) (a b c : Operand) {s : State} {k : List Word}
    (hk : k.length = s.cs.length) : AgreeButCs (binary f a b c s) (binary f a b c (withCs k s)) :=
  agree_resolve hk fun _ _ hk => agree_resolve hk fun _ _ hk => (storeTo_ignoresCs a _).agree hk

theorem setPc_ignoresCs (p : Word) : IgnoresCs fun s => { s with pc := p } :=
  ⟨fun _ _ => rfl, fun _ => rfl⟩

theorem jumpTo_agree (v : Operand) {s : State} {k : List Word} (hk : k.length = s.cs.length) :
    AgreeButCs (jumpTo v s) (jumpTo v (withCs k s)) :=
  agree_resolve hk fun x _ hk => (setPc_ignoresCs x).agree hk

theorem next_agree {s : State} {k : List Word} (hk : k.length = s.cs.length) :
    AgreeButCs (.next s) (.next (withCs k s)) := ⟨s, k, hk, rfl, rfl⟩

theorem branchIf_agree (taken : Word → Bool) (a b : Operand) {s : State} {k : List Word}
    (hk : k.length = s.cs.length) : AgreeButCs (branchIf taken a b s) (branchIf taken a b (withCs k s)) :=
  agree_resolve hk fun x u hk => by
    cases taken x
    · exact next_agree hk
    · exact jumpTo_agree b hk

theorem atCapacity_congr (cap : Option Nat) {k l : List Word} (h : k.length = l.length) :
    atCapacity cap k = atCapacity cap l := by
  unfold atCapacity
  rw [h]

theorem isEmpty_congr {k l : List Word} (h : k.length = l.length) : k.isEmpty = l.isEmpty := by
  rw [Bool.eq_iff_iff, List.isEmpty_iff_length_eq_zero, List.isEmpty_iff_length_eq_zero, h]

/-- A call sees of the call stack its capacity only, and puts the same word on both. -/
theorem execCall_agree (a : Operand) {s : State} {k : List Word} (hk : k.length = s.cs.length) :
    AgreeButCs (execCall a s) (execCall a (withCs k s)) :=
  agree_resolve hk fun x u hk => by
    rw [withCs_params, withCs_os, withCs_cs, atCapacity_congr _ hk]
    split
    · exact (raiseFault_ignoresCs .stackOverflow).agree hk
    · refine ⟨_, k ++ [u.pc], ?_, rfl, ?_⟩
      · simp [pushOs_eq, pushCs_eq, hk]
      · simp only [pushOs_eq, pushCs_eq]
        rfl

/-- A return sees of the call stack whether it is empty only, and drops the top of both. -/
theorem execRet_agree {s : State} {k : List Word} (hk : k.length = s.cs.length) :
    AgreeButCs (execRet s) (execRet (withCs k s)) := by
  unfold execRet
  rw [withCs_os, withCs_cs, withCs_params, isEmpty_congr hk]
  split
  · exact (raiseFault_ignoresCs .osUnderflow).agree hk
  · split
    · exact (raiseFault_ignoresCs .csUnderflow).agree hk
    · refine ⟨_, k.dropLast, ?_, rfl, ?_⟩
      · simp [dropOs_eq, dropCsIfAny_eq, hk]
      · simp only [dropOs_eq, dropCsIfAny_eq, withCs_cs, isEmpty_congr hk]
        rfl

theorem exec_agree (i : Instr) {s : State} {k : List Word} (hk : k.length = s.cs.length) :
    AgreeButCs (exec i s) (exec i (withCs k s)) := by
  cases i with
  | halt => 
    have h : IgnoresCs fun s => { s with halted := true } := ⟨fun _ _ => rfl, fun _ => rfl⟩
    exact ((emitAll_ignoresCs [.halted]).comp h).agree hk
  | noop => exact next_agree hk
  | set a b =>
    refine agree_resolve hk fun x u hk => ?_
    cases a with
    | lit w => exact (raiseFault_ignoresCs .setDest).agree hk
    | reg r => exact ((writeReg_ignoresCs r x).comp (armIf_ignoresCs _)).agree hk
    | bad v => exact (raiseFault_ignoresCs .setDest).agree hk
  | push a =>
    refine agree_resolve hk fun x u hk => ?_
    rw [withCs_params, withCs_os]
    split
    · exact (raiseFault_ignoresCs .stackOverflow).agree hk
    · exact (pushOs_ignoresCs x).agree hk
  | pop a =>
    simp only [exec, execPop, withCs_os]
    split
    · exact (raiseFault_ignoresCs .osUnderflow).agree hk
    · exact ((storeTo_ignoresCs a _).comp dropOs_ignoresCs).agree hk
  | eq a b c => exact binary_agree _ a b c hk
  | gt a b c => exact binary_agree _ a b c hk
  | add a b c => exact binary_agree _ a b c hk
  | mult a b c => exact binary_agree _ a b c hk
  | and a b c => exact binary_agree _ a b c hk
  | or a b c => exact binary_agree _ a b c hk
  | mod a b c =>
    refine agree_resolve hk fun x _ hk => agree_resolve hk fun y _ hk => ?_
    split
    · exact (raiseFault_ignoresCs .modZero).agree hk
    · exact (storeTo_ignoresCs a _).agree hk
  | not a b => exact agree_resolve hk fun x _ hk => (storeTo_ignoresCs a _).agree hk
  | rmem a b =>
    exact agree_resolve hk fun addr u hk =>
      ((storeData_ignoresCs a (u.mem.read addr.toNat)).comp (armIf_ignoresCs _)).agree hk
  | wmem a b =>
    exact agree_resolve hk fun addr _ hk => agree_resolve hk fun x u hk =>
      ((memWrite_ignoresCs addr x).comp (armIf_ignoresCs (bpCheck u.bt addr.toNat .write))).agree hk
  | jmp a => exact jumpTo_agree a hk
  | jt a b => exact branchIf_agree _ a b hk
  | jf a b => exact branchIf_agree _ a b hk
  | call a => exact execCall_agree a hk
  | ret => exact execRet_agree hk
  | out a =>
    exact agree_resolve hk fun x _ hk => (⟨fun _ _ => rfl, fun _ => rfl⟩ : IgnoresCs (send x)).agree hk
  | input a => exact (takeUnit_ignoresCs a).agree hk

/-- Settles O38: every primitive ignores the call stack but `call` and `ret`, which see its length only. -/
theorem callStackValuesAreNotRead : Obligations.CallStackValuesAreNotRead := by
  unfold Obligations.CallStackValuesAreNotRead
  intro i s k hk
  obtain ⟨t, l, hl, e, e'⟩ := exec_agree i hk
  exact ⟨t, withCs l t, e, e', hl, rfl⟩

end Sys2Proof.Machine
end

section
/-! PROOFS. A halted machine stays halted until a load or a load-state (10 R45, 60 R416): O54. -/

namespace Sys2Proof.Machine

/-! ### HALTED is cleared by load and load-state only (10 R45, 60 R416, R426) -/

/-- The part of the state that a halted machine keeps. -/
def haltPart (s : State) := (s.halted, s.faulted, s.faultCause)

/-- The end of a command changes none of HALTED, FAULTED and its cause. -/
theorem settle_haltPart (s : State) : haltPart (settle s) = haltPart s := by
  unfold settle
  split
  · rfl
  · split
    · rfl
    · rfl
    · split <;> rfl
    · split <;> rfl

theorem stepInto_of_halted {s : State} (h : s.halted = true) :
    stepInto s = .next { s with stepResult := some .notAdvanced } := if_pos h

theorem startStepInto_of_halted {s : State} (h : s.halted = true) : startStepInto s =
    .next (settle { s with flight := .single, response := none, stepResult := some .notAdvanced }) :=
  congrArg (onNext settle) (stepInto_of_halted (s := { s with flight := .single, response := none }) h)

theorem startStepOver_of_halted {s : State} (h : s.halted = true) :
    startStepOver s = .next (endStepCommand .notAdvanced { s with stepResult := some .notAdvanced }) := if_pos h

theorem stop_haltPart {s : State} (h : s.halted = true) : haltPart (stop s) = haltPart s := by
  have same : setHalted s = s := if_pos h
  unfold stop
  rw [same]
  rfl

theorem toggle_haltPart (addr : Nat) (x w r : Bool) (s : State) : haltPart (toggle addr x w r s) = haltPart s := by
  unfold toggle
  split
  · rfl
  · split
    · simp [haltPart]
    · split
      · rfl
      · simp [haltPart]

/-- No command but load and load-state touches the halt of a halted machine. -/
theorem perform_haltPart {c : Command} {s t : State} (hload : ∀ image, c ≠ .load image)
    (hrestore : ∀ bs, c ≠ .loadState bs) (hh : s.halted = true) (e : perform c s = .next t) :
    haltPart t = haltPart s := by
  unfold perform at e
  split at e
  next =>
    cases c with
    | load image => exact absurd rfl (hload image)
    | loadState bs => exact absurd rfl (hrestore bs)
    | stepInto => cases (startStepInto_of_halted hh).symm.trans e; exact settle_haltPart _
    | stepOver => cases (startStepOver_of_halted hh).symm.trans e; rfl
    | run => cases e; rfl
    | pause => cases e; rfl
    | stop => cases e; exact stop_haltPart hh
    | toggle addr x w r => cases e; exact toggle_haltPart addr x w r s
    | save => cases e; rfl
  next => cases e; rfl

/-- A command taken is the first issued where none is in flight, and else a pause or stop (42 R201). -/
theorem takePending_some {s u : State} {c : Command} (h : takePending s = some (c, u)) :
    (s.flight = .idle ∧ ∃ cs, s.pending = c :: cs ∧ u = { s with pending := cs }) ∨
    (s.flight ≠ .idle ∧ c.isLatch = true ∧ u = { s with pending := s.pending.eraseP Command.isLatch }) := by
  unfold takePending at h
  split at h
  next hf =>
    split at h <;> cases h
    exact .inl ⟨hf, _, ‹_›, rfl⟩
  all_goals
    next hf =>
      split at h <;> cases h
      exact .inr ⟨by simp [hf], List.find?_some ‹_›, rfl⟩

theorem engineMove_haltPart {s t : State} (hh : s.halted = true) (e : engineMove s = .next t) :
    haltPart t = haltPart s := by
  by_cases hf : s.flight = .idle
  · rw [engineMove, hf] at e
    cases e
    rfl
  · rw [engineMove_inFlight hf, stepInto_of_halted hh] at e
    cases e
    exact settle_haltPart _

/-! A held `in` that goes on may fault, but leaves a halted machine halted. -/

theorem storeData_keepsBits (a : Operand) (c : Raw) (s : State) : KeepsBits s (storeData a c s) :=
  composes_storeData composes_keepsBits memWrite_keepsBits writeReg_keepsBits a c s

theorem takeAfterCr_keepsBits (a : Operand) (s : State) : KeepsBits s (takeAfterCr a s) := by
  unfold takeAfterCr
  split
  · exact keepsBits_of_eq rfl rfl rfl
  next c rest _ =>
    obtain ⟨hhalted, hfaulted, hpause⟩ := storeData_keepsBits a c { s with input := rest, hold := none }
    exact ⟨hhalted, hfaulted, hpause⟩

theorem resumeHold_keepsBits (h : Hold) (s : State) : KeepsBits s (resumeHold h s) := by
  unfold resumeHold
  split
  · exact takeAfterCr_keepsBits h.dest s
  · exact exec_keepsBits (i := .input h.dest) rfl

theorem reportStep_halted (d : Decoded) (s : State) : (reportStep d s).halted = s.halted := by
  unfold reportStep reportPause
  split
  · rfl
  · split <;> rfl

theorem completeStep_halted {s : State} (old : Word) (h : s.halted = true) :
    (completeStep old s).halted = true := by
  unfold completeStep finishStep
  split
  · exact h
  · rcases decodeHere_cases s with ⟨d, -, e⟩ | ⟨-, e⟩
    · simp [e, reportStep_halted, h]
    · simp [e]

theorem resumeStep_halted {s : State} (h : Hold) (hh : s.halted = true) : (resumeStep h s).halted = true :=
  completeStep_halted _ ((resumeHold_keepsBits h { s with stepResult := none }).halted hh)

/-- A halted state to the next: halted still, with its fault as it was where no `in` holds. -/
def StaysHalted (s t : State) : Prop :=
  t.halted = true ∧ (s.hold = none → t.faulted = s.faulted ∧ t.faultCause = s.faultCause)

theorem staysHalted_of_haltPart {s t : State} (hh : s.halted = true) (h : haltPart t = haltPart s) :
    StaysHalted s t := by
  simp only [haltPart, Prod.mk.injEq] at h
  obtain ⟨hhalted, hfaulted, hcause⟩ := h
  exact ⟨hhalted.trans hh, fun _ => ⟨hfaulted, hcause⟩⟩

theorem Command.creates_iff (c : Command) :
    c.creates = true ↔ (∃ image, c = .load image) ∨ ∃ bs, c = .loadState bs := by
  cases c <;> simp [Command.creates]

/-- One move of a halted machine: it stays halted, or it performs a load or a load-state. -/
theorem advance_staysHalted {s t : State} (hh : s.halted = true) (e : advance s = .next t) :
    StaysHalted s t ∨
    (s.hold = none ∧ s.flight = .idle ∧ ∃ c cs, s.pending = c :: cs ∧ c.creates = true) := by
  cases hhold : s.hold with
  | some h =>
    rw [advance_hold hhold] at e
    cases e
    have halted : (settle (resumeStep h s)).halted = true :=
      (Prod.mk.inj (settle_haltPart _)).1.trans (resumeStep_halted h hh)
    exact .inl ⟨halted, fun hnone => absurd (hhold.symm.trans hnone) nofun⟩
  | none =>
    cases htake : takePending s with
    | none =>
      rw [advance_move hhold htake] at e
      exact .inl (staysHalted_of_haltPart hh (engineMove_haltPart hh e))
    | some cu =>
      obtain ⟨c, u⟩ := cu
      rw [advance_take hhold htake] at e
      by_cases hc : c.creates = true
      · right
        rcases takePending_some htake with ⟨hidle, cs, hpending, -⟩ | ⟨-, hlatch, -⟩
        · exact ⟨rfl, hidle, c, cs, hpending, hc⟩
        · rcases c.creates_iff.mp hc with ⟨image, rfl⟩ | ⟨bs, rfl⟩ <;> cases hlatch
      · left
        have hu : haltPart u = haltPart s := by
          rcases takePending_some htake with ⟨-, cs, -, rfl⟩ | ⟨-, -, rfl⟩ <;> rfl
        have hhu : u.halted = true := (Prod.mk.inj hu).1.trans hh
        have ht : haltPart t = haltPart u :=
          perform_haltPart (fun image h => hc (c.creates_iff.mpr (.inl ⟨image, h⟩)))
            (fun bs h => hc (c.creates_iff.mpr (.inr ⟨bs, h⟩))) hhu e
        exact staysHalted_of_haltPart hh (ht.trans hu)

/-- Settles O54: by the commands, and for a step by what the host does and by the move of the machine. -/
theorem onlyLoadClearsHalted : Obligations.OnlyLoadClearsHalted := by
  unfold Obligations.OnlyLoadClearsHalted
  refine ⟨fun c s t hload hrestore hh e => ?command, fun s t hh e => ?step⟩
  case command =>
    have kept := perform_haltPart hload hrestore hh e
    simp only [haltPart, Prod.mk.injEq] at kept
    obtain ⟨hhalted, hfaulted, hcause⟩ := kept
    exact ⟨hhalted.trans hh, hfaulted, hcause⟩
  case step =>
    rcases schedule_cases s with silent | ⟨c, r, hs⟩ | ⟨u, r, hs⟩
    · rw [step_silent silent] at e
      refine (advance_staysHalted (s := tickOff s) hh e).imp id ?_
      rintro ⟨hhold, hidle, c, cs, hpending, hc⟩
      exact ⟨silent, hhold, hidle, c, cs, hpending, c.creates_iff.mp hc⟩
    · rw [step_command hs] at e
      cases e
      exact .inl (staysHalted_of_haltPart hh rfl)
    · rw [step_supply hs] at e
      cases e
      exact .inl (staysHalted_of_haltPart hh rfl)

end Sys2Proof.Machine
end

section
/-! PROOFS. Memory (20 R71, R81) and what a write evicts from the cache (40 R151): O8, O9. -/

namespace Sys2Proof.Machine

/-- Settles O8: the read of the written cell, the reads of the others, and the canonical form. -/
theorem memoryReadsLastWrite : Obligations.MemoryReadsLastWrite := by
  unfold Obligations.MemoryReadsLastWrite
  intro m a v
  exact ⟨read_write_same m a v, fun _ hb => read_write_other m v hb, write_wf v⟩

theorem covers_iff (a : Nat) (d : Decoded) :
    covers a d = true ↔ d.pos.toNat ≤ a ∧ a < d.pos.toNat + d.span := by
  simp only [covers, Bool.and_eq_true, decide_eq_true_eq]

/-- Two emissions are one: a run suppresses both, and otherwise the second list comes after the first. -/
theorem emitAll_emitAll (ms ns : List Notification) (s : State) :
    emitAll ns (emitAll ms s) = emitAll (ms ++ ns) s := by
  by_cases hrun : s.flight = .run <;> simp [emitAll_eq, notesPlus, hrun]

/-- The evictions and the write emit one list: every removed-at, then memory-changed. -/
theorem memWrite_eq (a x : Word) (s : State) :
    memWrite a x s = { s with
      mem := s.mem.write a.toNat x.toRaw
      ic := s.ic.filter fun d => !covers a.toNat d
      notes := notesPlus s
        ((s.ic.filter (covers a.toNat)).map (fun d => .disasmRemovedAt d.pos) ++ [.memoryChanged a x]) } :=
  (emitAll_emitAll _ [.memoryChanged a x] _).trans (emitAll_eq _ _)

/-- Settles O9: the whole state after the write, and the addresses a span covers. -/
theorem memWriteEvicts : Obligations.MemWriteEvicts := by
  unfold Obligations.MemWriteEvicts
  exact fun a x s => ⟨memWrite_eq a x s, covers_iff a.toNat⟩

end Sys2Proof.Machine
end

section
/-! PROOFS. Encoding and decoding (30 R104, R114), and the classes of operand words (30 R104): O1, O2, O3. -/

namespace Sys2Proof

/-! ### Each format reads its operands back (30 R101) -/

theorem decodeF1_toRaw (f : Operand → Instr) {a : Operand} (h : [a].all Operand.wf = true) (rest : List Raw) :
    decodeF1 f (a.toRaw :: rest) = .instr (f a) rest := by
  simp only [List.all_cons, List.all_nil, Bool.and_true] at h
  simp only [decodeF1, Operand.ofRaw_toRaw h]

theorem decodeF2_toRaw (f : Operand → Operand → Instr) {a b : Operand} (h : [a, b].all Operand.wf = true)
    (rest : List Raw) : decodeF2 f (a.toRaw :: b.toRaw :: rest) = .instr (f a b) rest := by
  simp only [List.all_cons, List.all_nil, Bool.and_true, Bool.and_eq_true] at h
  obtain ⟨ha, hb⟩ := h
  simp only [decodeF2, Operand.ofRaw_toRaw ha, Operand.ofRaw_toRaw hb]

theorem decodeF3_toRaw (f : Operand → Operand → Operand → Instr) {a b c : Operand}
    (h : [a, b, c].all Operand.wf = true) (rest : List Raw) :
    decodeF3 f (a.toRaw :: b.toRaw :: c.toRaw :: rest) = .instr (f a b c) rest := by
  simp only [List.all_cons, List.all_nil, Bool.and_true, Bool.and_eq_true] at h
  obtain ⟨ha, hb, hc⟩ := h
  simp only [decodeF3, Operand.ofRaw_toRaw ha, Operand.ofRaw_toRaw hb, Operand.ofRaw_toRaw hc]

/-! ### The two directions of 30 R114 -/

/-- The opcode word selects the instruction's own constructor, and its format reads the operands back. -/
theorem decodeWords_encode {i : Instr} (h : i.wf = true) (rest : List Raw) :
    decodeWords (encode i ++ rest) = .instr i rest := by
  cases i with
  | halt | ret | noop => rfl
  | push | pop | jmp | call | out | input => exact decodeF1_toRaw _ h rest
  | set | jt | jf | not | rmem | wmem => exact decodeF2_toRaw _ h rest
  | eq | gt | add | mult | mod | and | or => exact decodeF3_toRaw _ h rest

/-- Settles O1: the layout is the encoder's definition, and the decoder undoes it constructor by constructor. -/
theorem decodeOfEncode : Obligations.DecodeOfEncode := by
  unfold Obligations.DecodeOfEncode
  exact fun i rest h => ⟨rfl, decodeWords_encode h rest⟩

/-- An instruction comes from an opcode word only, and its operands are the words up to the arity. -/
theorem eq_encode_of_decodeWords {ws : List Raw} {i : Instr} {rest : List Raw}
    (e : decodeWords ws = .instr i rest) : i.wf = true ∧ ws = encode i ++ rest := by
  cases ws with
  | nil => cases e
  | cons w0 ws =>
    change decodeOpcode w0 ws = .instr i rest at e
    by_cases h : w0.toNat ≤ 21
    · obtain ⟨-, e'⟩ | ⟨-, j, e', hwf, hopcode, hoperands⟩ := decodeOpcode_known h ws
      · cases e'.symm.trans e
      · cases e'.symm.trans e
        refine ⟨hwf, ?_⟩
        rw [encode, hopcode, hoperands, BitVec.ofNat_toNat, BitVec.setWidth_eq, List.cons_append,
          List.take_append_drop]
    · rw [decodeOpcode_unknown (by omega)] at e
      cases e

/-- Settles O2: a reserved word decodes to no instruction, and an opcode takes the words of its arity. -/
theorem encodeOfDecode : Obligations.EncodeOfDecode := by
  unfold Obligations.EncodeOfDecode
  exact fun _ _ _ => eq_encode_of_decodeWords

end Sys2Proof

namespace Sys2Proof.Machine

/-- Settles O3: one class for each range of words, and what the operand primitives make of it. -/
theorem operandClasses : Obligations.OperandClasses := by
  unfold Obligations.OperandClasses
  intro v
  refine ⟨fun h => ?literal, fun h h' => ?register, fun h => ?invalid, Operand.toRaw_ofRaw v⟩
  case literal =>
    rw [Operand.ofRaw_lit h]
    exact ⟨_, rfl, (BitVec.toNat_ofNat ..).trans (Nat.mod_eq_of_lt (by omega)), fun _ => rfl⟩
  case register =>
    rw [Operand.ofRaw_reg h h']
    exact ⟨_, rfl, Nat.mod_eq_of_lt (by omega), fun _ => rfl⟩
  case invalid =>
    rw [Operand.ofRaw_bad h]
    exact ⟨rfl, fun x s => ⟨resolve_none rfl, storeTo_bad (fun place => place v rfl) x s⟩⟩

end Sys2Proof.Machine
end

section
/-! PROOFS. What a decode at a position gives (40 R142 to R144), what it depends on (R140), and the disassembly
text (R145): O7, O4, O5, O6. -/

namespace Sys2Proof

/-- Settles O7: the decoder run on each of the written words. -/
theorem writtenWordsDecode : Obligations.WrittenWordsDecode := by
  unfold Obligations.WrittenWordsDecode
  exact ⟨rfl, rfl, rfl, rfl, rfl⟩

/-- Well-formed instructions of the same words are the same, since decoding undoes encoding (30 R114). -/
theorem encode_injective {i j : Instr} (hi : i.wf = true) (hj : j.wf = true) (h : encode i = encode j) : i = j := by
  have key := decodeWords_encode hi []
  rw [h, decodeWords_encode hj []] at key
  cases key
  rfl

end Sys2Proof

namespace Sys2Proof.Machine

/-- Settles O4: each case of a decode, recognised by its opcode word and by where its operand words would end. -/
theorem decodeAtPosition : Obligations.DecodeAtPosition := by
  unfold Obligations.DecodeAtPosition
  intro m p
  rcases decodeAt_cases m p with ⟨hop, e⟩ | ⟨hop, hend, e⟩ | ⟨hop, hend, i, e, hwf, hopcode, hoperands⟩
  · exact ⟨fun _ => e, fun h => by omega, fun h => by omega⟩
  · exact ⟨fun h => by omega, fun _ _ => e, fun _ h => by omega⟩
  · have hspan : i.span = arity (m.read p.toNat).toNat + 1 := by rw [Instr.span, ← hopcode, Instr.arity_opcode]
    exact ⟨fun h => by omega, fun _ h => by omega, fun _ _ => ⟨i, e, hwf, hopcode, hspan, hoperands⟩⟩

/-- The encoding of a decoded instruction stands at its position. -/
theorem encode_of_decodeAt {m : Memory} {p : Word} {i : Instr}
    (h : decodeAt m p = some { pos := p, body := .instr i }) :
    encode i = (List.range i.span).map fun k => m.read (p.toNat + k) := by
  rcases decodeAt_cases m p with ⟨-, e⟩ | ⟨-, -, e⟩ | ⟨-, -, j, e, -, hopcode, hoperands⟩
  · cases e.symm.trans h
  · cases e.symm.trans h
  · cases e.symm.trans h
    have word0 : BitVec.ofNat 16 i.opcode = m.read p.toNat := by
      rw [hopcode, BitVec.ofNat_toNat, BitVec.setWidth_eq]
    rw [encode, word0, hoperands, Instr.span, ← Instr.arity_opcode, hopcode, List.range_succ_eq_map, List.map_cons,
      List.map_map]
    simp only [Nat.add_zero, Function.comp_def, Nat.add_assoc, Nat.succ_eq_one_add]

theorem span_pos (d : Decoded) : 0 < d.span := by
  cases h : d.body <;> simp [Decoded.span, Body.span, h, Instr.span]

/-- A decode depends on the words of its span only (40 R140): they hold the opcode, and with it the encoding of the
instruction. -/
theorem decodeAt_congr {m n : Memory} {p : Word} {d : Decoded} (h : decodeAt m p = some d)
    (hsame : ∀ k, k < d.span → n.read (p.toNat + k) = m.read (p.toNat + k)) : decodeAt n p = some d := by
  have word0 : n.read p.toNat = m.read p.toNat := hsame 0 (span_pos d)
  obtain ⟨hunknown, -, hinstr⟩ := decodeAtPosition n p
  rw [word0] at hunknown hinstr
  rcases decodeAt_cases m p with ⟨hop, e⟩ | ⟨-, -, e⟩ | ⟨hop, hend, i, e, hwf, hopcode, -⟩
  · cases e.symm.trans h
    exact hunknown hop
  · cases e.symm.trans h
  · cases e.symm.trans h
    obtain ⟨j, e', hwf', -, hspan', -⟩ := hinstr hop hend
    have hspan : j.span = i.span := by rw [hspan', ← hopcode, Instr.arity_opcode, Instr.span]
    have same : encode j = encode i := by
      rw [encode_of_decodeAt e, encode_of_decodeAt e', hspan]
      exact List.map_congr_left fun k hk => hsame k (List.mem_range.mp hk)
    rw [e', encode_injective hwf' hwf same]

/-- Settles O5: the words of the span give the same opcode and the same encoding. -/
theorem decodeReadsItsSpan : Obligations.DecodeReadsItsSpan := by
  unfold Obligations.DecodeReadsItsSpan
  exact fun _ _ _ _ => decodeAt_congr

/-! ### The disassembly text (40 R145) -/

theorem hex4_eq_fourDigits (w : Raw) : hex4 w = fourDigits w := rfl

theorem toRaw_lit_toNat (w : Word) : (Operand.lit w).toRaw.toNat = w.toNat :=
  (BitVec.toNat_ofNat ..).trans (Nat.mod_eq_of_lt (by omega))

theorem toRaw_reg_toNat (r : Fin 8) : (Operand.reg r).toRaw.toNat = 32768 + r.val :=
  (BitVec.toNat_ofNat ..).trans (Nat.mod_eq_of_lt (by simp only [Config.regBase]; omega))

theorem reg_text (r : Fin 8) :
    (Operand.reg r).text = ["R0", "R1", "R2", "R3", "R4", "R5", "R6", "R7"].getD r.val "" := by
  revert r
  decide

theorem operandText_reg (op k : Nat) (r : Fin 8) : operandText op k (Operand.reg r).toRaw = (Operand.reg r).text := by
  rw [operandText, toRaw_reg_toNat, if_pos (by omega), Nat.add_sub_cancel_left, reg_text]

/-- A well-formed operand that is no register reference has a word outside the register range. -/
theorem operandText_of_not_reg (op k : Nat) {o : Operand} (hwf : o.wf = true) (h : ∀ r, o ≠ .reg r) :
    operandText op k o.toRaw = plainText op k o.toRaw := by
  apply if_neg
  cases o with
  | lit w => rw [toRaw_lit_toNat]; omega
  | reg r => exact absurd rfl (h r)
  | bad v =>
    simp only [Operand.wf, decide_eq_true_eq] at hwf
    simp only [Operand.toRaw]
    omega

/-- Any operand but the first of `set` is a register's name or four digits. -/
theorem operandText_eq {op k : Nat} {o : Operand} (hwf : o.wf = true) (h : ¬ (op = 1 ∧ k = 0)) :
    operandText op k o.toRaw = o.text := by
  cases o with
  | reg r => exact operandText_reg op k r
  | lit w => rw [operandText_of_not_reg op k hwf nofun, plainText, if_neg h]; rfl
  | bad v => rw [operandText_of_not_reg op k hwf nofun, plainText, if_neg h]; rfl

/-- The first operand of `set` is a register's name or the open text. -/
theorem operandText_strict {o : Operand} (hwf : o.wf = true) : operandText 1 0 o.toRaw = o.strictText := by
  cases o with
  | reg r => exact operandText_reg 1 0 r
  | lit w => rw [operandText_of_not_reg 1 0 hwf nofun, plainText, if_pos ⟨rfl, rfl⟩]; rfl
  | bad v => rw [operandText_of_not_reg 1 0 hwf nofun, plainText, if_pos ⟨rfl, rfl⟩]; rfl

theorem mnemonic_eq (i : Instr) : i.mnemonic = mnemonics.getD i.opcode "" := by cases i <;> rfl

theorem operands_length_le (i : Instr) : i.operands.length ≤ 3 := i.arity_opcode ▸ arity_le i.opcode

/-- Only `set` has a strict operand (30 R112). -/
theorem operandTexts_eq {i : Instr} (h : i.opcode ≠ 1) : i.operandTexts = i.operands.map Operand.text := by
  cases i with
  | set a b => exact absurd rfl h
  | _ => rfl

theorem set_text {a b : Operand} (h : (Instr.set a b).wf = true) :
    (Instr.set a b).text = textRule 1 [a.toRaw, b.toRaw] := by
  simp only [Instr.wf, Instr.operands, List.all_cons, List.all_nil, Bool.and_true, Bool.and_eq_true] at h
  obtain ⟨ha, hb⟩ := h
  rw [textRule, operandText_strict ha, operandText_eq hb (by decide)]
  exact (String.append_assoc ..).symm

/-- The text of an instruction without a strict operand, by the number of its operands. -/
theorem text_of_opcode_ne {i : Instr} (hop : i.opcode ≠ 1) (h : i.wf = true) :
    i.text = textRule i.opcode (i.operands.map Operand.toRaw) := by
  have hlen := operands_length_le i
  have texts : ∀ o ∈ i.operands, ∀ k, operandText i.opcode k o.toRaw = o.text := fun o ho k =>
    operandText_eq (List.all_eq_true.mp h o ho) fun hset => hop hset.1
  rw [Instr.text, operandTexts_eq hop, mnemonic_eq]
  rcases hops : i.operands with _ | ⟨a, _ | ⟨b, _ | ⟨c, _ | ⟨d, l⟩⟩⟩⟩ <;> rw [hops] at hlen texts
  · rfl
  · simp [textRule, joinTexts, texts]
  · simp [textRule, joinTexts, texts, String.append_assoc]
  · simp [textRule, joinTexts, texts, String.append_assoc]
  · simp only [List.length_cons] at hlen
    omega

theorem instr_text {i : Instr} (h : i.wf = true) : i.text = textRule i.opcode (i.operands.map Operand.toRaw) := by
  by_cases hop : i.opcode = 1
  · cases i with
    | set a b => exact set_text h
    | _ => cases hop
  · exact text_of_opcode_ne hop h

/-- Settles O6: the text by the number of operands, and the digits of a placeholder's word. -/
theorem textOfInstruction : Obligations.TextOfInstruction := by
  unfold Obligations.TextOfInstruction
  exact ⟨fun i h => instr_text h, hex4_eq_fourDigits⟩

end Sys2Proof.Machine
end

section
/-! PROOFS. The instruction cache: an insertion (40 R152), and that the cache is transparent (R150): O46, O45. -/

namespace Sys2Proof.Machine

/-! ### Insertion (40 R152) -/

theorem lookup_cons (e : Decoded) (es : List Decoded) (p : Word) :
    cacheLookup (e :: es) p = if e.pos = p then some e else cacheLookup es p := by
  unfold cacheLookup
  rw [List.find?_cons]
  by_cases h : e.pos = p <;> simp [h]

theorem lookup_cachePut_same (d : Decoded) (ic : List Decoded) : cacheLookup (cachePut d ic) d.pos = some d := by
  induction ic with
  | nil => simp [cachePut, lookup_cons]
  | cons e es ih =>
    unfold cachePut
    split
    · simp [lookup_cons]
    · split
      · simp [lookup_cons]
      next hne => rw [lookup_cons, if_neg (Ne.symm hne), ih]

theorem lookup_cachePut_other {d : Decoded} {p : Word} (h : p ≠ d.pos) (ic : List Decoded) :
    cacheLookup (cachePut d ic) p = cacheLookup ic p := by
  induction ic with
  | nil => rw [cachePut, lookup_cons, if_neg h.symm]
  | cons e es ih =>
    unfold cachePut
    split
    · rw [lookup_cons, if_neg h.symm]
    · split
      next heq => rw [lookup_cons, if_neg h.symm, lookup_cons, if_neg (heq ▸ h.symm)]
      · rw [lookup_cons, lookup_cons, ih]

theorem sameAs_iff (d e : Decoded) : d.sameAs e = true ↔ d.pos = e.pos ∧ d.body.text = e.body.text := by
  simp only [Decoded.sameAs, Bool.and_eq_true, Bool.or_eq_true, decide_eq_true_eq]
  exact and_congr_right fun _ => ⟨fun h => h.elim (congrArg Body.text) id, .inr⟩

theorem cacheInsert_absent {d : Decoded} {s : State} (h : cacheLookup s.ic d.pos = none) :
    cacheInsert d s = { s with ic := cachePut d s.ic, notes := notesPlus s [.disasmInsertedAt d.pos] } := by
  unfold cacheInsert
  rw [h]
  exact emit_eq _ _

theorem cacheInsert_same {d e : Decoded} {s : State} (h : cacheLookup s.ic d.pos = some e)
    (htext : e.body.text = d.body.text) : cacheInsert d s = s := by
  unfold cacheInsert
  rw [h]
  exact if_pos ((sameAs_iff e d).mpr ⟨(mem_of_lookup h).2, htext⟩)

theorem cacheInsert_differs {d e : Decoded} {s : State} (h : cacheLookup s.ic d.pos = some e)
    (htext : e.body.text ≠ d.body.text) :
    cacheInsert d s = { s with ic := cachePut d s.ic, notes := notesPlus s [.disasmUpdatedAt d.pos] } := by
  unfold cacheInsert
  rw [h]
  exact (if_neg fun same => htext ((sameAs_iff e d).mp same).2).trans (emit_eq _ _)

/-- Settles O46: the three insertions, and the lookups after a put. -/
theorem cacheInsertCases : Obligations.CacheInsertCases := by
  unfold Obligations.CacheInsertCases
  intro d s
  exact ⟨cacheInsert_absent, fun e h _ => cacheInsert_same h, fun e h => cacheInsert_differs h,
    fun _ => ⟨lookup_cachePut_same d s.ic, fun p hp => lookup_cachePut_other hp s.ic⟩⟩

/-- An insertion changes nothing, or puts the record in and notifies. -/
theorem cacheInsert_cases (d : Decoded) (s : State) :
    cacheInsert d s = s ∨ ∃ ns, cacheInsert d s = { s with ic := cachePut d s.ic, notes := ns } := by
  cases h : cacheLookup s.ic d.pos with
  | none => exact .inr ⟨_, cacheInsert_absent h⟩
  | some e =>
    by_cases htext : e.body.text = d.body.text
    · exact .inl (cacheInsert_same h htext)
    · exact .inr ⟨_, cacheInsert_differs h htext⟩

/-! ### Transparency (40 R150) -/

theorem cacheInsert_coherent {d : Decoded} {s : State} (hd : decodeAt s.mem s.pc = some d) (h : CacheCoherent s) :
    CacheCoherent (cacheInsert d s) := by
  rcases cacheInsert_cases d s with e | ⟨ns, e⟩ <;> rw [e]
  · exact h
  · intro e he
    rcases mem_cachePut he with rfl | he
    · exact decodeAt_pos hd ▸ hd
    · exact h e he

/-- A write evicts every record whose words it could change, and the others decode as before (40 R140, R151). -/
theorem memWrite_coherent (a x : Word) {s : State} (h : CacheCoherent s) : CacheCoherent (memWrite a x s) := by
  intro d hd
  rw [memWrite_ic, List.mem_filter, Bool.not_eq_true'] at hd
  obtain ⟨hmem, hcovers⟩ := hd
  rw [memWrite_mem]
  refine decodeAt_congr (h d hmem) fun k hk => read_write_other _ _ fun haddr => ?_
  have covered : covers a.toNat d = true := (covers_iff _ d).mpr ⟨by omega, by omega⟩
  exact Bool.false_ne_true (hcovers.symm.trans covered)

/-- With a coherent cache a fetch is a fresh decode, or its range fault (40 R149). -/
theorem fetch_cases {s : State} (h : CacheCoherent s) :
    (∃ d, decodeAt s.mem s.pc = some d ∧ fetch s = .ok d (cacheInsert d s)) ∨
    (decodeAt s.mem s.pc = none ∧ fetch s = .stop (raiseFault .decodeRange s)) := by
  cases hd : decodeAt s.mem s.pc with
  | some d => exact .inl ⟨d, rfl, fetch_ok h hd⟩
  | none => exact .inr ⟨rfl, fetch_stop h hd⟩

/-- Settles O45: a store keeps the cache coherent, so that the fetch after it is a decode of what was written. -/
theorem cacheIsTransparent : Obligations.CacheIsTransparent := by
  unfold Obligations.CacheIsTransparent
  intro s h
  refine ⟨fun d hd => ⟨_, fetch_ok h hd, cacheInsert_coherent hd h⟩, fetch_stop h,
    fun a x => ⟨memWrite_coherent a x h, fun d u e => ?_⟩⟩
  rcases fetch_cases (memWrite_coherent a x h) with ⟨d', hd, e'⟩ | ⟨-, e'⟩
  · cases e'.symm.trans e
    rwa [memWrite_mem, memWrite_pc] at hd
  · cases e'.symm.trans e

end Sys2Proof.Machine
end

section
/-! PROOFS. Every step keeps the invariant (40 R150; 10 R47, R48, R52; 00 R10): O60. The invariant is taken in two
parts: how the data is held, which every operation keeps, and the agreement of the status fields, which is broken
while a step is in progress and mended by its end (42 R180, R198). -/

namespace Sys2Proof.Machine

/-! ### The two parts of the invariant -/

/-- The data is held as it must be, and a cause stands exactly where a fault has halted the machine. -/
structure DataInv (s : State) : Prop where
  memWf : s.mem.wf
  cacheSorted : s.ic.Pairwise fun d e => d.pos.toNat < e.pos.toNat
  cacheCoherent : CacheCoherent s
  bpTable : BpTableWf s.bt
  osFits : Fits s.params.osCapacity s.os
  csFits : Fits s.params.csCapacity s.cs
  faultedCause : s.faulted = true ↔ s.faultCause ≠ .none
  faultedHalted : s.faulted = true → s.halted = true

/-- ES, HALTED, the command in flight and the `in` that holds agree, as they do between steps. -/
structure StatusInv (s : State) : Prop where
  esHalted : s.es = .halted ↔ s.halted = true ∧ s.flight ≠ .run
  esRunning : s.es = .running ↔ s.flight = .run
  holdInFlight : s.hold.isSome = true → s.flight ≠ .idle ∧ s.halted = false
  singleHolds : s.flight = .single → s.hold.isSome = true

theorem inv_iff (s : State) : s.Inv ↔ DataInv s ∧ StatusInv s where
  mp := fun h => ⟨{ h with }, { h with }⟩
  mpr := fun ⟨hd, hs⟩ => { hd, hs with }

/-- The fields that `DataInv` speaks of. -/
def dataPart (s : State) := (s.mem, s.ic, s.bt, s.os, s.cs, s.params, s.halted, s.faulted, s.faultCause)

theorem DataInv.congr {s t : State} (hs : DataInv s) (h : dataPart t = dataPart s) : DataInv t := by
  simp only [dataPart, Prod.mk.injEq] at h
  obtain ⟨hmem, hic, hbt, hos, hcs, hparams, hhalted, hfaulted, hcause⟩ := h
  obtain ⟨memWf, cacheSorted, cacheCoherent, bpTable, osFits, csFits, faultedCause, faultedHalted⟩ := hs
  rw [CacheCoherent, ← hmem, ← hic] at cacheCoherent
  rw [← hmem] at memWf
  rw [← hic] at cacheSorted
  rw [← hbt] at bpTable
  rw [← hparams, ← hos] at osFits
  rw [← hparams, ← hcs] at csFits
  rw [← hfaulted, ← hcause] at faultedCause
  rw [← hfaulted, ← hhalted] at faultedHalted
  exact ⟨memWf, cacheSorted, cacheCoherent, bpTable, osFits, csFits, faultedCause, faultedHalted⟩

/-! ### Every operation keeps the data -/

theorem DataInv.fault {c : FaultCause} (hc : c ≠ .none) {s : State} (h : DataInv s) : DataInv (raiseFault c s) := by
  rw [raiseFault_eq]
  exact { h with faultedCause := iff_of_true rfl hc, faultedHalted := fun _ => rfl }

theorem DataInv.halt {s : State} (h : DataInv s) : DataInv { s with halted := true } :=
  { h with faultedHalted := fun _ => rfl }

theorem DataInv.emit {s : State} (n : Notification) (h : DataInv s) : DataInv (emit n s) :=
  h.congr (by simp [dataPart])

theorem DataInv.write {s : State} (a x : Word) (h : DataInv s) : DataInv (memWrite a x s) := by
  have hmem := memWrite_wf a x h.memWf
  have hcoherent := memWrite_coherent a x h.cacheCoherent
  rw [memWrite_eq] at hmem hcoherent ⊢
  exact { h with memWf := hmem, cacheSorted := h.cacheSorted.filter _, cacheCoherent := hcoherent }

theorem DataInv.insert {d : Decoded} {s : State} (h : DataInv s) (hd : decodeAt s.mem s.pc = some d) :
    DataInv (cacheInsert d s) := by
  have hcoherent := cacheInsert_coherent hd h.cacheCoherent
  rcases cacheInsert_cases d s with e | ⟨ns, e⟩ <;> rw [e] at hcoherent ⊢
  · exact h
  · exact { h with cacheSorted := cachePut_sorted h.cacheSorted, cacheCoherent := hcoherent }

/-- One more entry fits where the capacity is not reached (60 R412). -/
theorem fits_push {cap : Option Nat} {l : List Word} (x : Word) (h : Fits cap l) (hroom : atCapacity cap l = false) :
    Fits cap (l ++ [x]) := by
  intro n hn
  have hle : l.length ≤ n := h n hn
  have hne : cap ≠ some l.length := of_decide_eq_false hroom
  rw [hn, ne_eq, Option.some.injEq] at hne
  rw [List.length_append, List.length_singleton]
  omega

theorem fits_dropLast {cap : Option Nat} {l : List Word} (h : Fits cap l) : Fits cap l.dropLast := fun n hn =>
  l.length_dropLast ▸ (Nat.sub_le ..).trans (h n hn)

theorem DataInv.pushOs {s : State} (x : Word) (h : DataInv s)
    (hroom : atCapacity s.params.osCapacity s.os = false) : DataInv (pushOs x s) := by
  rw [pushOs_eq]
  exact { h with osFits := fits_push x h.osFits hroom }

theorem DataInv.pushCs {s : State} (x : Word) (h : DataInv s)
    (hroom : atCapacity s.params.csCapacity s.cs = false) : DataInv (pushCs x s) := by
  rw [pushCs_eq]
  exact { h with csFits := fits_push x h.csFits hroom }

theorem DataInv.dropOs {s : State} (h : DataInv s) : DataInv (dropOs s) := by
  rw [dropOs_eq]
  exact { h with osFits := fits_dropLast h.osFits }

theorem DataInv.dropCsIfAny {s : State} (h : DataInv s) : DataInv (dropCsIfAny s) := by
  rw [dropCsIfAny_eq]
  exact { h with csFits := fits_dropLast h.csFits }

/-- Between two states the data part of the invariant is kept. -/
def KeepsData (s t : State) : Prop := DataInv s → DataInv t

theorem composes_keepsData : Composes KeepsData where
  refl _ := id
  trans _ _ _ h₁ h₂ := h₂ ∘ h₁
  fault _ _ hc := DataInv.fault hc
  arm _ _ h := h.congr rfl

theorem writeReg_keepsData (r : Fin 8) (x : Word) (s : State) : KeepsData s (writeReg r x s) := fun h =>
  h.congr (by simp [dataPart])

theorem exec_keepsData {i : Instr} {s t : State} (e : exec i s = .next t) : KeepsData s t := by
  apply exec_composes composes_keepsData (fun a x _ => DataInv.write a x) writeReg_keepsData i s t e
  case hhalt => exact fun _ s h => h.halt.emit .halted
  case hpc => exact fun _ p s h => h.congr rfl
  case hpush => exact fun _ x s hroom h => h.pushOs x hroom
  case hpop => exact fun _ s _ => DataInv.dropOs
  case hcall =>
    intro _ x s hos hcs h
    exact ((h.pushOs s.pc hos).pushCs s.pc (by rw [pushOs_eq]; exact hcs)).congr rfl
  case hret => exact fun _ x s h => h.dropOs.dropCsIfAny.congr rfl
  case hsend => exact fun _ x s h => h.congr rfl
  case hin => exact fun _ s l o h => h.congr rfl

/-! ### A held `in` goes on (46 R290, R292) -/

section
variable {R : State → State → Prop} (h : Composes R) (hm : ∀ a x s, R s (memWrite a x s))
  (hr : ∀ r x s, R s (writeReg r x s)) (hin : ∀ (s : State) (l : List Raw) (o : Option Hold),
    R s { s with input := l, hold := o })
include h hm hr hin

theorem takeAfterCr_composes (a : Operand) (s : State) : R s (takeAfterCr a s) := by
  unfold takeAfterCr
  split
  · exact hin s s.input _
  · exact h.trans _ _ _ (hin _ _ _) (composes_storeData h hm hr a _ _)

/-- What can happen when a held `in` goes on, in terms of its primitives. -/
theorem resumeHold_composes (w : Hold) (s : State) : R s (resumeHold w s) := by
  unfold resumeHold
  split
  · exact takeAfterCr_composes h hm hr hin w.dest s
  · exact exec_composes h hm hr (.input w.dest) s _ rfl nofun (by simp) (by simp) (by simp) (by simp) nofun (by simp)
      fun _ => hin

end

theorem resumeHold_keepsData (w : Hold) (s : State) : KeepsData s (resumeHold w s) :=
  resumeHold_composes composes_keepsData (fun a x _ => DataInv.write a x) writeReg_keepsData
    (fun _ _ _ h => h.congr rfl) w s

/-! ### The end of a step -/

theorem reportStep_keepsData (d : Decoded) (s : State) : KeepsData s (reportStep d s) := by
  refine fun h => h.congr ?_
  unfold reportStep reportPause
  split
  · rfl
  · split <;> rfl

theorem decodeHere_keepsData (s : State) : KeepsData s (decodeHere s).state := by
  rcases decodeHere_cases s with ⟨d, hd, e⟩ | ⟨-, e⟩ <;> rw [e]
  · exact fun h => h.insert hd
  · exact DataInv.fault (by decide)

/-- A step that has ended or holds stays as it is; else it decodes at the new PC and reports (42 R185 to R189). -/
theorem completeStep_cases (old : Word) (s : State) :
    ((s.stepResult.isSome = true ∨ s.hold.isSome = true) ∧ completeStep old s = s) ∨
    (s.stepResult = none ∧ s.hold = none ∧
      ((∃ d, decodeAt s.mem s.pc = some d ∧
        completeStep old s = reportStep d (emit (.decodeViewChanged old s.pc) (cacheInsert d s))) ∨
      completeStep old s = raiseFault .decodeRange s)) := by
  by_cases hdone : s.stepResult.isSome = true ∨ s.hold.isSome = true
  · exact .inl ⟨hdone, completeStep_done hdone⟩
  · right
    simp only [not_or, Option.not_isSome_iff_eq_none] at hdone
    obtain ⟨hresult, hhold⟩ := hdone
    refine ⟨hresult, hhold, ?_⟩
    rcases decodeHere_cases s with ⟨d, hd, -⟩ | ⟨-, e⟩
    · exact .inl ⟨d, hd, completeStep_report hresult hhold hd⟩
    · exact .inr (by simp [completeStep, hresult, hhold, finishStep, e])

theorem completeStep_keepsData (old : Word) (s : State) : KeepsData s (completeStep old s) := by
  intro h
  rcases completeStep_cases old s with ⟨-, e⟩ | ⟨-, -, ⟨d, hd, e⟩ | e⟩ <;> rw [e]
  · exact h
  · exact reportStep_keepsData d _ ((h.insert hd).emit _)
  · exact h.fault (by decide)

/-! ### How a step leaves the status fields -/

/-- ES and the command in flight, which nothing between the start and the end of a step changes. -/
def commandPart (s : State) := (s.es, s.flight)

theorem exec_commandPart {i : Instr} {s t : State} (e : exec i s = .next t) : commandPart t = commandPart s := by
  have control := exec_controlPart e
  simp only [controlPart, Prod.mk.injEq] at control
  obtain ⟨-, hes, -, hflight, -⟩ := control
  rw [commandPart, commandPart, hes, hflight]

theorem resumeHold_commandPart (w : Hold) (s : State) : commandPart (resumeHold w s) = commandPart s := by
  apply resumeHold_composes (composes_eq commandPart ?_ ?_) ?_ ?_ ?_ w s
  all_goals simp [commandPart]

theorem reportStep_commandPart (d : Decoded) (s : State) : commandPart (reportStep d s) = commandPart s := by
  unfold reportStep reportPause
  split
  · rfl
  · split <;> rfl

theorem completeStep_commandPart (old : Word) (s : State) : commandPart (completeStep old s) = commandPart s := by
  rcases completeStep_cases old s with ⟨-, e⟩ | ⟨-, -, ⟨d, -, e⟩ | e⟩ <;> rw [e]
  · rw [reportStep_commandPart]
    simp [commandPart]
  · simp [commandPart]

/-- A step in progress has no result, or it has faulted and the machine is halted (42 R188). -/
def FaultReported (s : State) : Prop := s.stepResult = none ∨ (s.stepResult = some .fault ∧ s.halted = true)

/-- Between two states of a step, that a fault is reported is kept. -/
def KeepsReport (s t : State) : Prop := FaultReported s → FaultReported t

theorem keepsReport_of_eq {s t : State} (hresult : t.stepResult = s.stepResult)
    (hhalted : s.halted = true → t.halted = true) : KeepsReport s t :=
  Or.imp hresult.trans (And.imp hresult.trans hhalted)

theorem composes_keepsReport : Composes KeepsReport where
  refl _ := id
  trans _ _ _ h₁ h₂ := h₂ ∘ h₁
  fault c s _ _ := .inr ⟨raiseFault_stepResult c s, raiseFault_halted c s⟩
  arm _ _ := id

theorem memWrite_keepsReport (a x : Word) (s : State) : KeepsReport s (memWrite a x s) :=
  keepsReport_of_eq (memWrite_stepResult a x s) (by simp)

theorem writeReg_keepsReport (r : Fin 8) (x : Word) (s : State) : KeepsReport s (writeReg r x s) :=
  keepsReport_of_eq (writeReg_stepResult r x s) (by simp)

theorem exec_keepsReport {i : Instr} {s t : State} (e : exec i s = .next t) : KeepsReport s t := by
  apply exec_composes composes_keepsReport memWrite_keepsReport writeReg_keepsReport i s t e
  all_goals
    intros
    apply keepsReport_of_eq <;> simp [pushOs_eq, pushCs_eq, dropOs_eq, dropCsIfAny_eq, send]

/-- The semantics of a step are over: it has faulted or has no result yet, and it holds only where it can go on. -/
structure Performed (s : State) : Prop where
  report : FaultReported s
  hold : s.hold = none ∨ (s.stepResult = none ∧ s.halted = false)

theorem storeData_hold (a : Operand) (c : Raw) (s : State) : (storeData a c s).hold = s.hold :=
  composes_storeData (composes_eq State.hold (by simp) (by simp)) (by simp) (by simp) a c s

/-- An `in` that holds has changed neither HALTED nor the result. -/
def HoldsUnchanged (s t : State) : Prop :=
  t.hold = none ∨ (t.stepResult = s.stepResult ∧ t.halted = s.halted)

theorem takeAfterCr_hold (a : Operand) (s : State) : HoldsUnchanged s (takeAfterCr a s) := by
  unfold takeAfterCr
  split
  · exact .inr ⟨rfl, rfl⟩
  · exact .inl (storeData_hold a _ _)

theorem takeUnit_hold (a : Operand) (s : State) : HoldsUnchanged s (takeUnit a s) := by
  unfold takeUnit
  split
  · exact .inr ⟨rfl, rfl⟩
  · split
    · exact takeAfterCr_hold a _
    · exact .inl (storeData_hold a _ _)

theorem performed_of_holdsUnchanged {s t : State} (hresult : s.stepResult = none) (hhalted : s.halted = false)
    (hreport : KeepsReport s t) (h : HoldsUnchanged s t) : Performed t :=
  ⟨hreport (.inl hresult), h.imp id (And.imp (·.trans hresult) (·.trans hhalted))⟩

theorem exec_holdsUnchanged {i : Instr} {s t : State} (hhold : s.hold = none) (e : exec i s = .next t) :
    HoldsUnchanged s t := by
  cases i with
  | input a => cases e; exact takeUnit_hold a s
  | _ => exact .inl ((Prod.mk.inj (exec_input_hold e nofun)).2.trans hhold)

theorem resumeHold_performed {w : Hold} {s : State} (hresult : s.stepResult = none) (hhalted : s.halted = false) :
    Performed (resumeHold w s) := by
  refine performed_of_holdsUnchanged hresult hhalted ?report ?hold
  case report =>
    exact resumeHold_composes composes_keepsReport memWrite_keepsReport writeReg_keepsReport (fun _ _ _ => id) w s
  case hold =>
    unfold resumeHold
    split
    · exact takeAfterCr_hold w.dest s
    · exact takeUnit_hold w.dest s

/-- A step of a machine that was not halted has been completed: it holds, or it has a result, which says whether the
machine has halted (42 R186, R188). -/
structure Reported (s : State) : Prop where
  waits : s.stepResult = none → s.hold.isSome = true ∧ s.halted = false
  ends : ∀ r, s.stepResult = some r →
    s.hold = none ∧ r ≠ .notAdvanced ∧ (s.halted = true ↔ r ≠ .continue ∧ r ≠ .paused)

theorem reported_of_fault {s : State} (hresult : s.stepResult = some .fault) (hhalted : s.halted = true)
    (hhold : s.hold = none) : Reported s where
  waits h := by cases hresult.symm.trans h
  ends r h := by
    cases hresult.symm.trans h
    exact ⟨hhold, by decide, iff_of_true hhalted (by decide)⟩

theorem reported_raiseFault (c : FaultCause) {s : State} (hhold : s.hold = none) : Reported (raiseFault c s) :=
  reported_of_fault (raiseFault_stepResult c s) (raiseFault_halted c s) ((raiseFault_hold c s).trans hhold)

theorem reportStep_reported (d : Decoded) {s : State} (hhold : s.hold = none) : Reported (reportStep d s) := by
  unfold reportStep reportPause
  split
  next hhalted =>
    exact ⟨nofun, fun r h => by cases h; exact ⟨hhold, by decide, iff_of_true hhalted (by decide)⟩⟩
  next hhalted =>
    split
    · exact ⟨nofun, fun r h => by cases h; exact ⟨hhold, by decide, iff_of_false hhalted (by decide)⟩⟩
    · exact ⟨nofun, fun r h => by cases h; exact ⟨hhold, by decide, iff_of_false hhalted (by decide)⟩⟩

theorem completeStep_reported (old : Word) {s : State} (h : Performed s) : Reported (completeStep old s) := by
  rcases completeStep_cases old s with ⟨hdone, e⟩ | ⟨-, hhold, ⟨d, -, e⟩ | e⟩ <;> rw [e]
  · rcases h.hold with hhold | ⟨hresult, hhalted⟩
    · rcases h.report with hresult | ⟨hresult, hhalted⟩
      · simp [hresult, hhold] at hdone
      · exact reported_of_fault hresult hhalted hhold
    · refine ⟨fun _ => ⟨?_, hhalted⟩, fun r hr => by cases hresult.symm.trans hr⟩
      simpa [hresult] using hdone
  · exact reportStep_reported d (by simp [hhold])
  · exact reported_raiseFault .decodeRange hhold

/-! ### Step-into -/

/-- A step-into begins: a command is in flight, nothing holds, and ES is as the invariant has it. -/
structure StepStart (s : State) : Prop where
  inFlight : s.flight ≠ .idle
  hold : s.hold = none
  esRunning : s.es = .running ↔ s.flight = .run
  esHalted : s.es = .halted ↔ s.halted = true ∧ s.flight ≠ .run

/-- The ways a step-into of a coherent machine can end (42 R187). -/
theorem stepInto_cases {s t : State} (hc : CacheCoherent s) (e : stepInto s = .next t) :
    (s.halted = true ∧ t = { s with stepResult := some .notAdvanced }) ∨
    (s.halted = false ∧
      (t = raiseFault .decodeRange { s with stepResult := none } ∨
      ∃ d, decodeAt s.mem s.pc = some d ∧
        (t = raiseFault .pcRange (cacheInsert d { s with stepResult := none }) ∨
        ∃ p u, execBody d.body { cacheInsert d { s with stepResult := none } with pc := p } = .next u ∧
          t = completeStep s.pc u))) := by
  by_cases hhalted : s.halted = true
  · rw [stepInto_of_halted hhalted] at e
    cases e
    exact .inl ⟨hhalted, rfl⟩
  · rw [Bool.not_eq_true] at hhalted
    refine .inr ⟨hhalted, ?_⟩
    rcases fetch_cases (s := { s with stepResult := none }) hc with ⟨d, hd, hf⟩ | ⟨-, hf⟩
    · rw [stepInto_ok hhalted hf] at e
      refine .inr ⟨d, hd, ?_⟩
      unfold advancePc at e
      split at e
      next hadvance =>
        cases e
        exact .inl rfl
      next u hadvance =>
        split at hadvance <;> cases hadvance
        cases hbody : execBody d.body { cacheInsert d { s with stepResult := none } with
          pc := BitVec.ofNat 15 ((cacheInsert d { s with stepResult := none }).pc.toNat + d.span) } with
        | next u =>
          rw [hbody] at e
          cases e
          exact .inr ⟨_, u, hbody, by rw [cacheInsert_pc]⟩
        | fault r => cases r
        | refused r => rw [hbody] at e; cases e
    · rw [stepInto_stop hhalted hf] at e
      cases e
      exact .inl rfl

theorem execBody_keepsData {b : Body} {s t : State} (e : execBody b s = .next t) : KeepsData s t := by
  cases b with
  | instr i => exact exec_keepsData e
  | unknown w => cases e; exact DataInv.fault (by decide)

theorem execBody_commandPart {b : Body} {s t : State} (e : execBody b s = .next t) :
    commandPart t = commandPart s := by
  cases b with
  | instr i => exact exec_commandPart e
  | unknown w => cases e; simp [commandPart]

theorem execBody_performed {b : Body} {s t : State} (hresult : s.stepResult = none) (hhalted : s.halted = false)
    (hhold : s.hold = none) (e : execBody b s = .next t) : Performed t := by
  cases b with
  | instr i => exact performed_of_holdsUnchanged hresult hhalted (exec_keepsReport e) (exec_holdsUnchanged hhold e)
  | unknown w =>
    cases e
    exact ⟨.inr ⟨raiseFault_stepResult _ s, raiseFault_halted _ s⟩, .inl ((raiseFault_hold _ s).trans hhold)⟩

theorem stepInto_keepsData {s t : State} (e : stepInto s = .next t) : KeepsData s t := by
  intro h
  have start : DataInv { s with stepResult := none } := h.congr rfl
  rcases stepInto_cases h.cacheCoherent e with ⟨-, rfl⟩ | ⟨-, rfl | ⟨d, hd, rfl | ⟨p, u, hbody, rfl⟩⟩⟩
  · exact h.congr rfl
  · exact start.fault (by decide)
  · exact (start.insert hd).fault (by decide)
  · exact completeStep_keepsData _ _ (execBody_keepsData hbody ((start.insert hd).congr rfl))

theorem stepInto_commandPart {s t : State} (hc : CacheCoherent s) (e : stepInto s = .next t) :
    commandPart t = commandPart s := by
  rcases stepInto_cases hc e with ⟨-, rfl⟩ | ⟨-, rfl | ⟨d, hd, rfl | ⟨p, u, hbody, rfl⟩⟩⟩
  · rfl
  · simp [commandPart]
  · simp [commandPart]
  · rw [completeStep_commandPart, execBody_commandPart hbody]
    simp [commandPart]

theorem stepInto_reported {s t : State} (hc : CacheCoherent s) (hhold : s.hold = none) (hhalted : s.halted = false)
    (e : stepInto s = .next t) : Reported t := by
  rcases stepInto_cases hc e with ⟨h, -⟩ | ⟨-, rfl | ⟨d, hd, rfl | ⟨p, u, hbody, rfl⟩⟩⟩
  · rw [hhalted] at h
    cases h
  · exact reported_raiseFault _ hhold
  · exact reported_raiseFault _ (by simp [hhold])
  · exact completeStep_reported _ (execBody_performed (by simp) (by simp [hhalted]) (by simp [hhold]) hbody)

/-! ### The end of a command -/

/-- The StepInto of a command in flight is over: what `settle` needs to mend the status fields. -/
structure StepEnd (s : State) : Prop where
  inFlight : s.flight ≠ .idle
  esRunning : s.es = .running ↔ s.flight = .run
  esHalted : s.es = .halted ↔ s.stepResult = some .notAdvanced ∧ s.flight ≠ .run
  waits : s.stepResult = none → s.hold.isSome = true ∧ s.halted = false
  ends : ∀ r, s.stepResult = some r → s.hold = none ∧ (s.halted = true ↔ r ≠ .continue ∧ r ≠ .paused)

theorem stepEnd_of_reported {s t : State} (hflight : s.flight ≠ .idle)
    (hrunning : s.es = .running ↔ s.flight = .run) (hes : s.es ≠ .halted)
    (hcommand : commandPart t = commandPart s) (h : Reported t) : StepEnd t := by
  simp only [commandPart, Prod.mk.injEq] at hcommand
  obtain ⟨hes', hflight'⟩ := hcommand
  rw [← hflight'] at hflight hrunning
  rw [← hes'] at hrunning hes
  refine ⟨hflight, hrunning, iff_of_false hes fun hna => ?_, h.waits, fun r hr => ?_⟩
  · obtain ⟨-, hadvanced, -⟩ := h.ends _ hna.1
    exact hadvanced rfl
  · obtain ⟨hhold, -, hhalted⟩ := h.ends r hr
    exact ⟨hhold, hhalted⟩

theorem StepStart.not_esHalted {s : State} (h : StepStart s) (hhalted : s.halted = false) : s.es ≠ .halted := by
  rw [ne_eq, h.esHalted, hhalted]
  exact fun himpossible => Bool.false_ne_true himpossible.1

theorem stepInto_stepEnd {s t : State} (hc : CacheCoherent s) (h : StepStart s) (e : stepInto s = .next t) :
    StepEnd t := by
  by_cases hhalted : s.halted = true
  · rw [stepInto_of_halted hhalted] at e
    cases e
    refine ⟨h.inFlight, h.esRunning, ?_, nofun, fun r hr => ?_⟩
    · exact h.esHalted.trans (and_congr_left' (iff_of_true hhalted rfl))
    · cases hr
      exact ⟨h.hold, iff_of_true hhalted (by decide)⟩
  · rw [Bool.not_eq_true] at hhalted
    exact stepEnd_of_reported h.inFlight h.esRunning (h.not_esHalted hhalted) (stepInto_commandPart hc e)
      (stepInto_reported hc h.hold hhalted e)

theorem statusInv_idle {s : State} (hflight : s.flight = .idle) (hhold : s.hold = none) (hrunning : s.es ≠ .running)
    (hhalted : s.es = .halted ↔ s.halted = true) : StatusInv s where
  esHalted := by simp [hhalted, hflight]
  esRunning := by simp [hrunning, hflight]
  holdInFlight := by simp [hhold]
  singleHolds := by simp [hflight]

theorem statusInv_inFlight {s : State} (hflight : s.flight ≠ .idle) (hrunning : s.es = .running ↔ s.flight = .run)
    (hes : s.es ≠ .halted) (hhalted : s.halted = false) (hsingle : s.flight = .single → s.hold.isSome = true) :
    StatusInv s where
  esHalted := by simp [hes, hhalted]
  esRunning := hrunning
  holdInFlight _ := ⟨hflight, hhalted⟩
  singleHolds := hsingle

/-- A step-into or step-over ends (42 R180): NOT_ADVANCED leaves ES, which is then Halted already. -/
theorem endStepCommand_inv {r : StepResult} {s : State} (hd : DataInv s) (hhold : s.hold = none)
    (hhalted : s.halted = true ↔ r ≠ .continue ∧ r ≠ .paused) (hes : r = .notAdvanced → s.es = .halted) :
    (endStepCommand r s).Inv := by
  refine (inv_iff _).mpr ⟨hd.congr rfl, statusInv_idle rfl hhold ?_ (Iff.trans ?_ hhalted.symm)⟩ <;>
    cases r <;> simp_all [endStepCommand, stateAfterStep]

/-- A run ends (42 R198): ES is no longer Running, and Halted where the machine has halted. -/
theorem endRun_inv {r : StepResult} {s : State} (hd : DataInv s) (hhold : s.hold = none)
    (hhalted : s.halted = true ↔ r ≠ .continue ∧ r ≠ .paused) (hr : r ≠ .continue) : (endRun r s).Inv := by
  refine (inv_iff _).mpr ⟨hd.congr rfl, statusInv_idle rfl hhold ?_ (Iff.trans ?_ hhalted.symm)⟩ <;>
    cases r <;> simp_all [endRun, stateAfterRun]

/-- A step that was performed leaves ES, which was not Halted. -/
theorem StepEnd.not_esHalted {s : State} (h : StepEnd s) (hresult : s.stepResult ≠ some .notAdvanced) :
    s.es ≠ .halted := fun hes => hresult (h.esHalted.mp hes).1

/-- The invariant where the command in flight goes on after a step that reported CONTINUE. -/
theorem inv_of_continue {s : State} (hd : DataInv s) (h : StepEnd s) (hsingle : s.flight ≠ .single)
    (hresult : s.stepResult = some .continue) : s.Inv := by
  obtain ⟨-, hhalted⟩ := h.ends _ hresult
  have hes : s.es ≠ .halted := h.not_esHalted (by simp [hresult])
  exact (inv_iff s).mpr ⟨hd, statusInv_inFlight h.inFlight h.esRunning hes (by simpa using hhalted)
    fun hflight => absurd hflight hsingle⟩

/-- The invariant where the step of the command in flight holds. -/
theorem inv_of_waiting {s : State} (hd : DataInv s) (h : StepEnd s) (hresult : s.stepResult = none) : s.Inv := by
  obtain ⟨hhold, hhalted⟩ := h.waits hresult
  have hes : s.es ≠ .halted := h.not_esHalted (by simp [hresult])
  exact (inv_iff s).mpr ⟨hd, statusInv_inFlight h.inFlight h.esRunning hes hhalted fun _ => hhold⟩

theorem settle_inv {s : State} (hd : DataInv s) (h : StepEnd s) : (settle s).Inv := by
  unfold settle
  split
  next hresult => exact inv_of_waiting hd h hresult
  next r hresult =>
    obtain ⟨hhold, hhalted⟩ := h.ends r hresult
    have hes (hrun : s.flight ≠ .run) (hr : r = .notAdvanced) : s.es = .halted :=
      h.esHalted.mpr ⟨hr ▸ hresult, hrun⟩
    split
    next hflight => exact absurd hflight h.inFlight
    next hflight => exact endStepCommand_inv hd hhold hhalted (hes (by simp [hflight]))
    next hflight =>
      split
      next hgoesOn => exact inv_of_continue hd h (by simp [hflight]) (hgoesOn.1 ▸ hresult)
      next => exact endStepCommand_inv hd hhold hhalted (hes (by simp [hflight]))
    next hflight =>
      split
      next hgoesOn => exact inv_of_continue hd h (by simp [hflight]) (hgoesOn ▸ hresult)
      next hr => exact endRun_inv hd hhold hhalted hr

/-- A StepInto of the command in flight, and the end of the command where there is one. -/
theorem settle_stepInto_inv {s t : State} (e : onNext settle (stepInto s) = .next t) (hd : DataInv s)
    (h : StepStart s) : t.Inv := by
  cases hstep : stepInto s with
  | next u =>
    rw [hstep] at e
    cases e
    exact settle_inv (stepInto_keepsData hstep hd) (stepInto_stepEnd hd.cacheCoherent h hstep)
  | fault r => cases r
  | refused r => rw [hstep] at e; cases e

theorem settle_resumeStep_inv {s : State} {w : Hold} (h : s.Inv) (hw : s.hold = some w) :
    (settle (resumeStep w s)).Inv := by
  obtain ⟨hd, hs⟩ := (inv_iff s).mp h
  obtain ⟨hflight, hhalted⟩ := hs.holdInFlight (by simp [hw])
  have hes : s.es ≠ .halted := by simp [hs.esHalted, hhalted]
  have performed : Performed (resumeHold w { s with stepResult := none }) := resumeHold_performed rfl hhalted
  refine settle_inv (completeStep_keepsData _ _ (resumeHold_keepsData w _ (hd.congr rfl))) ?_
  refine stepEnd_of_reported hflight hs.esRunning hes ?_ (completeStep_reported _ performed)
  exact (completeStep_commandPart _ _).trans (resumeHold_commandPart w _)

/-! ### Commands -/

theorem stepStart_of_idle (f : Flight) {s : State} (hs : StatusInv s) (hidle : s.flight = .idle)
    (hhold : s.hold = none) (hf : f ≠ .idle) (hrun : f ≠ .run) : StepStart { s with flight := f } where
  inFlight := hf
  hold := hhold
  esRunning := by simp [hs.esRunning, hidle, hrun]
  esHalted := by simp [hs.esHalted, hidle, hrun]

theorem StepStart.congr {s t : State} (h : StepStart s) (hcommand : commandPart t = commandPart s)
    (hhold : t.hold = s.hold) (hhalted : t.halted = s.halted) : StepStart t := by
  simp only [commandPart, Prod.mk.injEq] at hcommand
  obtain ⟨hes, hflight⟩ := hcommand
  obtain ⟨inFlight, hold, esRunning, esHalted⟩ := h
  rw [← hflight] at inFlight
  rw [← hhold] at hold
  rw [← hes, ← hflight] at esRunning
  rw [← hes, ← hhalted, ← hflight] at esHalted
  exact ⟨inFlight, hold, esRunning, esHalted⟩

theorem startStepInto_inv {s t : State} (h : s.Inv) (hidle : s.flight = .idle) (hhold : s.hold = none)
    (e : startStepInto s = .next t) : t.Inv := by
  obtain ⟨hd, hs⟩ := (inv_iff s).mp h
  have start : StepStart { s with flight := .single, response := none } :=
    (stepStart_of_idle .single hs hidle hhold nofun nofun).congr rfl rfl rfl
  exact settle_stepInto_inv e (hd.congr rfl) start

/-- The ways a step-over of a coherent machine can begin (42 R197). -/
theorem startStepOver_cases {s : State} (hc : CacheCoherent s) (hhalted : ¬ s.halted = true) :
    startStepOver s =
      .next (settle (raiseFault .decodeRange { s with flight := .single, response := none, stepResult := none })) ∨
    ∃ d u, decodeAt s.mem s.pc = some d ∧
      u = cacheInsert d { s with flight := .single, response := none, stepResult := none } ∧
      (startStepOver s = onNext settle (stepInto { u with flight := .over, depth := 0 }) ∨
        startStepOver s = onNext settle (stepInto u)) := by
  unfold startStepOver
  rw [if_neg hhalted]
  rcases fetch_cases (s := { s with flight := .single, response := none, stepResult := none }) hc with
    ⟨d, hd, e⟩ | ⟨-, e⟩ <;> rw [e]
  · refine .inr ⟨d, _, hd, rfl, ?_⟩
    by_cases hcall : Decoded.isCall d = true
    · exact .inl (if_pos hcall)
    · exact .inr (if_neg hcall)
  · exact .inl rfl

theorem startStepOver_inv {s t : State} (h : s.Inv) (hidle : s.flight = .idle) (hhold : s.hold = none)
    (e : startStepOver s = .next t) : t.Inv := by
  obtain ⟨hd, hs⟩ := (inv_iff s).mp h
  by_cases hhalted : s.halted = true
  · rw [startStepOver_of_halted hhalted] at e
    cases e
    refine endStepCommand_inv (hd.congr rfl) hhold (iff_of_true hhalted (by decide)) fun _ => ?_
    exact hs.esHalted.mpr ⟨hhalted, by simp [hidle]⟩
  · have start : DataInv { s with flight := .single, response := none, stepResult := none } := hd.congr rfl
    have hsingle : StepStart { s with flight := .single } := stepStart_of_idle _ hs hidle hhold nofun nofun
    have hover : StepStart { s with flight := .over } := stepStart_of_idle _ hs hidle hhold nofun nofun
    rcases startStepOver_cases hd.cacheCoherent hhalted with e' | ⟨d, u, hdecode, rfl, e' | e'⟩ <;> rw [e'] at e
    · cases e
      refine settle_inv (start.fault (by decide)) (stepEnd_of_reported hsingle.inFlight hsingle.esRunning
        (hsingle.not_esHalted (Bool.not_eq_true _ ▸ hhalted)) ?_ (reported_raiseFault _ hhold))
      simp [commandPart]
    · refine settle_stepInto_inv e ((start.insert hdecode).congr rfl) (hover.congr ?_ ?_ ?_) <;> simp [commandPart]
    · refine settle_stepInto_inv e (start.insert hdecode) (hsingle.congr ?_ ?_ ?_) <;> simp [commandPart]

/-- The invariant does not see the response, the notifications, the pause latch or the host's part of the state. -/
theorem inv_congr {s t : State} (h : s.Inv) (hdata : dataPart t = dataPart s) (hcommand : commandPart t = commandPart s)
    (hhold : t.hold = s.hold) : t.Inv := by
  obtain ⟨hd, hs⟩ := (inv_iff s).mp h
  refine (inv_iff t).mpr ⟨hd.congr hdata, ?_⟩
  simp only [dataPart, commandPart, Prod.mk.injEq] at hdata hcommand
  obtain ⟨-, -, -, -, -, -, hhalted, -, -⟩ := hdata
  obtain ⟨hes, hflight⟩ := hcommand
  obtain ⟨esHalted, esRunning, holdInFlight, singleHolds⟩ := hs
  rw [← hes, ← hhalted, ← hflight] at esHalted
  rw [← hes, ← hflight] at esRunning
  rw [← hhold, ← hflight, ← hhalted] at holdInFlight
  rw [← hhold, ← hflight] at singleHolds
  exact ⟨esHalted, esRunning, holdInFlight, singleHolds⟩

theorem bpTable_filter {bt : List BpEntry} (p : BpEntry → Bool) (h : BpTableWf bt) : BpTableWf (bt.filter p) :=
  ⟨h.1.filter p, fun e he => h.2 e (List.mem_of_mem_filter he)⟩

theorem bpTable_append {bt : List BpEntry} {e : BpEntry} (h : BpTableWf bt) (hnew : ∀ f ∈ bt, f.addr ≠ e.addr)
    (haddr : e.addr ≤ Config.bpAddrMax) (htrigger : (e.exec || e.write || e.read) = true) :
    BpTableWf (bt ++ [e]) := by
  refine ⟨List.pairwise_append.mpr ⟨h.1, List.pairwise_singleton _ e, ?_⟩, ?_⟩
  · intro f hf g hg
    rw [List.mem_singleton.mp hg]
    exact hnew f hf
  · intro f hf
    rcases List.mem_append.mp hf with hf | hf
    · exact h.2 f hf
    · rw [List.mem_singleton.mp hf]
      exact ⟨haddr, htrigger⟩

theorem inv_withBt {s : State} {bt : List BpEntry} (h : s.Inv) (hbt : BpTableWf bt) :
    ({ s with bt := bt } : State).Inv :=
  { h with bpTable := hbt }

/-- The four cases of toggle keep the table's form (41 R162). -/
theorem toggle_inv (addr : Nat) (x w r : Bool) {s : State} (h : s.Inv) : (toggle addr x w r s).Inv := by
  unfold toggle
  split
  · exact inv_congr h rfl rfl rfl
  next hlegal =>
    split
    · refine inv_congr (inv_withBt h (bpTable_filter (fun e => decide (e.addr ≠ addr)) h.bpTable)) ?_ ?_ ?_ <;>
        simp [dataPart, commandPart]
    next habsent =>
      split
      · exact inv_congr h rfl rfl rfl
      next htrigger =>
        have hnew : ∀ e ∈ s.bt, e.addr ≠ addr := by simpa using habsent
        have hbt : BpTableWf (s.bt ++ [{ addr := addr, exec := x, write := w, read := r }]) :=
          bpTable_append h.bpTable hnew (Nat.not_lt.mp hlegal)
            (by simpa only [Bool.not_eq_true', Bool.not_eq_false] using htrigger)
        refine inv_congr (inv_withBt h hbt) ?_ ?_ ?_ <;> simp [dataPart, commandPart]

theorem pause_inv {s : State} (h : s.Inv) : (pause s).Inv := inv_congr h rfl rfl rfl

theorem setHalted_eq (s : State) : setHalted s =
    { s with halted := true, notes := if s.halted then s.notes else notesPlus s [.halted] } := by
  unfold setHalted
  split
  next hhalted =>
    cases s
    simp_all
  next => simp [emit_eq, notesPlus]

/-- A stop sets HALTED, and ES Halted unless a run is in flight (42 R200); no `in` holds when it is taken. -/
theorem stop_inv {s : State} (h : s.Inv) (hhold : s.hold = none) : (stop s).Inv := by
  obtain ⟨hd, hs⟩ := (inv_iff s).mp h
  have hsingle : s.flight ≠ .single := fun hflight => by simpa [hhold] using hs.singleHolds hflight
  rw [stop, setHalted_eq]
  refine (inv_iff _).mpr ⟨hd.halt.congr rfl, ?_⟩
  by_cases hrun : s.flight = .run
  · have hes : s.es = .running := hs.esRunning.mpr hrun
    constructor <;> simp [emitRefresh, hrun, hes, hhold]
  · constructor <;> simp [emitRefresh, hrun, hsingle, hhold]

theorem startRun_inv {s : State} (h : s.Inv) (hhold : s.hold = none) : (startRun s).Inv := by
  obtain ⟨hd, -⟩ := (inv_iff s).mp h
  refine (inv_iff _).mpr ⟨hd.congr rfl, ?_⟩
  constructor <;> simp [startRun, hhold]

/-! ### load and load-state (70 R500, 47 R306) -/

/-- The data of a machine just loaded or restored, before its first decode: the cache is empty. -/
theorem dataInv_of_empty_cache {s : State} (hmem : s.mem.wf) (hic : s.ic = []) (hbt : BpTableWf s.bt)
    (hos : Fits s.params.osCapacity s.os) (hcs : Fits s.params.csCapacity s.cs) (hclear : ClearStatus s) :
    DataInv s where
  memWf := hmem
  cacheSorted := hic ▸ .nil
  cacheCoherent d hd := absurd (hic ▸ hd) List.not_mem_nil
  bpTable := hbt
  osFits := hos
  csFits := hcs
  faultedCause := by simp [hclear.faulted, hclear.faultCause]
  faultedHalted h := by simp [hclear.faulted] at h

theorem installImage_data {image : List Raw} (h : image.length ≤ 32768) (s : State) :
    DataInv (installImage image s) := by
  have hmem : (Memory.ofCells 0 image).wf := ofCells_wf 0 image (by simpa using h)
  apply dataInv_of_empty_cache ?_ ?_ ?_ ?_ ?_ (installImage_clearStatus image s) <;>
    simp only [installImage, emit_mem, emit_ic, emit_bt, emit_os, emit_cs, emit_params]
  · exact hmem
  · exact ⟨.nil, nofun⟩
  · exact fun n _ => Nat.zero_le n
  · exact fun n _ => Nat.zero_le n

/-- The stacks and the table of a stream that is accepted are within their bounds (47 R305). -/
theorem parse_bounds {p : Config.Params} {bs : List Byte} {n : Snapshot} (h : parseSnapshot p bs = some n) :
    BpTableWf n.bt ∧ (∀ c, p.osCapacity = some c → n.os.length ≤ c) ∧
      ∀ c, p.csCapacity = some c → n.cs.length ≤ c := by
  unfold parseSnapshot at h
  repeat' split at h
  all_goals cases h
  next hentries _ _ _ hos _ _ _ hcs _ =>
    obtain ⟨-, hbt, -⟩ := takeEntries_eq hentries
    obtain ⟨hosLength, -⟩ := takeStack_eq hos
    obtain ⟨hcsLength, -⟩ := takeStack_eq hcs
    exact ⟨hbt, hosLength, hcsLength⟩

theorem installSnapshot_data {bs : List Byte} {n : Snapshot} {s : State} (h : parseSnapshot s.params bs = some n) :
    DataInv (installSnapshot n s) := by
  obtain ⟨hbt, hos, hcs⟩ := parse_bounds h
  have hmem : (Memory.ofCells 0 (n.cells.map (BitVec.ofNat 16 ·))).wf :=
    ofCells_wf 0 _ (by simp [parse_cells_length h])
  apply dataInv_of_empty_cache ?_ ?_ ?_ ?_ ?_ (installSnapshot_clearStatus n s) <;>
    simp only [installSnapshot, emit_mem, emit_ic, emit_bt, emit_os, emit_cs, emit_params]
  · exact hmem
  · exact hbt
  · exact fun c hc => (List.length_map _).trans_le (hos c hc)
  · exact fun c hc => (List.length_map _).trans_le (hcs c hc)

theorem decodeHere_flight_hold (s : State) :
    (decodeHere s).state.flight = s.flight ∧ (decodeHere s).state.hold = s.hold := by
  rcases decodeHere_cases s with ⟨d, -, e⟩ | ⟨-, e⟩ <;> rw [e] <;> simp [Flow.state]

/-- With the status fields as after load and nothing in flight (10 R55) the invariant is that of the data. -/
theorem inv_of_clearStatus {s : State} (hd : DataInv s) (hclear : ClearStatus s) (hflight : s.flight = .idle)
    (hhold : s.hold = none) : s.Inv :=
  (inv_iff s).mpr ⟨hd, statusInv_idle hflight hhold (by simp [hclear.es]) (by simp [hclear.es, hclear.halted])⟩

theorem load_inv (image : List Raw) {s : State} (h : s.Inv) (hidle : s.flight = .idle) (hhold : s.hold = none) :
    (load image s).Inv := by
  by_cases hfits : image.length ≤ 32768
  · have hclear := load_clearStatus hfits s
    have hload : load image s = { emitRefresh (decodeHere (installImage image s)).state with response := some .ok } :=
      if_neg (Nat.not_lt.mpr hfits)
    have hd := decodeHere_keepsData _ (installImage_data hfits s)
    have hflight : (installImage image s).flight = .idle := by simp [installImage, hidle]
    have hhold' : (installImage image s).hold = none := by simp [installImage, hhold]
    rw [← (decodeHere_flight_hold (installImage image s)).1] at hflight
    rw [← (decodeHere_flight_hold (installImage image s)).2] at hhold'
    rw [hload] at hclear ⊢
    generalize (decodeHere (installImage image s)).state = u at *
    exact inv_of_clearStatus (hd.congr rfl) hclear hflight hhold'
  · have hrefused : load image s = { s with response := some .loadTooLong } := if_pos (Nat.not_le.mp hfits)
    rw [hrefused]
    exact inv_congr h rfl rfl rfl

theorem loadState_inv (bs : List Byte) {s : State} (h : s.Inv) (hidle : s.flight = .idle) (hhold : s.hold = none) :
    (loadState bs s).Inv := by
  unfold loadState
  split
  · exact inv_congr h rfl rfl rfl
  next n hparse =>
    have hd := installSnapshot_data hparse
    have hflight : (installSnapshot n s).flight = .idle := by simp [installSnapshot, hidle]
    have hhold' : (installSnapshot n s).hold = none := by simp [installSnapshot, hhold]
    have hclear := installSnapshot_clearStatus n s
    generalize installSnapshot n s = u at *
    rcases decodeHere_cases u with ⟨d, hdecode, e⟩ | ⟨-, e⟩ <;> rw [e]
    · obtain ⟨hes, hhalted, hpause, hfaulted, hcause⟩ := cacheInsert_clearStatus d hclear
      refine inv_of_clearStatus ((hd.insert hdecode).congr rfl) ⟨hes, hhalted, hpause, hfaulted, hcause⟩ ?_ ?_
      · simp [hflight]
      · simp [hhold']
    · refine (inv_iff _).mpr ⟨(hd.fault (by decide)).congr rfl, ?_⟩
      apply statusInv_idle <;> simp [hflight, hhold']

/-! ### Every step -/

/-- A command is performed when nothing holds, and but for pause and stop when nothing is in flight (42 R201). -/
theorem perform_inv {c : Command} {s t : State} (e : perform c s = .next t) (h : s.Inv) (hhold : s.hold = none)
    (hidle : s.flight = .idle ∨ c.isLatch = true) : t.Inv := by
  unfold perform at e
  split at e
  · cases c with
    | pause => cases e; exact pause_inv h
    | stop => cases e; exact stop_inv h hhold
    | load image => cases e; exact load_inv image h (hidle.resolve_right nofun) hhold
    | stepInto => exact startStepInto_inv h (hidle.resolve_right nofun) hhold e
    | stepOver => exact startStepOver_inv h (hidle.resolve_right nofun) hhold e
    | run => cases e; exact startRun_inv h hhold
    | toggle addr x w r => cases e; exact toggle_inv addr x w r h
    | save => cases e; exact inv_congr h rfl rfl rfl
    | loadState bytes => cases e; exact loadState_inv bytes h (hidle.resolve_right nofun) hhold
  · cases e
    exact inv_congr h rfl rfl rfl

theorem engineMove_inv {s t : State} (h : s.Inv) (hhold : s.hold = none) (e : engineMove s = .next t) : t.Inv := by
  by_cases hidle : s.flight = .idle
  · rw [engineMove, hidle] at e
    cases e
    exact h
  · rw [engineMove_inFlight hidle] at e
    obtain ⟨hd, hs⟩ := (inv_iff s).mp h
    exact settle_stepInto_inv e hd ⟨hidle, hhold, hs.esRunning, hs.esHalted⟩

theorem advance_inv {s t : State} (h : s.Inv) (e : advance s = .next t) : t.Inv := by
  cases hhold : s.hold with
  | some w =>
    rw [advance_hold hhold] at e
    cases e
    exact settle_resumeStep_inv h hhold
  | none =>
    cases htake : takePending s with
    | none =>
      rw [advance_move hhold htake] at e
      exact engineMove_inv h hhold e
    | some cu =>
      obtain ⟨c, u⟩ := cu
      rw [advance_take hhold htake] at e
      rcases takePending_some htake with ⟨hidle, cs, -, rfl⟩ | ⟨-, hlatch, rfl⟩
      · exact perform_inv e (inv_congr h rfl rfl rfl) hhold (.inl hidle)
      · exact perform_inv e (inv_congr h rfl rfl rfl) hhold (.inr hlatch)

/-- Settles O60: by what the host does and by the move of the machine; the end of every step mends the agreement of the
status fields. -/
theorem stepKeepsInv : Obligations.StepKeepsInv := by
  unfold Obligations.StepKeepsInv
  intro s t h e
  rcases schedule_cases s with silent | ⟨c, r, hs⟩ | ⟨u, r, hs⟩
  · rw [step_silent silent] at e
    exact advance_inv (s := tickOff s) (inv_congr h rfl rfl rfl) e
  · rw [step_command hs] at e
    cases e
    exact inv_congr h rfl rfl rfl
  · rw [step_supply hs] at e
    cases e
    exact inv_congr h rfl rfl rfl

end Sys2Proof.Machine
end

section
/-! PROOFS. The breakpoint table: what its check finds (41 R164) and the cases of its toggle (41 R162): O10, O11. -/

namespace Sys2Proof.Machine

/-- The check finds an entry of that address with that trigger, whichever of the three it is (41 R164). -/
theorem bpCheck_iff (bt : List BpEntry) (addr : Nat) (k : Trigger) :
    bpCheck bt addr k = true ↔ ∃ e ∈ bt, e.addr = addr ∧ e.has k = true := by
  simp only [bpCheck, List.any_eq_true, Bool.and_eq_true, decide_eq_true_eq]

/-- Settles O10: the check's own rule, at each of the three triggers. -/
theorem bpCheckFindsTrigger : Obligations.BpCheckFindsTrigger := by
  unfold Obligations.BpCheckFindsTrigger
  intro bt addr
  exact ⟨bpCheck_iff bt addr .exec, bpCheck_iff bt addr .write, bpCheck_iff bt addr .read⟩

/-! ### The four cases of toggle (41 R162) -/

section
variable {addr : Nat} {s : State}

theorem toggle_of_illegal (h : 32775 < addr) (x w r : Bool) :
    toggle addr x w r s = { s with response := some .rejected } :=
  if_pos h

theorem toggle_of_present (h : addr ≤ 32775) (hmem : ∃ e ∈ s.bt, e.addr = addr) (x w r : Bool) :
    toggle addr x w r s = { s with
      bt := s.bt.filter fun e => decide (e.addr ≠ addr)
      notes := notesPlus s [.breakpointToggled addr false]
      response := some .disabled } := by
  have hlegal : ¬ Config.bpAddrMax < addr := Nat.not_lt.mpr h
  have hany : (s.bt.any fun e => decide (e.addr = addr)) = true := by simpa using hmem
  rw [toggle, if_neg hlegal, if_pos hany, emit_eq]
  rfl

/-- An absent address: what is done depends on the triggers alone. -/
theorem toggle_of_absent (h : addr ≤ 32775) (hnew : ∀ e ∈ s.bt, e.addr ≠ addr) (x w r : Bool) :
    toggle addr x w r s =
      if (x || w || r) = true then
        { s with
          bt := s.bt ++ [{ addr := addr, exec := x, write := w, read := r }]
          notes := notesPlus s [.breakpointToggled addr true]
          response := some .enabled }
      else { s with response := some .disabled } := by
  have hlegal : ¬ Config.bpAddrMax < addr := Nat.not_lt.mpr h
  have hany : ¬ (s.bt.any fun e => decide (e.addr = addr)) = true := by simpa using hnew
  rw [toggle, if_neg hlegal, if_neg hany, emit_eq]
  cases x || w || r <;> rfl

end

/-- Removing an address takes away its new entry and nothing else, where the address was absent. -/
theorem filter_addr_ne_append {bt : List BpEntry} {e : BpEntry} (hnew : ∀ f ∈ bt, f.addr ≠ e.addr) :
    (bt ++ [e]).filter (fun f => decide (f.addr ≠ e.addr)) = bt := by
  have hkeep : bt.filter (fun f => decide (f.addr ≠ e.addr)) = bt :=
    List.filter_eq_self.mpr fun f hf => decide_eq_true (hnew f hf)
  rw [List.filter_append, hkeep]
  simp

/-- The round trip of 41 R162: the second toggle finds the entry of the first. -/
theorem toggle_toggle_bt {addr : Nat} {x w r : Bool} {s : State} (h : addr ≤ 32775)
    (hnew : ∀ e ∈ s.bt, e.addr ≠ addr) (htrigger : (x || w || r) = true) :
    (toggle addr x w r (toggle addr x w r s)).bt = s.bt := by
  rw [toggle_of_absent h hnew, if_pos htrigger, toggle_of_present h (by simp)]
  exact filter_addr_ne_append (e := { addr := addr, exec := x, write := w, read := r }) hnew

/-- Settles O11: the equation of each case, and the round trip by the present case after the absent one. -/
theorem toggleCases : Obligations.ToggleCases := by
  unfold Obligations.ToggleCases
  intro addr x w r s
  refine ⟨fun h => toggle_of_illegal h x w r, fun h hmem => toggle_of_present h hmem x w r, ?_, ?_⟩
  · intro h hnew hnone
    rw [toggle_of_absent h hnew, if_neg (by simp [hnone])]
  · intro h hnew htrigger
    exact ⟨by rw [toggle_of_absent h hnew, if_pos htrigger], toggle_toggle_bt h hnew htrigger⟩

end Sys2Proof.Machine
end

section
/-! PROOFS. The operand primitives (42 R190, R191) in their cases, as whole states: O17. -/

namespace Sys2Proof.Machine

theorem resolve_reg (r : Fin 8) (s : State) : resolve (.reg r) s =
    .ok s.regs[r] { s with pausePending := s.pausePending || bpCheck s.bt (32768 + r.val) .read } := rfl

theorem storeTo_lit (w x : Word) (s : State) : storeTo (.lit w) x s =
    memWrite w x { s with pausePending := s.pausePending || bpCheck s.bt w.toNat .write } := rfl

theorem storeTo_reg (r : Fin 8) (x : Word) (s : State) : storeTo (.reg r) x s =
    { s with pausePending := s.pausePending || bpCheck s.bt (32768 + r.val) .write
             regs := s.regs.set r x
             notes := notesPlus s [.registerChanged r x] } :=
  writeReg_eq r x _

/-- Settles O17: each primitive at each of the three classes of operand (30 R104). -/
theorem operandPrimitives : Obligations.OperandPrimitives := by
  unfold Obligations.OperandPrimitives
  intro x s
  exact ⟨fun _ => rfl, fun r => resolve_reg r s, fun _ => rfl, fun w => storeTo_lit w x s,
    fun r => storeTo_reg r x s, fun _ => rfl⟩

end Sys2Proof.Machine
end

section
/-! PROOFS. Step-into (42 R183 to R188): the PC advance, the run of the decoded instruction, and the end of the
step: O40, O41, O44, O39. -/

namespace Sys2Proof.Machine

/-! ### The fetch and the PC advance (40 R149, 42 R184) -/

/-- A fetch that gives a record finds it in the cache, or decodes it afresh and caches it (40 R149). -/
theorem fetch_ok_cases {s u : State} {d : Decoded} (h : fetch s = .ok d u) :
    (cacheLookup s.ic s.pc = some d ∧ u = s) ∨
    (cacheLookup s.ic s.pc = none ∧ decodeAt s.mem s.pc = some d ∧ u = cacheInsert d s) := by
  unfold fetch at h
  split at h
  next hhit =>
    cases h
    exact .inl ⟨hhit, rfl⟩
  next hmiss =>
    rcases decodeHere_cases s with ⟨e, hd, hdecode⟩ | ⟨-, hdecode⟩ <;> cases hdecode.symm.trans h
    exact .inr ⟨hmiss, hd, rfl⟩

theorem fetch_ok_pc {s u : State} {d : Decoded} (h : fetch s = .ok d u) : u.pc = s.pc := by
  rcases fetch_ok_cases h with ⟨-, rfl⟩ | ⟨-, -, rfl⟩
  · rfl
  · exact cacheInsert_pc d s

/-- The fetch of a step-into, whose result is cleared first, leaves PC where it was. -/
theorem fetch_fresh_pc {s u : State} {d : Decoded} (h : fetch { s with stepResult := none } = .ok d u) :
    u.pc = s.pc :=
  fetch_ok_pc (s := { s with stepResult := none }) h

theorem advancePc_of_le {d : Decoded} {s : State} (h : s.pc.toNat + d.span ≤ 32767) :
    advancePc d s = some { s with pc := BitVec.ofNat 15 (s.pc.toNat + d.span) } := if_pos h

theorem advancePc_of_gt {d : Decoded} {s : State} (h : 32767 < s.pc.toNat + d.span) : advancePc d s = none :=
  if_neg (Nat.not_le.mpr h)

section
variable {s u : State} {d : Decoded} (hhalted : s.halted = false)
  (hfetch : fetch { s with stepResult := none } = .ok d u)
include hhalted hfetch

theorem stepInto_advances (h : s.pc.toNat + d.span ≤ 32767) : stepInto s =
    onNext (completeStep s.pc) (execBody d.body { u with pc := BitVec.ofNat 15 (s.pc.toNat + d.span) }) := by
  have hpc : u.pc = s.pc := fetch_fresh_pc hfetch
  rw [stepInto_ok hhalted hfetch, advancePc_of_le (by rwa [hpc]), hpc]

theorem stepInto_pcRange (h : 32767 < s.pc.toNat + d.span) : stepInto s = .next (raiseFault .pcRange u) := by
  have hpc : u.pc = s.pc := fetch_fresh_pc hfetch
  rw [stepInto_ok hhalted hfetch, advancePc_of_gt (by rwa [hpc])]

end

/-- Settles O41: the advance goes before the semantics, or there is none and neither are they. -/
theorem pcAdvance : Obligations.PcAdvance := by
  unfold Obligations.PcAdvance
  intro s u d hhalted hfetch
  refine ⟨stepInto_advances hhalted hfetch, fun h => ⟨stepInto_pcRange hhalted hfetch h, ?_⟩⟩
  exact (raiseFault_pc _ u).trans (fetch_fresh_pc hfetch)

/-! ### The end of a step (42 R186) -/

theorem execHit_iff (bt : List BpEntry) (d : Decoded) :
    execHit bt d = true ↔ ∃ k < d.span, bpCheck bt (d.pos.toNat + k) .exec = true := by
  simp only [execHit, List.any_eq_true, List.mem_range]

section
variable {d : Decoded} {s : State}

theorem reportStep_of_halted (hhalted : s.halted = true) : reportStep d s = { s with stepResult := some .halted } :=
  if_pos hhalted

theorem reportStep_of_pause (hhalted : s.halted = false)
    (hpause : s.pausePending = true ∨ execHit s.bt d = true) :
    reportStep d s = { s with pausePending := false, stepResult := some .paused } := by
  have hlatch : (s.pausePending || execHit s.bt d) = true := (Bool.or_eq_true _ _).mpr hpause
  simp [reportStep, hhalted, reportPause, armIf, hlatch]

theorem reportStep_of_continue (hhalted : s.halted = false) (hpause : s.pausePending = false)
    (hhit : execHit s.bt d = false) :
    reportStep d s = { s with pausePending := false, stepResult := some .continue } := by
  simp [reportStep, hhalted, reportPause, armIf, hpause, hhit]

end

/-- The report of a step changes the pause latch and the result, and nothing else. -/
theorem reportStep_eq (d : Decoded) (s : State) :
    ∃ b r, reportStep d s = { s with pausePending := b, stepResult := some r } := by
  unfold reportStep reportPause
  split
  · exact ⟨s.pausePending, _, rfl⟩
  · split <;> exact ⟨_, _, rfl⟩

/-- Settles O44: the decode at the new PC, then the report in its three outcomes. -/
theorem endOfStep : Obligations.EndOfStep := by
  unfold Obligations.EndOfStep
  intro old s d hresult hhold hdecode
  have hit (k : Nat) : bpCheck s.bt (s.pc.toNat + k) .exec = bpCheck s.bt (d.pos.toNat + k) .exec := by
    rw [decodeAt_pos hdecode]
  have complete : completeStep old s = reportStep d { cacheInsert d s with
      notes := notesPlus (cacheInsert d s) [.decodeViewChanged old s.pc] } := by
    rw [completeStep_report hresult hhold hdecode, emit_eq]
  rw [complete]
  refine ⟨fun hhalted => reportStep_of_halted ?_, fun hhalted hpause => reportStep_of_pause ?_ ?_,
    fun hhalted hpause hnone => reportStep_of_continue ?_ ?_ ?_, ?frame⟩
  case frame =>
    obtain ⟨b, r, report⟩ := reportStep_eq d { cacheInsert d s with
      notes := notesPlus (cacheInsert d s) [.decodeViewChanged old s.pc] }
    rw [report]
    simp
  · simpa using hhalted
  · simpa using hhalted
  · simpa [execHit_iff, hit] using hpause
  · simpa using hhalted
  · simpa using hpause
  · simpa [← Bool.not_eq_true, execHit_iff, hit] using hnone

/-! ### The run of the decoded instruction (42 R184, R185) -/

theorem onNext_onNext (f g : State → State) (o : Host.Outcome State Fault Refusal) :
    onNext g (onNext f o) = onNext (fun s => g (f s)) o := by
  cases o <;> rfl

section
variable {s : State} {i : Instr} (hhalted : s.halted = false) (hcoherent : CacheCoherent s)
  (hdecode : decodeAt s.mem s.pc = some { pos := s.pc, body := .instr i }) (h : s.pc.toNat + i.span ≤ 32767)
include hhalted hcoherent hdecode h

/-- A step-into runs the instruction that the words at PC decode to, where the cache is transparent (40 R150). -/
theorem stepInto_runs :
    stepInto s = onNext (completeStep s.pc) (exec i (atInstr i { s with stepResult := none })) :=
  stepInto_advances hhalted (fetch_ok (s := { s with stepResult := none }) hcoherent hdecode) h

theorem settle_stepInto_runs : onNext settle (stepInto s) =
    onNext (fun t => settle (completeStep s.pc t)) (exec i (atInstr i { s with stepResult := none })) := by
  rw [stepInto_runs hhalted hcoherent hdecode h, onNext_onNext]

end

/-- In flight a command is taken only where a pause or stop has been issued (42 R201). -/
theorem takePending_inFlight {s : State} (h : s.flight ≠ .idle) : takePending s =
    (s.pending.find? Command.isLatch).map fun c => (c, { s with pending := s.pending.eraseP Command.isLatch }) := by
  unfold takePending
  cases hflight : s.flight with
  | idle => exact absurd hflight h
  | _ => cases s.pending.find? Command.isLatch <;> rfl

theorem takePending_tickOff {s : State} (h : s.flight ≠ .idle) (hnone : takePending s = none) :
    takePending (tickOff s) = none := by
  rw [takePending_inFlight h, Option.map_eq_none_iff] at hnone
  rw [takePending_inFlight (s := tickOff s) h, Option.map_eq_none_iff]
  exact hnone

section
variable {s : State} (hhold : s.hold = none) (silent : HostSilent s)
include hhold silent

/-- The move of a command in flight, with no pause or stop waiting, is its next StepInto (42 R197, R198). -/
theorem step_inFlight (hflight : s.flight ≠ .idle) (hnone : takePending s = none) :
    step s = onNext settle (stepInto (tickOff s)) := by
  rw [step_silent silent, advance_move (s := tickOff s) hhold (takePending_tickOff hflight hnone),
    engineMove_inFlight (s := tickOff s) hflight]

/-- With nothing in flight the first command issued is performed (42 R181). -/
theorem step_idle_cons (hidle : s.flight = .idle) {c : Command} {cs : List Command} (hpending : s.pending = c :: cs) :
    step s = perform c { tickOff s with pending := cs } := by
  have htake : takePending (tickOff s) = some (c, { tickOff s with pending := cs }) := by
    simp [takePending, tickOff, hidle, hpending]
  rw [step_silent silent, advance_take (s := tickOff s) hhold htake]

/-- Where none has been issued either, the machine waits (60 R427). -/
theorem step_idle_nil (hidle : s.flight = .idle) (hpending : s.pending = []) : step s = .next (tickOff s) := by
  have htake : takePending (tickOff s) = none := by simp [takePending, tickOff, hidle, hpending]
  rw [step_silent silent, advance_move (s := tickOff s) hhold htake]
  simp [engineMove, tickOff, hidle]

end

theorem perform_of_loaded {s : State} (h : s.loaded = true) (c : Command) : perform c s = performLoaded c s :=
  if_pos (by rw [h, Bool.true_or])

/-- Settles O39: the next StepInto, of the command in flight or of the step-into issued, runs what the words at PC
decode to. -/
theorem stepRunsDecodedInstruction : Obligations.StepRunsDecodedInstruction := by
  unfold Obligations.StepRunsDecodedInstruction
  refine ⟨fun s i hhalted hhold silent hcoherent hdecode h =>
    ⟨fun hflight hnone => ?inFlight, fun cs hidle hloaded hpending => ?issued⟩,
    fun s hflight hhold silent hnone => step_inFlight hhold silent hflight hnone⟩
  case inFlight =>
    exact (step_inFlight hhold silent hflight hnone).trans
      (settle_stepInto_runs (s := tickOff s) hhalted hcoherent hdecode h)
  case issued =>
    calc step s
      _ = perform .stepInto { tickOff s with pending := cs } := step_idle_cons hhold silent hidle hpending
      _ = startStepInto { tickOff s with pending := cs } :=
        perform_of_loaded (s := { tickOff s with pending := cs }) hloaded _
      _ = _ := settle_stepInto_runs (s := { tickOff s with pending := cs, flight := .single, response := none })
        hhalted hcoherent hdecode h

/-! ### The halted machine (42 R183) -/

/-- Settles O40: the halted branch of a step-into, and the end of the command with NOT_ADVANCED. -/
theorem haltedStepIsNoop : Obligations.HaltedStepIsNoop := by
  unfold Obligations.HaltedStepIsNoop
  exact fun s hhalted => ⟨stepInto_of_halted hhalted, startStepInto_of_halted hhalted⟩

end Sys2Proof.Machine
end

section
/-! PROOFS. How a command goes on and ends (42 R180, R193 to R198), and that a run is silent (R203): O47, O48, O49,
O50. -/

namespace Sys2Proof.Machine

/-! ### The end of a StepInto, by the command in flight (42 R195, R198) -/

theorem settle_single {s : State} {r : StepResult} (hflight : s.flight = .single) (hresult : s.stepResult = some r) :
    settle s = endStepCommand r s := by
  simp only [settle, hflight, hresult]

theorem settle_over {s : State} {r : StepResult} (hflight : s.flight = .over) (hresult : s.stepResult = some r) :
    settle s = if r = .continue ∧ 0 < s.depth then s else endStepCommand r s := by
  simp only [settle, hflight, hresult]

theorem settle_run {s : State} {r : StepResult} (hflight : s.flight = .run) (hresult : s.stepResult = some r) :
    settle s = if r = .continue then s else endRun r s := by
  simp only [settle, hflight, hresult]

/-- The end of a step-into or a step-over, with ES by the table of 42 R180. -/
theorem endStepCommand_eq (r : StepResult) (s : State) : endStepCommand r s = { s with
    flight := .idle
    response := some (.step r)
    es := if r = .notAdvanced then s.es else if r = .continue ∨ r = .paused then .paused else .halted } := by
  cases r <;> rfl

/-- The end of a run: Paused or Halted (42 R198), and the consolidated refresh. -/
theorem endRun_eq (r : StepResult) (s : State) : endRun r s = { s with
    flight := .idle
    response := some (.step r)
    es := if r = .paused then .paused else .halted
    notes := s.notes ++
      [.consolidatedRefresh { mem := s.mem, regs := s.regs, os := s.os, cs := s.cs, view := s.pc }] } := by
  cases r <;> rfl

/-- Settles O47: a step-into ends with every result. -/
theorem stepCommandEnds : Obligations.StepCommandEnds := by
  unfold Obligations.StepCommandEnds
  exact fun s r hflight hresult => (settle_single hflight hresult).trans (endStepCommand_eq r s)

/-! ### Step-over (42 R193 to R197) -/

/-- A record just fetched is fetched again, with nothing more to do: it is in the cache (40 R149). -/
theorem fetch_again {s u : State} {d : Decoded} (h : fetch s = .ok d u) : fetch u = .ok d u := by
  have hlookup : cacheLookup u.ic u.pc = some d := by
    rcases fetch_ok_cases h with ⟨hhit, rfl⟩ | ⟨hmiss, hdecode, rfl⟩
    · exact hhit
    · rw [← decodeAt_pos hdecode] at hmiss
      rw [cacheInsert_pc, ← decodeAt_pos hdecode, cacheInsert_absent hmiss]
      exact lookup_cachePut_same d s.ic
  rw [fetch, hlookup]

/-- The record a fetch gives depends on the memory, the cache and PC alone. -/
theorem fetch_ok_congr {s t u : State} {d : Decoded} (h : fetch t = .ok d u) (hmem : s.mem = t.mem)
    (hic : s.ic = t.ic) (hpc : s.pc = t.pc) : ∃ v, fetch s = .ok d v := by
  unfold fetch
  rw [hic, hpc]
  rcases fetch_ok_cases h with ⟨hhit, -⟩ | ⟨hmiss, hdecode, -⟩
  · rw [hhit]
    exact ⟨s, rfl⟩
  · rw [hmiss, decodeHere, hmem, hpc, hdecode]
    exact ⟨cacheInsert d s, rfl⟩

theorem fetch_ok_status {s u : State} {d : Decoded} (h : fetch s = .ok d u) :
    u.halted = s.halted ∧ u.stepResult = s.stepResult := by
  rcases fetch_ok_cases h with ⟨-, rfl⟩ | ⟨-, -, rfl⟩
  · exact ⟨rfl, rfl⟩
  · exact ⟨cacheInsert_halted d s, cacheInsert_stepResult d s⟩

/-- A step-into from the state its own fetch leaves is the same step-into. -/
theorem stepInto_after_fetch {s u : State} {d : Decoded} (hhalted : s.halted = false)
    (hfetch : fetch { s with stepResult := none } = .ok d u) : stepInto u = stepInto s := by
  obtain ⟨hhalted', hresult⟩ := fetch_ok_status hfetch
  have hclear : { u with stepResult := none } = u := by rw [← show u.stepResult = none from hresult]
  have hagain : fetch { u with stepResult := none } = .ok d u := by
    rw [hclear]
    exact fetch_again hfetch
  rw [stepInto_ok (hhalted'.trans hhalted) hagain, stepInto_ok hhalted hfetch]

section
variable {s u : State} (hhalted : s.halted = false)
include hhalted

theorem startStepOver_of_ok {d : Decoded}
    (hfetch : fetch { s with flight := .single, response := none, stepResult := none } = .ok d u) :
    startStepOver s = if Decoded.isCall d = true then onNext settle (stepInto { u with flight := .over, depth := 0 })
      else onNext settle (stepInto u) := by
  rw [startStepOver, if_neg (by simp [hhalted]), hfetch]

theorem startStepOver_of_stop
    (hfetch : fetch { s with flight := .single, response := none, stepResult := none } = .stop u) :
    startStepOver s = .next (settle u) := by
  rw [startStepOver, if_neg (by simp [hhalted]), hfetch]

end

/-- A step-over makes its first fetch before it looks at the record; where that is no call, the step-into that
follows repeats the fetch to no effect (42 R193). -/
theorem startStepOver_of_nonCall {s : State} (hhalted : s.halted = false)
    (hnonCall : ∀ d u, fetch s = .ok d u → Decoded.isCall d = false) : startStepOver s = startStepInto s := by
  cases hfetch : fetch { s with flight := .single, response := none, stepResult := none } with
  | stop u =>
    rw [startStepOver_of_stop hhalted hfetch, startStepInto,
      stepInto_stop (s := { s with flight := .single, response := none }) hhalted hfetch]
    rfl
  | ok d u =>
    obtain ⟨v, hv⟩ := fetch_ok_congr (s := s) hfetch rfl rfl rfl
    rw [startStepOver_of_ok hhalted hfetch, if_neg (by simp [hnonCall d v hv]), startStepInto,
      stepInto_after_fetch (s := { s with flight := .single, response := none }) hhalted hfetch]

/-- Settles O48: a halted machine reports NOT_ADVANCED either way, and what is no call is only stepped into. -/
theorem stepOverNonCall : Obligations.StepOverNonCall := by
  unfold Obligations.StepOverNonCall
  intro s h
  cases hhalted : s.halted with
  | true => rw [startStepOver_of_halted hhalted, startStepInto_of_halted hhalted]; rfl
  | false => exact startStepOver_of_nonCall hhalted (h.resolve_left (by simp [hhalted]))

/-- Settles O49: the start by what the first fetch finds, the loop by how a step-over goes on and ends. -/
theorem stepOverCall : Obligations.StepOverCall := by
  unfold Obligations.StepOverCall
  refine ⟨fun s u d hhalted hfetch hcall => ?start,
    fun s r hflight hresult => ⟨fun hr hdepth => ?goesOn, fun h => ?ends⟩⟩
  case start => rw [startStepOver_of_ok hhalted hfetch, if_pos hcall]
  case goesOn => rw [settle_over hflight hresult, if_pos ⟨hr, hdepth⟩]
  case ends =>
    have hends : ¬ (r = .continue ∧ 0 < s.depth) := fun hgoesOn =>
      h.elim (· hgoesOn.1) (Int.not_le.mpr hgoesOn.2)
    rw [settle_over hflight hresult, if_neg hends, endStepCommand_eq]

/-! ### A run (42 R198) is silent (R203) -/

/-- Between two states of a run nothing is emitted, and the run stays in flight. -/
def SilentRun (s t : State) : Prop := s.flight = .run → t.notes = s.notes ∧ t.flight = .run

theorem silentRun_trans {s t u : State} (h₁ : SilentRun s t) (h₂ : SilentRun t u) : SilentRun s u := fun hrun =>
  ⟨(h₂ (h₁ hrun).2).1.trans (h₁ hrun).1, (h₂ (h₁ hrun).2).2⟩

theorem silentRun_of_eq {s t : State} (hnotes : t.notes = s.notes) (hflight : t.flight = s.flight) : SilentRun s t :=
  fun hrun => ⟨hnotes, hflight.trans hrun⟩

theorem emit_silentRun (n : Notification) (s : State) : SilentRun s (emit n s) := fun hrun => by
  simp [emit_eq, hrun]

theorem raiseFault_silentRun (c : FaultCause) (s : State) : SilentRun s (raiseFault c s) := fun hrun => by
  simp [raiseFault_eq, hrun]

theorem composes_silentRun : Composes SilentRun where
  refl _ := silentRun_of_eq rfl rfl
  trans _ _ _ := silentRun_trans
  fault c s _ := raiseFault_silentRun c s
  arm _ _ := silentRun_of_eq rfl rfl

theorem memWrite_silentRun (a x : Word) (s : State) : SilentRun s (memWrite a x s) := fun hrun => by
  simp [memWrite_eq, hrun]

theorem writeReg_silentRun (r : Fin 8) (x : Word) (s : State) : SilentRun s (writeReg r x s) := fun hrun => by
  simp [writeReg_eq, hrun]

theorem exec_silentRun {i : Instr} {s t : State} (e : exec i s = .next t) : SilentRun s t := by
  apply exec_composes composes_silentRun memWrite_silentRun writeReg_silentRun i s t e
  all_goals
    intros
    intro hrun
    simp [emit_eq, pushOs_eq, pushCs_eq, dropOs_eq, dropCsIfAny_eq, send, notesPlus, hrun]

theorem execBody_silentRun {b : Body} {s t : State} (e : execBody b s = .next t) : SilentRun s t := by
  cases b with
  | instr i => exact exec_silentRun e
  | unknown w => cases e; exact raiseFault_silentRun _ s

theorem cacheInsert_silentRun (d : Decoded) (s : State) : SilentRun s (cacheInsert d s) := by
  unfold cacheInsert
  split
  · exact emit_silentRun _ { s with ic := cachePut d s.ic }
  · split
    · exact silentRun_of_eq rfl rfl
    · exact emit_silentRun _ { s with ic := cachePut d s.ic }

theorem completeStep_silentRun (old : Word) (s : State) : SilentRun s (completeStep old s) := by
  rcases completeStep_cases old s with ⟨-, e⟩ | ⟨-, -, ⟨d, -, e⟩ | e⟩ <;> rw [e]
  · exact silentRun_of_eq rfl rfl
  · obtain ⟨b, r, report⟩ := reportStep_eq d (emit (.decodeViewChanged old s.pc) (cacheInsert d s))
    rw [report]
    exact silentRun_trans (cacheInsert_silentRun d s) (emit_silentRun _ (cacheInsert d s))
  · exact raiseFault_silentRun _ s

theorem fetch_silentRun (s : State) : SilentRun s (fetch s).state := by
  unfold fetch
  split
  · exact silentRun_of_eq rfl rfl
  · rcases decodeHere_cases s with ⟨d, -, e⟩ | ⟨-, e⟩ <;> rw [e]
    · exact cacheInsert_silentRun d s
    · exact raiseFault_silentRun _ s

theorem onNext_next {f : State → State} {o : Host.Outcome State Fault Refusal} {t : State}
    (e : onNext f o = .next t) : ∃ u, o = .next u ∧ t = f u := by
  cases o with
  | next u => cases e; exact ⟨u, rfl, rfl⟩
  | fault r => cases e
  | refused r => cases e

/-- The ways a step-into can end, whatever the cache holds (42 R187). -/
theorem stepInto_next_cases {s t : State} (e : stepInto s = .next t) :
    t = { s with stepResult := some .notAdvanced } ∨
    fetch { s with stepResult := none } = .stop t ∨
    ∃ d u, fetch { s with stepResult := none } = .ok d u ∧
      (t = raiseFault .pcRange u ∨
        ∃ p v, execBody d.body { u with pc := p } = .next v ∧ t = completeStep s.pc v) := by
  by_cases hhalted : s.halted = true
  · cases (stepInto_of_halted hhalted).symm.trans e
    exact .inl rfl
  rw [Bool.not_eq_true] at hhalted
  cases hfetch : fetch { s with stepResult := none } with
  | stop u =>
    cases (stepInto_stop hhalted hfetch).symm.trans e
    exact .inr (.inl rfl)
  | ok d u =>
    refine .inr (.inr ⟨d, u, rfl, ?_⟩)
    by_cases h : s.pc.toNat + d.span ≤ 32767
    · rw [stepInto_advances hhalted hfetch h] at e
      obtain ⟨v, hbody, rfl⟩ := onNext_next e
      exact .inr ⟨_, v, hbody, rfl⟩
    · cases (stepInto_pcRange hhalted hfetch (Nat.not_le.mp h)).symm.trans e
      exact .inl rfl

theorem stepInto_silentRun {s t : State} (e : stepInto s = .next t) : SilentRun s t := by
  have hfetched : SilentRun s (fetch { s with stepResult := none }).state :=
    fetch_silentRun { s with stepResult := none }
  rcases stepInto_next_cases e with rfl | hfetch | ⟨d, u, hfetch, rfl | ⟨p, v, hbody, rfl⟩⟩
  · exact silentRun_of_eq rfl rfl
  · rwa [hfetch] at hfetched
  · rw [hfetch] at hfetched
    exact silentRun_trans hfetched (raiseFault_silentRun .pcRange u)
  · rw [hfetch] at hfetched
    have hperformed : SilentRun u v := execBody_silentRun (s := { u with pc := p }) hbody
    exact silentRun_trans (silentRun_trans hfetched hperformed) (completeStep_silentRun s.pc v)

/-- Settles O50: every part of a StepInto is silent in a run, and its result decides whether the run goes on. -/
theorem runLoop : Obligations.RunLoop := by
  unfold Obligations.RunLoop
  refine ⟨fun _ => rfl, fun s t hrun e => stepInto_silentRun e hrun,
    fun s r hrun hresult => ⟨fun hr => ?goesOn, fun hr => ?ends⟩⟩
  case goesOn => rw [settle_run hrun hresult, if_pos hr]
  case ends => rw [settle_run hrun hresult, if_neg hr, endRun_eq]

end Sys2Proof.Machine
end

section
/-! PROOFS. The command port (42 R181, R199 to R201; 70 R503): pause and stop, and which command is taken when: O52,
O53. -/

namespace Sys2Proof.Machine

/-! ### pause and stop (42 R199, R200) -/

theorem pause_eq (s : State) : pause s = { s with
    pausePending := true
    notes := s.notes ++
      [.consolidatedRefresh { mem := s.mem, regs := s.regs, os := s.os, cs := s.cs, view := s.pc }] } := rfl

theorem stop_eq (s : State) : stop s = { s with
    halted := true
    es := if s.flight = .run then s.es else .halted
    notes := (if s.halted then s.notes else notesPlus s [.halted]) ++
      [.consolidatedRefresh { mem := s.mem, regs := s.regs, os := s.os, cs := s.cs, view := s.pc }] } := by
  rw [stop, setHalted_eq]
  rfl

theorem perform_of_creates {c : Command} (h : c.creates = true) (s : State) : perform c s = performLoaded c s :=
  if_pos (by rw [h, Bool.or_true])

/-- Settles O52: the whole states after pause and stop, and each command's own meaning where it is accepted. -/
theorem pauseAndStop : Obligations.PauseAndStop := by
  unfold Obligations.PauseAndStop
  refine ⟨fun s => ⟨pause_eq s, stop_eq s⟩, fun s hloaded => ?loaded,
    fun s => ⟨fun image => perform_of_creates rfl s, fun bytes => perform_of_creates rfl s⟩⟩
  case loaded =>
    have own (c : Command) : perform c s = performLoaded c s := perform_of_loaded hloaded c
    exact ⟨own .pause, own .stop, own .run, own .stepInto, own .stepOver,
      fun addr x w r => own (.toggle addr x w r), own .save⟩

/-! ### Which command is taken when (42 R201) -/

theorem Command.isLatch_iff (c : Command) : c.isLatch = true ↔ c = .pause ∨ c = .stop := by
  cases c <;> simp [Command.isLatch]

/-- Taking out the first element with a property leaves those without it, in their order. -/
theorem filter_not_eraseP {α : Type} (p : α → Bool) (l : List α) :
    (l.eraseP p).filter (fun x => !p x) = l.filter fun x => !p x := by
  rcases l.exists_or_eq_self_of_eraseP p with e | ⟨a, l₁, l₂, -, ha, hl, e⟩
  · rw [e]
  · rw [e, hl]
    simp [ha]

/-- Where a pause or stop has been issued in flight, the first of them is taken, out of its place. -/
theorem takePending_latch {s : State} (hflight : s.flight ≠ .idle)
    (hissued : .pause ∈ s.pending ∨ .stop ∈ s.pending) :
    ∃ (held after : List Command) (c : Command), s.pending = held ++ c :: after ∧ c.isLatch = true ∧
      (∀ x ∈ held, x.isLatch = false) ∧ takePending s = some (c, { s with pending := held ++ after }) := by
  obtain ⟨b, hb, hlatch⟩ : ∃ b ∈ s.pending, b.isLatch = true :=
    hissued.elim (⟨_, ·, rfl⟩) (⟨_, ·, rfl⟩)
  obtain ⟨c, held, after, hheld, hc, hpending, herase⟩ := List.exists_of_eraseP hb hlatch
  have hheld' : ∀ x ∈ held, x.isLatch = false := fun x hx => Bool.eq_false_of_not_eq_true (hheld x hx)
  have hfind : s.pending.find? Command.isLatch = some c := by
    rw [hpending, List.find?_append, List.find?_eq_none.mpr hheld, Option.none_or, List.find?_cons_of_pos hc]
  exact ⟨held, after, c, hpending, hc, hheld', by rw [takePending_inFlight hflight, hfind, herase]; rfl⟩

/-- Settles O53: what is taken in flight, with the rest of the list kept, and what is taken with nothing in flight. -/
theorem heldCommandsWait : Obligations.HeldCommandsWait := by
  unfold Obligations.HeldCommandsWait
  refine ⟨fun s u c hflight htake => ?taken, fun s hflight hhold silent hissued => ?inFlight,
    fun s hidle hhold silent => ⟨fun c cs hpending => step_idle_cons hhold silent hidle hpending,
      step_idle_nil hhold silent hidle⟩⟩
  case taken =>
    rcases takePending_some htake with ⟨hidle, -⟩ | ⟨-, hlatch, rfl⟩
    · exact absurd hidle hflight
    · exact ⟨c.isLatch_iff.mp hlatch, rfl, filter_not_eraseP Command.isLatch s.pending⟩
  case inFlight =>
    obtain ⟨held, after, c, hpending, hlatch, hheld, htake⟩ := takePending_latch (s := tickOff s) hflight hissued
    refine ⟨held, after, c, hpending, c.isLatch_iff.mp hlatch, fun x hx => ?_, htake, ?_⟩
    · rw [← not_or, ← x.isLatch_iff, hheld x hx]
      exact Bool.false_ne_true
    · rw [step_silent silent, advance_take (s := tickOff s) hhold htake]

end Sys2Proof.Machine
end

section
/-! PROOFS. Notifications have no effect on the state (42 R203): O51. Blindness to the notifications is carried
from the named updates through the instructions and the step to the commands. -/

namespace Sys2Proof.Machine

/-! ### Functions that cannot see the notifications -/

/-- Two states are equal but for their notifications. -/
abbrev SameButNotes (s t : State) : Prop := forgetNotes s = forgetNotes t

/-- Two outcomes are equal but for the notifications of the next state. -/
abbrev AlikeOutcome (o o' : Host.Outcome State Fault Refusal) : Prop := onNext forgetNotes o = onNext forgetNotes o'

/-- The part of an instruction, with something done to the state it leaves. -/
def Flow.onState {α : Type} (F : State → State) : Flow α → Flow α
  | .ok a s => .ok a (F s)
  | .stop s => .stop (F s)

/-- Two parts of an instruction are equal but for the notifications of the state they leave. -/
abbrev AlikeFlow {α : Type} (m m' : Flow α) : Prop := m.onState forgetNotes = m'.onState forgetNotes

/-- An update gives the same, but for notifications, whatever notifications there are. -/
def BlindUpdate (F : State → State) : Prop := ∀ s, SameButNotes (F s) (F (forgetNotes s))

/-- A move gives the same, but for notifications, whatever notifications there are. -/
def BlindMove (f : State → Host.Outcome State Fault Refusal) : Prop := ∀ s, AlikeOutcome (f s) (f (forgetNotes s))

theorem BlindUpdate.same {F : State → State} (hF : BlindUpdate F) {s t : State} (h : SameButNotes s t) :
    SameButNotes (F s) (F t) :=
  (hF s).trans ((congrArg (fun u => forgetNotes (F u)) h).trans (hF t).symm)

theorem BlindMove.alike {f : State → Host.Outcome State Fault Refusal} (hf : BlindMove f) {s t : State}
    (h : SameButNotes s t) : AlikeOutcome (f s) (f t) :=
  (hf s).trans ((congrArg (fun u => onNext forgetNotes (f u)) h).trans (hf t).symm)

theorem alike_next {s t : State} (h : SameButNotes s t) : AlikeOutcome (.next s) (.next t) :=
  congrArg Host.Outcome.next h

/-- A choice made on the same grounds is alike where both of its branches are. -/
theorem congr_ite {α β : Type} {f : α → β} {c : Prop} [Decidable c] {a a' b b' : α} (h : f a = f a')
    (h' : f b = f b') : f (if c then a else b) = f (if c then a' else b') := by
  split
  · exact h
  · exact h'

theorem alike_onNext {F : State → State} (hF : BlindUpdate F) {o o' : Host.Outcome State Fault Refusal}
    (h : AlikeOutcome o o') : AlikeOutcome (onNext F o) (onNext F o') := by
  cases o with
  | fault r => cases r
  | refused r =>
    cases o' with
    | refused r' => exact h
    | next t => nomatch h
    | fault r' => cases r'
  | next s =>
    cases o' with
    | next t => exact alike_next (hF.same (Host.Outcome.next.inj h))
    | fault r' => cases r'
    | refused r' => nomatch h

/-- Parts that are alike end the same way, with the same value where there is one. -/
theorem alikeFlow_cases {α : Type} {m m' : Flow α} (h : AlikeFlow m m') :
    (∃ a s t, m = .ok a s ∧ m' = .ok a t ∧ SameButNotes s t) ∨
    ∃ s t, m = .stop s ∧ m' = .stop t ∧ SameButNotes s t := by
  cases m with
  | ok a s =>
    cases m' with
    | ok a' t =>
      obtain ⟨rfl, hst⟩ := Flow.ok.inj h
      exact .inl ⟨a, s, t, rfl, rfl, hst⟩
    | stop t => nomatch h
  | stop s =>
    cases m' with
    | ok a' t => nomatch h
    | stop t => exact .inr ⟨s, t, rfl, rfl, Flow.stop.inj h⟩

/-- Parts that are alike, followed by a move that cannot see the notifications, give outcomes that are alike. -/
theorem alike_andThen {α : Type} {m m' : Flow α} {f : α → State → Host.Outcome State Fault Refusal}
    (h : AlikeFlow m m') (hf : ∀ a, BlindMove (f a)) : AlikeOutcome (m.andThen f) (m'.andThen f) := by
  rcases alikeFlow_cases h with ⟨a, s, t, rfl, rfl, hst⟩ | ⟨s, t, rfl, rfl, hst⟩
  · exact (hf a).alike hst
  · exact alike_next hst

/-! ### The named updates -/

theorem emitAll_blind (ns : List Notification) : BlindUpdate (emitAll ns) := fun s => by
  simp only [emitAll_eq]
  rfl

theorem raiseFault_blind (c : FaultCause) : BlindUpdate (raiseFault c) := fun s => by
  simp only [raiseFault_eq]
  rfl

theorem memWrite_blind (a x : Word) : BlindUpdate (memWrite a x) := fun s => by
  simp only [memWrite_eq]
  rfl

theorem writeReg_blind (r : Fin 8) (x : Word) : BlindUpdate (writeReg r x) := fun s => by
  simp only [writeReg_eq]
  rfl

theorem pushOs_blind (x : Word) : BlindUpdate (pushOs x) := fun s => by
  simp only [pushOs_eq]
  rfl

theorem dropOs_blind : BlindUpdate dropOs := fun s => by
  simp only [dropOs_eq]
  rfl

theorem storeTo_blind (v : Operand) (x : Word) : BlindUpdate (storeTo v x) := fun s => by
  cases v with
  | lit a => exact memWrite_blind a x (armIf (writeHit (.lit a) s) s)
  | reg r => exact writeReg_blind r x (armIf (writeHit (.reg r) s) s)
  | bad b => exact raiseFault_blind .badOperand s

theorem storeData_blind (v : Operand) (c : Raw) : BlindUpdate (storeData v c) := fun s => by
  unfold storeData
  split
  · exact raiseFault_blind .badData s
  · exact storeTo_blind v _ s

theorem takeAfterCr_blind (a : Operand) : BlindUpdate (takeAfterCr a) := fun s => by
  have hinput : (forgetNotes s).input = s.input := rfl
  unfold takeAfterCr
  rw [hinput]
  cases s.input with
  | nil => rfl
  | cons c rest => exact storeData_blind a c { s with input := rest, hold := none }

theorem takeUnit_blind (a : Operand) : BlindUpdate (takeUnit a) := fun s => by
  have hinput : (forgetNotes s).input = s.input := rfl
  unfold takeUnit
  rw [hinput]
  cases s.input with
  | nil => rfl
  | cons c rest =>
    by_cases h : c = Config.carriageReturn
    · simp only [if_pos h]
      exact takeAfterCr_blind a { s with input := rest, hold := none }
    · simp only [if_neg h]
      exact storeData_blind a c { s with input := rest, hold := none }

/-! ### The instructions -/

theorem resolve_alike (v : Operand) (s : State) : AlikeFlow (resolve v s) (resolve v (forgetNotes s)) := by
  cases v with
  | lit w => rfl
  | reg r => rfl
  | bad b => exact congrArg Flow.stop (raiseFault_blind .badOperand s)

/-- What resolves an operand first and goes on with its value. -/
theorem resolve_blind (v : Operand) {f : Word → State → Host.Outcome State Fault Refusal}
    (hf : ∀ x, BlindMove (f x)) : BlindMove fun s => (resolve v s).andThen f := fun s =>
  alike_andThen (resolve_alike v s) hf

theorem BlindUpdate.move {F : State → State} (hF : BlindUpdate F) : BlindMove fun s => .next (F s) := fun s =>
  alike_next (hF s)

theorem binary_blind (f : Word → Word → Word) (a b c : Operand) : BlindMove (binary f a b c) :=
  resolve_blind b fun x => resolve_blind c fun y => (storeTo_blind a (f x y)).move

theorem jumpTo_blind (v : Operand) : BlindMove (jumpTo v) := resolve_blind v fun _ _ => rfl

theorem branchIf_blind (taken : Word → Bool) (a b : Operand) : BlindMove (branchIf taken a b) :=
  resolve_blind a fun _ s => congr_ite (jumpTo_blind b s) rfl

theorem execCall_blind (a : Operand) : BlindMove (execCall a) :=
  resolve_blind a fun x s => by
    refine congr_ite (alike_next (raiseFault_blind .stackOverflow s)) (alike_next ?_)
    simp only [pushCs_eq, pushOs_eq]
    rfl

theorem execRet_blind : BlindMove execRet := fun s => by
  have hos : (forgetNotes s).os = s.os := rfl
  unfold execRet
  rw [hos]
  cases topOf s.os with
  | none => exact alike_next (raiseFault_blind .osUnderflow s)
  | some x =>
    refine congr_ite (alike_next (raiseFault_blind .csUnderflow s)) (alike_next ?_)
    simp only [dropCsIfAny_eq, dropOs_eq]
    rfl

theorem execPop_blind (a : Operand) : BlindMove (execPop a) := fun s => by
  have hos : (forgetNotes s).os = s.os := rfl
  unfold execPop
  rw [hos]
  cases topOf s.os with
  | none => exact alike_next (raiseFault_blind .osUnderflow s)
  | some x => exact alike_next ((storeTo_blind a x.1).same (dropOs_blind s))

theorem exec_blind (i : Instr) : BlindMove (exec i) := by
  cases i with
  | halt => exact fun s => alike_next (emitAll_blind [.halted] { s with halted := true })
  | noop => exact fun _ => rfl
  | set a b =>
    refine resolve_blind b fun x s => ?_
    cases a with
    | lit w => exact alike_next (raiseFault_blind .setDest s)
    | reg r => exact alike_next (writeReg_blind r x (armIf (writeHit (.reg r) s) s))
    | bad v => exact alike_next (raiseFault_blind .setDest s)
  | push a =>
    exact resolve_blind a fun x s =>
      congr_ite (alike_next (raiseFault_blind .stackOverflow s)) (alike_next (pushOs_blind x s))
  | pop a => exact execPop_blind a
  | eq a b c => exact binary_blind _ a b c
  | gt a b c => exact binary_blind _ a b c
  | add a b c => exact binary_blind _ a b c
  | mult a b c => exact binary_blind _ a b c
  | and a b c => exact binary_blind _ a b c
  | or a b c => exact binary_blind _ a b c
  | mod a b c =>
    exact resolve_blind b fun x => resolve_blind c fun y s =>
      congr_ite (alike_next (raiseFault_blind .modZero s)) (alike_next (storeTo_blind a _ s))
  | not a b => exact resolve_blind b fun x => (storeTo_blind a _).move
  | rmem a b =>
    exact resolve_blind b fun addr s => alike_next
      (storeData_blind a (s.mem.read addr.toNat) (armIf (bpCheck s.bt addr.toNat .read) s))
  | wmem a b =>
    exact resolve_blind a fun addr => resolve_blind b fun x s => alike_next
      (memWrite_blind addr x (armIf (bpCheck s.bt addr.toNat .write) s))
  | jmp a => exact jumpTo_blind a
  | jt a b => exact branchIf_blind _ a b
  | jf a b => exact branchIf_blind _ a b
  | call a => exact execCall_blind a
  | ret => exact execRet_blind
  | out a => exact resolve_blind a fun _ _ => rfl
  | input a => exact (takeUnit_blind a).move

/-! ### The step -/

theorem cacheInsert_blind (d : Decoded) : BlindUpdate (cacheInsert d) := fun s => by
  have hic : (forgetNotes s).ic = s.ic := rfl
  unfold cacheInsert
  rw [hic]
  cases cacheLookup s.ic d.pos with
  | none => exact emitAll_blind [.disasmInsertedAt d.pos] { s with ic := cachePut d s.ic }
  | some e => exact congr_ite rfl (emitAll_blind [.disasmUpdatedAt d.pos] { s with ic := cachePut d s.ic })

theorem decodeHere_alike (s : State) : AlikeFlow (decodeHere s) (decodeHere (forgetNotes s)) := by
  have hdecode : decodeAt (forgetNotes s).mem (forgetNotes s).pc = decodeAt s.mem s.pc := rfl
  unfold decodeHere
  rw [hdecode]
  cases decodeAt s.mem s.pc with
  | none => exact congrArg Flow.stop (raiseFault_blind .decodeRange s)
  | some d => exact congrArg (Flow.ok d) (cacheInsert_blind d s)

theorem fetch_alike (s : State) : AlikeFlow (fetch s) (fetch (forgetNotes s)) := by
  have hlookup : cacheLookup (forgetNotes s).ic (forgetNotes s).pc = cacheLookup s.ic s.pc := rfl
  unfold fetch
  rw [hlookup]
  cases cacheLookup s.ic s.pc with
  | none => exact decodeHere_alike s
  | some d => rfl

theorem reportStep_blind (d : Decoded) : BlindUpdate (reportStep d) := fun _ => congr_ite rfl (congr_ite rfl rfl)

theorem decodeView_blind (old : Word) : BlindUpdate fun s => emit (.decodeViewChanged old s.pc) s := fun s =>
  emitAll_blind [.decodeViewChanged old s.pc] s

theorem finishStep_blind (old : Word) : BlindUpdate (finishStep old) := fun s => by
  have hdecode : decodeAt (forgetNotes s).mem (forgetNotes s).pc = decodeAt s.mem s.pc := rfl
  unfold finishStep decodeHere
  rw [hdecode]
  cases decodeAt s.mem s.pc with
  | none => exact raiseFault_blind .decodeRange s
  | some d => exact (reportStep_blind d).same ((decodeView_blind old).same (cacheInsert_blind d s))

theorem completeStep_blind (old : Word) : BlindUpdate (completeStep old) := fun s =>
  congr_ite rfl (finishStep_blind old s)

theorem execBody_blind (b : Body) : BlindMove (execBody b) := by
  cases b with
  | instr i => exact exec_blind i
  | unknown w => exact (raiseFault_blind .unknownOpcode).move

theorem stepInto_blind : BlindMove stepInto := fun s => by
  refine congr_ite rfl (alike_andThen (fetch_alike { s with stepResult := none }) fun d u => ?_)
  by_cases h : u.pc.toNat + d.span ≤ 32767
  · rw [advancePc_of_le h, advancePc_of_le (s := forgetNotes u) h]
    exact alike_onNext (completeStep_blind u.pc)
      (execBody_blind d.body { u with pc := BitVec.ofNat 15 (u.pc.toNat + d.span) })
  · rw [advancePc_of_gt (Nat.not_le.mp h), advancePc_of_gt (s := forgetNotes u) (Nat.not_le.mp h)]
    exact alike_next (raiseFault_blind .pcRange u)

theorem resumeHold_blind (h : Hold) : BlindUpdate (resumeHold h) := fun s =>
  congr_ite (takeAfterCr_blind h.dest s) (takeUnit_blind h.dest s)

theorem resumeStep_blind (h : Hold) : BlindUpdate (resumeStep h) := fun s =>
  (completeStep_blind (s.pc - 2#15)).same (resumeHold_blind h { s with stepResult := none })

theorem settle_blind : BlindUpdate settle := fun s => by
  have hresult : (forgetNotes s).stepResult = s.stepResult := rfl
  have hflight : (forgetNotes s).flight = s.flight := rfl
  unfold settle
  rw [hresult, hflight]
  cases s.stepResult with
  | none => rfl
  | some r =>
    cases s.flight with
    | idle => rfl
    | single => rfl
    | _ => exact congr_ite rfl rfl

/-! ### The commands -/

theorem startStepInto_blind : BlindMove startStepInto := fun s =>
  alike_onNext settle_blind (stepInto_blind { s with flight := .single, response := none })

theorem startStepOver_blind : BlindMove startStepOver := fun s => by
  cases hhalted : s.halted with
  | true =>
    rw [startStepOver_of_halted hhalted, startStepOver_of_halted (s := forgetNotes s) hhalted]
    rfl
  | false =>
    rcases alikeFlow_cases (fetch_alike { s with flight := .single, response := none, stepResult := none }) with
      ⟨d, u, v, hu, hv, same⟩ | ⟨u, v, hu, hv, same⟩
    · rw [startStepOver_of_ok hhalted hu, startStepOver_of_ok (s := forgetNotes s) hhalted hv]
      have same_over : SameButNotes { u with flight := .over, depth := 0 } { v with flight := .over, depth := 0 } :=
        congrArg (fun w => { w with flight := .over, depth := 0 }) same
      exact congr_ite (alike_onNext settle_blind (stepInto_blind.alike same_over))
        (alike_onNext settle_blind (stepInto_blind.alike same))
    · rw [startStepOver_of_stop hhalted hu, startStepOver_of_stop (s := forgetNotes s) hhalted hv]
      exact alike_next (settle_blind.same same)

theorem decodeHere_same {s t : State} (h : SameButNotes s t) : AlikeFlow (decodeHere s) (decodeHere t) :=
  (decodeHere_alike s).trans
    ((congrArg (fun u => (decodeHere u).onState forgetNotes) h).trans (decodeHere_alike t).symm)

/-- The end of a load or a restore that succeeds (70 R500, 47 R306). -/
theorem restored_blind : BlindUpdate fun s => { emitRefresh s with response := some .ok } := fun _ => rfl

theorem installImage_blind (image : List Raw) : BlindUpdate (installImage image) := fun s => by
  simp only [installImage, emit_eq]
  rfl

theorem installSnapshot_blind (n : Snapshot) : BlindUpdate (installSnapshot n) := fun s => by
  simp only [installSnapshot, emit_eq]
  rfl

theorem load_blind (image : List Raw) : BlindUpdate (load image) := fun s => by
  refine congr_ite rfl ?_
  rcases alikeFlow_cases (decodeHere_same (installImage_blind image s)) with
    ⟨d, u, v, hu, hv, same⟩ | ⟨u, v, hu, hv, same⟩
  all_goals
    rw [hu, hv]
    exact restored_blind.same same

theorem loadState_blind (bytes : List Byte) : BlindUpdate (loadState bytes) := fun s => by
  have hparse : parseSnapshot (forgetNotes s).params bytes = parseSnapshot s.params bytes := rfl
  unfold loadState
  rw [hparse]
  cases parseSnapshot s.params bytes with
  | none => rfl
  | some n =>
    rcases alikeFlow_cases (decodeHere_same (installSnapshot_blind n s)) with
      ⟨d, u, v, hu, hv, same⟩ | ⟨u, v, hu, hv, same⟩
    · simp only [hu, hv]
      exact restored_blind.same same
    · simp only [hu, hv]
      exact congrArg (fun w => { w with es := .halted, response := some (.step .fault) }) same

theorem toggle_blind (addr : Nat) (x w r : Bool) : BlindUpdate (toggle addr x w r) := fun _ =>
  congr_ite rfl <| congr_ite (emitAll_blind [.breakpointToggled addr false] _) <| congr_ite rfl <|
    emitAll_blind [.breakpointToggled addr true] _

theorem stop_blind : BlindUpdate stop := fun s => by
  rw [stop_eq, stop_eq]
  rfl

theorem performLoaded_blind (c : Command) : BlindMove (performLoaded c) := by
  cases c with
  | load image => exact (load_blind image).move
  | stepInto => exact startStepInto_blind
  | stepOver => exact startStepOver_blind
  | run => exact fun _ => rfl
  | pause => exact fun _ => rfl
  | stop => exact stop_blind.move
  | toggle addr x w r => exact (toggle_blind addr x w r).move
  | save => exact fun _ => rfl
  | loadState bytes => exact (loadState_blind bytes).move

theorem perform_blind (c : Command) : BlindMove (perform c) := fun s => congr_ite (performLoaded_blind c s) rfl

/-! ### The moves of the machine -/

theorem takePending_forgetNotes (s : State) :
    takePending (forgetNotes s) = (takePending s).map fun p => (p.1, forgetNotes p.2) := by
  by_cases hidle : s.flight = .idle
  · have hpending : (forgetNotes s).pending = s.pending := rfl
    rw [takePending_idle hidle, takePending_idle (s := forgetNotes s) hidle, hpending]
    cases s.pending <;> rfl
  · rw [takePending_inFlight hidle, takePending_inFlight (s := forgetNotes s) hidle, Option.map_map]
    rfl

theorem engineMove_blind : BlindMove engineMove := fun s => by
  by_cases hidle : s.flight = .idle
  · rw [engineMove, engineMove, hidle, show (forgetNotes s).flight = .idle from hidle]
    rfl
  · rw [engineMove_inFlight hidle, engineMove_inFlight (s := forgetNotes s) hidle]
    exact alike_onNext settle_blind (stepInto_blind s)

theorem advance_blind : BlindMove advance := fun s => by
  cases hhold : s.hold with
  | some h =>
    rw [advance_hold hhold, advance_hold (s := forgetNotes s) hhold]
    exact alike_next (settle_blind.same (resumeStep_blind h s))
  | none =>
    have htakes := takePending_forgetNotes s
    cases htake : takePending s with
    | none =>
      rw [htake] at htakes
      rw [advance_move hhold htake, advance_move (s := forgetNotes s) hhold htakes]
      exact engineMove_blind s
    | some cu =>
      rw [htake] at htakes
      rw [advance_take hhold htake, advance_take (s := forgetNotes s) hhold htakes]
      exact perform_blind cu.1 cu.2

/-- Settles O51: what the host does is not seen by the notifications, and no move of the machine sees them. -/
theorem notificationsHaveNoEffect : Obligations.NotificationsHaveNoEffect := by
  unfold Obligations.NotificationsHaveNoEffect
  intro s
  rcases schedule_cases s with silent | ⟨c, r, hs⟩ | ⟨u, r, hs⟩
  · rw [step_silent silent, step_silent (s := forgetNotes s) silent]
    exact advance_blind (tickOff s)
  · rw [step_command hs, step_command (s := forgetNotes s) hs]
    rfl
  · rw [step_supply hs, step_supply (s := forgetNotes s) hs]
    rfl

end Sys2Proof.Machine
end

section
/-! PROOFS. The control instructions (43): what each answers, in its cases, as whole states: O28, O29, O30, O26, O27. -/

namespace Sys2Proof.Machine

/-- After one notification, more are emitted behind it: a run suppresses both. -/
theorem notesPlus_cons {s t : State} {n : Notification} (hflight : t.flight = s.flight)
    (hnotes : t.notes = notesPlus s [n]) (ns : List Notification) : notesPlus t ns = notesPlus s (n :: ns) := by
  by_cases hrun : s.flight = .run <;> simp [notesPlus, hflight, hnotes, hrun]

/-! ### jmp, jt and jf (43 R232 to R234) -/

theorem jumpTo_some {v : Operand} {s : State} {t : Word} (h : valueOf v s = some t) :
    jumpTo v s = .next { afterReads [v] s with pc := t } := by
  rw [jumpTo, resolve_some h, andThen_ok]

theorem jumpTo_none {v : Operand} {s : State} (h : valueOf v s = none) :
    jumpTo v s = .next (raiseFault .badOperand s) := by
  rw [jumpTo, resolve_none h, andThen_stop]

section
variable {taken : Word → Bool} {a : Operand} {s : State} {c : Word} (b : Operand)

theorem branchIf_of_taken (ha : valueOf a s = some c) (h : taken c = true) :
    branchIf taken a b s = jumpTo b (afterReads [a] s) := by
  rw [branchIf, resolve_some ha, andThen_ok, if_pos h]

theorem branchIf_of_not_taken (ha : valueOf a s = some c) (h : ¬ taken c = true) :
    branchIf taken a b s = .next (afterReads [a] s) := by
  rw [branchIf, resolve_some ha, andThen_ok, if_neg h]

theorem branchIf_none (ha : valueOf a s = none) : branchIf taken a b s = .next (raiseFault .badOperand s) := by
  rw [branchIf, resolve_none ha, andThen_stop]

end

/-- jt and jf are the two branches whose condition, as a number, is not 0 and is 0. -/
theorem branches_eq_branchIf {p : (Operand → Operand → Instr) × (Nat → Prop)}
    (hp : p ∈ [(Instr.jt, fun n : Nat => n ≠ 0), (Instr.jf, fun n : Nat => n = 0)]) :
    ∃ taken : Word → Bool, (∀ a b s, exec (p.1 a b) s = branchIf taken a b s) ∧
      ∀ c, taken c = true ↔ p.2 c.toNat := by
  rw [List.mem_pair] at hp
  rcases hp with rfl | rfl
  · exact ⟨fun c => decide (c ≠ 0#15), fun _ _ _ => rfl, fun c => by simp [BitVec.toNat_eq]⟩
  · exact ⟨fun c => decide (c = 0#15), fun _ _ _ => rfl, fun c => by simp [BitVec.toNat_eq]⟩

/-- Settles O28: the condition is read first, and the target only where the branch is taken. -/
theorem branchInstructions : Obligations.BranchInstructions := by
  unfold Obligations.BranchInstructions
  intro p hp a b s
  obtain ⟨taken, hexec, htaken⟩ := branches_eq_branchIf hp
  simp only [hexec, ← htaken]
  refine ⟨fun c t ha hc hb => ?taken, fun c ha hc hb => ?badTarget, fun c ha hc => ?notTaken, branchIf_none b⟩
  case taken => rw [branchIf_of_taken b ha hc, jumpTo_some (by simpa using hb), afterReads_two]; rfl
  case badTarget => rw [branchIf_of_taken b ha hc, jumpTo_none (by simpa using hb)]
  case notTaken => exact branchIf_of_not_taken b ha hc

/-- Settles O27: jmp is the jump itself, and noop answers the state it was given. -/
theorem jmpAndNoop : Obligations.JmpAndNoop := by
  unfold Obligations.JmpAndNoop
  exact fun s => ⟨fun _ _ => jumpTo_some, fun _ => jumpTo_none, rfl⟩

/-! ### call (43 R235) -/

theorem atCapacity_iff (cap : Option Nat) (l : List Word) : atCapacity cap l = true ↔ cap = some l.length :=
  decide_eq_true_iff

/-- The two pushes of a call give both stacks the same word, the operand stack first. -/
theorem pushBoth_eq (x : Word) (s : State) : pushCs x (pushOs x s) = { s with
    os := s.os ++ [x]
    cs := s.cs ++ [x]
    notes := notesPlus s [.operandStackPushed x, .callStackPushed x] } := by
  have notes : notesPlus (pushOs x s) [.callStackPushed x] =
      notesPlus s [.operandStackPushed x, .callStackPushed x] :=
    notesPlus_cons (by rw [pushOs_eq]) (by rw [pushOs_eq]) _
  rw [pushCs_eq, notes, pushOs_eq]

section
variable {a : Operand} {s : State}

/-- call with a target: the check of both capacities, then both pushes. -/
theorem execCall_some {t : Word} (ha : valueOf a s = some t) : execCall a s =
    if atCapacity s.params.osCapacity s.os || atCapacity s.params.csCapacity s.cs then
      .next (raiseFault .stackOverflow (afterReads [a] s))
    else .next { s with
      os := s.os ++ [s.pc]
      cs := s.cs ++ [s.pc]
      depth := s.depth + 1
      pc := t
      pausePending := (afterReads [a] s).pausePending
      notes := notesPlus s [.operandStackPushed s.pc, .callStackPushed s.pc] } := by
  rw [execCall, resolve_some ha, andThen_ok, pushBoth_eq]
  rfl

theorem execCall_none (ha : valueOf a s = none) : execCall a s = .next (raiseFault .badOperand s) := by
  rw [execCall, resolve_none ha, andThen_stop]

end

/-- Settles O29: the target and both capacities are looked at before anything is pushed. -/
theorem callInstruction : Obligations.CallInstruction := by
  unfold Obligations.CallInstruction
  refine fun a s => ⟨fun t ha hos hcs => ?room, fun t ha hfull => ?full, execCall_none⟩
  case room => exact (execCall_some ha).trans (if_neg (by simp [atCapacity_iff, hos, hcs]))
  case full => exact (execCall_some ha).trans (if_pos (by simpa [atCapacity_iff] using hfull))

/-! ### ret (43 R236) -/

theorem topOf_append (l : List Word) (x : Word) : topOf (l ++ [x]) = some (x, l) := by simp [topOf]

section
variable {s : State} {l : List Word} {t : Word}

theorem dropOs_append (hos : s.os = l ++ [t]) :
    dropOs s = { s with os := l, notes := notesPlus s [.operandStackPopped] } := by
  rw [dropOs_eq, hos, List.dropLast_concat]

/-- The pops of a ret whose call stack is empty: the operand stack's only. -/
theorem dropBoth_nil (hos : s.os = l ++ [t]) (hcs : s.cs = []) :
    dropCsIfAny (dropOs s) = { s with os := l, notes := notesPlus s [.operandStackPopped] } := by
  rw [dropOs_append hos]
  exact if_pos (List.isEmpty_iff.mpr hcs)

/-- The pops of a ret: both stacks lose their tops, the operand stack first. -/
theorem dropBoth_append {k : List Word} {u : Word} (hos : s.os = l ++ [t]) (hcs : s.cs = k ++ [u]) :
    dropCsIfAny (dropOs s) = { s with
      os := l
      cs := k
      notes := notesPlus s [.operandStackPopped, .callStackPopped] } := by
  have notes : notesPlus (dropOs s) [.callStackPopped] = notesPlus s [.operandStackPopped, .callStackPopped] :=
    notesPlus_cons (by rw [dropOs_eq]) (by rw [dropOs_eq]) _
  rw [dropCsIfAny_eq, notes, dropOs_append hos]
  simp [hcs]

theorem execRet_osUnderflow (hos : s.os = []) : execRet s = .next (raiseFault .osUnderflow s) := by
  rw [execRet, hos]
  rfl

/-- ret on an operand stack that is not empty: the check of the call stack, then both pops. -/
theorem execRet_of_top (hos : s.os = l ++ [t]) : execRet s =
    if s.cs.isEmpty && s.params.callStackUnderflowFaults then .next (raiseFault .csUnderflow s)
    else .next { dropCsIfAny (dropOs s) with depth := s.depth - 1, pc := t } := by
  rw [execRet, hos, topOf_append]

end

/-- Settles O30: the two underflows are looked at before anything is popped, and the target is the operand stack's
top in both of the other cases. -/
theorem retInstruction : Obligations.RetInstruction := by
  unfold Obligations.RetInstruction
  intro s
  simp only [exec]
  refine ⟨execRet_osUnderflow, fun hos hcs hfaults => ?csUnderflow, fun l t hos hcs hfaults => ?emptyCallStack,
    fun l k t u hos hcs => ?bothPops⟩
  case csUnderflow =>
    obtain ⟨l, t, hos⟩ := (List.eq_nil_or_concat' s.os).resolve_left hos
    rw [execRet_of_top hos, if_pos (by simp [hcs, hfaults])]
  case emptyCallStack =>
    rw [execRet_of_top hos, if_neg (by simp [hfaults]), dropBoth_nil hos hcs]
  case bothPops =>
    rw [execRet_of_top hos, if_neg (by simp [hcs]), dropBoth_append hos hcs]

/-! ### halt (43 R231) -/

theorem execHalt_eq (s : State) :
    execHalt s = .next { s with halted := true, notes := notesPlus s [.halted] } :=
  congrArg Host.Outcome.next (emit_eq .halted { s with halted := true })

/-- A step of a halted machine whose decode at PC succeeds reports HALTED (42 R186). -/
theorem completeStep_of_halted {s : State} {d : Decoded} (old : Word) (hresult : s.stepResult = none)
    (hhold : s.hold = none) (hhalted : s.halted = true) (hdecode : decodeAt s.mem s.pc = some d) :
    (completeStep old s).stepResult = some .halted := by
  rw [completeStep_report hresult hhold hdecode, reportStep_of_halted (by simpa using hhalted)]

/-- A HALTED step ends whatever command it belongs to, and leaves the machine Halted (42 R180, R198). -/
theorem settle_es_of_halted {s : State} (hflight : s.flight ≠ .idle) (hresult : s.stepResult = some .halted) :
    (settle s).es = .halted := by
  match h : s.flight with
  | .idle => exact absurd h hflight
  | .single => rw [settle_single h hresult]; rfl
  | .over => rw [settle_over h hresult, if_neg (by simp)]; rfl
  | .run => rw [settle_run h hresult, if_neg (by simp)]; rfl

/-- Settles O26: the instruction itself, then the report of its step and the end of the command. -/
theorem haltInstruction : Obligations.HaltInstruction := by
  unfold Obligations.HaltInstruction
  refine ⟨execHalt_eq, fun old s d hresult hhold hhalted hdecode hflight => ?_⟩
  have result := completeStep_of_halted old hresult hhold hhalted hdecode
  have flight : (completeStep old s).flight = s.flight := (Prod.mk.inj (completeStep_commandPart old s)).2
  exact ⟨result, settle_es_of_halted (flight ▸ hflight) result⟩

end Sys2Proof.Machine
end

section
/-! PROOFS. The data-transfer instructions (44): what each answers, in its cases: O23, O24, O25, O21, O22. -/

namespace Sys2Proof.Machine

/-! ### A store at the end of an instruction (42 R191) -/

theorem isPlace_lit (w : Word) : IsPlace (.lit w) := fun _ => nofun

/-- The frame sees neither the pause latch nor the notifications of the state before. -/
theorem onlyPlace_of_latch_notes {a : Operand} {s t : State} {armed : Bool} {ns : List Notification}
    (h : OnlyPlace a { s with pausePending := armed, notes := ns } t) : OnlyPlace a s t :=
  { h with outside := { h.outside with } }

/-- What a store notifies depends on the notifications before it, on whether a run suppresses them, and on the cache
entries it may evict. -/
theorem storeTo_notes_congr {a : Operand} (ha : IsPlace a) (x : Word) {s u : State} (hnotes : u.notes = s.notes)
    (hflight : u.flight = s.flight) (hic : u.ic = s.ic) : (storeTo a x u).notes = (storeTo a x s).notes := by
  cases a with
  | lit w => simp [storeTo_lit, memWrite_eq, notesPlus, hnotes, hflight, hic]
  | reg r => simp [storeTo_reg, notesPlus, hnotes, hflight]
  | bad v => exact absurd rfl (ha v)

/-- An instruction that ends with a store at a place, whatever latch and notifications its earlier parts left: what
the place holds, the latch, the frame and the notifications. -/
theorem next_storeTo_effect {a : Operand} {x : Word} {s : State} {armed : Bool} {ns : List Notification}
    {o : Host.Outcome State Fault Refusal} (ha : IsPlace a)
    (ho : o = .next (storeTo a x { s with pausePending := armed, notes := ns })) :
    ∃ t, o = .next t ∧ Holds a x.toNat t ∧ t.pausePending = (armed || writeHit a s) ∧ OnlyPlace a s t ∧
      NotesOfStore a x.toNat { s with notes := ns } t := by
  refine ⟨_, ho, storeTo_holds ha x _, storeTo_pausePending ha x _,
    onlyPlace_of_latch_notes (storeTo_onlyPlace ha x _), ?_⟩
  rw [NotesOfStore, BitVec.ofNat_toNat, BitVec.setWidth_eq]
  exact storeTo_notes_congr ha x rfl rfl rfl

/-! ### pop (44 R255) -/

theorem execPop_nil {s : State} (a : Operand) (hos : s.os = []) :
    execPop a s = .next (raiseFault .osUnderflow s) := by
  rw [execPop, hos]
  rfl

theorem execPop_append {s : State} {l : List Word} {x : Word} (a : Operand) (hos : s.os = l ++ [x]) :
    execPop a s = .next (storeTo a x { s with os := l, notes := notesPlus s [.operandStackPopped] }) := by
  rw [execPop, ← dropOs_append hos, hos, topOf_append]

/-- Settles O23: the top is popped first, and the store, or its fault, works on the popped state. -/
theorem popInstruction : Obligations.PopInstruction := by
  unfold Obligations.PopInstruction
  refine fun a s => ⟨execPop_nil a, fun l x hos ha => ?place, fun l x hos ha => ?badDest⟩
  case place =>
    have hexec : exec (.pop a) s = _ := execPop_append a hos
    obtain ⟨t, ht, hholds, hlatch, hframe, hnotes⟩ :=
      next_storeTo_effect (s := { s with os := l }) (armed := s.pausePending) ha hexec
    exact ⟨t, ht, hholds, hlatch, hframe, hnotes.trans (storeTo_notes_congr ha _ rfl rfl rfl)⟩
  case badDest => exact (execPop_append a hos).trans (by rw [storeTo_bad ha])

/-! ### rmem (44 R258) -/

theorem storeData_of_gt {c : Raw} (h : 32767 < c.toNat) (a : Operand) (s : State) :
    storeData a c s = raiseFault .badData s := if_pos h

theorem storeData_of_le {c : Raw} (h : c.toNat ≤ 32767) (a : Operand) (s : State) :
    storeData a c s = storeTo a (BitVec.ofNat 15 c.toNat) s := if_neg (Nat.not_lt.mpr h)

theorem execRmem_some {b : Operand} {s : State} {p : Word} (a : Operand) (hb : valueOf b s = some p) :
    execRmem a b s = .next (storeData a (s.mem.read p.toNat)
      (armIf (bpCheck s.bt p.toNat .read) (afterReads [b] s))) := by
  rw [execRmem, resolve_some hb, andThen_ok]
  rfl

theorem execRmem_none {b : Operand} {s : State} (a : Operand) (hb : valueOf b s = none) :
    execRmem a b s = .next (raiseFault .badOperand s) := by
  rw [execRmem, resolve_none hb, andThen_stop]

/-- Settles O24: the address, then the cell, which must hold a word, then the destination. -/
theorem rmemInstruction : Obligations.RmemInstruction := by
  unfold Obligations.RmemInstruction
  refine fun a b s => ⟨execRmem_none a, fun p hb => ?_⟩
  have hexec : exec (.rmem a b) s = _ := execRmem_some a hb
  refine ⟨fun hdata => ?badData, fun hword ha => ?place, fun hword ha => ?badDest⟩
  case badData => rw [hexec, storeData_of_gt hdata]
  case place =>
    rw [storeData_of_le hword] at hexec
    have effect := next_storeTo_effect (s := s) (ns := s.notes) ha hexec
    rwa [BitVec.toNat_ofNat, Nat.mod_eq_of_lt (Nat.lt_succ_of_le hword)] at effect
  case badDest => rw [hexec, storeData_of_le hword, storeTo_bad ha]

/-! ### wmem (44 R260) -/

section
variable {a b : Operand} {s : State} {p : Word}

/-- wmem with both values stores as at a literal destination that is the value of a. -/
theorem execWmem_some {x : Word} (ha : valueOf a s = some p) (hb : valueOf b s = some x) :
    execWmem a b s = .next (storeTo (.lit p) x (afterReads [a, b] s)) := by
  rw [execWmem, resolve_some ha, andThen_ok, resolve_some (by simpa using hb), andThen_ok, afterReads_two]
  rfl

theorem execWmem_noValue (ha : valueOf a s = some p) (hb : valueOf b s = none) :
    execWmem a b s = .next (raiseFault .badOperand (afterReads [a] s)) := by
  rw [execWmem, resolve_some ha, andThen_ok, resolve_none (by simpa using hb), andThen_stop]

theorem execWmem_noAddress (b : Operand) (ha : valueOf a s = none) :
    execWmem a b s = .next (raiseFault .badOperand s) := by
  rw [execWmem, resolve_none ha, andThen_stop]

end

/-- Settles O25: the address, then the value, then a store at that cell. -/
theorem wmemInstruction : Obligations.WmemInstruction := by
  unfold Obligations.WmemInstruction
  exact fun a b s => ⟨fun p x ha hb =>
      next_storeTo_effect (s := s) (ns := s.notes) (isPlace_lit p) (execWmem_some ha hb),
    fun _ => execWmem_noValue, execWmem_noAddress b⟩

/-! ### set (44 R251, R252) -/

section
variable {a b : Operand} {s : State} {x : Word}

/-- set to a register is a store there. -/
theorem execSet_reg (r : Fin 8) (hb : valueOf b s = some x) :
    execSet (.reg r) b s = .next (storeTo (.reg r) x (afterReads [b] s)) := by
  rw [execSet, resolve_some hb, andThen_ok]
  rfl

theorem execSet_of_not_reg (hb : valueOf b s = some x) (ha : ∀ r, a ≠ .reg r) :
    execSet a b s = .next (raiseFault .setDest (afterReads [b] s)) := by
  rw [execSet, resolve_some hb, andThen_ok]
  cases a with
  | lit w => rfl
  | reg r => exact absurd rfl (ha r)
  | bad v => rfl

theorem execSet_none (a : Operand) (hb : valueOf b s = none) :
    execSet a b s = .next (raiseFault .badOperand s) := by
  rw [execSet, resolve_none hb, andThen_stop]

end

/-- Settles O21: the source is read first, and a destination that is no register faults without a store. -/
theorem setInstruction : Obligations.SetInstruction := by
  unfold Obligations.SetInstruction
  refine fun a b s => ⟨fun r x hb ha => ?register, fun x => execSet_of_not_reg, execSet_none a⟩
  case register =>
    subst ha
    exact (execSet_reg r hb).trans (congrArg Host.Outcome.next (storeTo_reg r x _))

/-! ### push (44 R253) -/

/-- push with a value: the check of the capacity, then the push. -/
theorem execPush_some {a : Operand} {s : State} {x : Word} (ha : valueOf a s = some x) : execPush a s =
    if atCapacity s.params.osCapacity s.os then .next (raiseFault .stackOverflow (afterReads [a] s))
    else .next { s with
      os := s.os ++ [x]
      pausePending := (afterReads [a] s).pausePending
      notes := notesPlus s [.operandStackPushed x] } := by
  rw [execPush, resolve_some ha, andThen_ok, pushOs_eq]
  rfl

theorem execPush_none {a : Operand} {s : State} (ha : valueOf a s = none) :
    execPush a s = .next (raiseFault .badOperand s) := by
  rw [execPush, resolve_none ha, andThen_stop]

/-- Settles O22: the value is read first, then the capacity is looked at before anything is pushed. -/
theorem pushInstruction : Obligations.PushInstruction := by
  unfold Obligations.PushInstruction
  refine fun a s => ⟨fun x ha hroom => ?room, fun x ha hfull => ?full, execPush_none⟩
  case room => exact (execPush_some ha).trans (if_neg (by simpa [atCapacity_iff] using hroom))
  case full => exact (execPush_some ha).trans (if_pos ((atCapacity_iff _ _).mpr hfull))

end Sys2Proof.Machine
end

section
/-! PROOFS. The arithmetic, comparison and bitwise instructions (45): what each answers, in its cases: O18, O19, O20. -/

namespace Sys2Proof.Machine

/-! ### Two sources (45 R271) -/

section
variable {b c : Operand} {s : State} {x : Word}

theorem resolveTwo_some (f : Word → Word → State → Host.Outcome State Fault Refusal) {y : Word}
    (hb : valueOf b s = some x) (hc : valueOf c s = some y) :
    ((resolve b s).andThen fun x s => (resolve c s).andThen (f x)) = f x y (afterReads [b, c] s) := by
  rw [resolve_some hb, andThen_ok, resolve_some (by simpa using hc), andThen_ok, afterReads_two]

theorem resolveTwo_noSecond (f : Word → Word → State → Host.Outcome State Fault Refusal)
    (hb : valueOf b s = some x) (hc : valueOf c s = none) :
    ((resolve b s).andThen fun x s => (resolve c s).andThen (f x)) =
      .next (raiseFault .badOperand (afterReads [b] s)) := by
  rw [resolve_some hb, andThen_ok, resolve_none (by simpa using hc), andThen_stop]

theorem resolveTwo_noFirst (c : Operand) (f : Word → Word → State → Host.Outcome State Fault Refusal)
    (hb : valueOf b s = none) :
    ((resolve b s).andThen fun x s => (resolve c s).andThen (f x)) = .next (raiseFault .badOperand s) := by
  rw [resolve_none hb, andThen_stop]

end

/-! ### A store after the sources have been read (42 R191) -/

section
variable {a : Operand} {vs : List Operand} {s : State} {x : Word} {o : Host.Outcome State Fault Refusal}
  (ho : o = .next (storeTo a x (afterReads vs s)))
include ho

/-- The effect of a store, in terms of the number stored and of the state before the sources were read. -/
theorem storeAfterReads_place {n : Nat} (hx : x.toNat = n) (ha : IsPlace a) :
    ∃ t, o = .next t ∧ Holds a n t ∧ t.pausePending = ((afterReads vs s).pausePending || writeHit a s) ∧
      OnlyPlace a s t ∧ NotesOfStore a n s t :=
  hx ▸ next_storeTo_effect (s := s) (ns := s.notes) ha ho

theorem storeAfterReads_bad (ha : ¬ IsPlace a) : o = .next (raiseFault .badOperand (afterReads vs s)) := by
  rw [ho, storeTo_bad ha]

end

/-! ### eq, gt, add, mult, and, or (45 R272 to R275, R277, R278) -/

theorem truth_toNat (p : Prop) [Decidable p] : (truth (decide p)).toNat = if p then 1 else 0 := by
  by_cases h : p <;> simp [h, truth]

theorem reduce_toNat (n : Nat) : (reduce n).toNat = n % 32768 := BitVec.toNat_ofNat n 15

/-- Each of the six is the common shape, with a function of words whose number is the one its rule gives. -/
theorem binaryRules_eq_binary {p : (Operand → Operand → Operand → Instr) × (Nat → Nat → Nat)}
    (hp : p ∈ binaryRules) :
    ∃ f : Word → Word → Word, (∀ a b c s, exec (p.1 a b c) s = binary f a b c s) ∧
      ∀ x y, (f x y).toNat = p.2 x.toNat y.toNat := by
  simp only [binaryRules, List.mem_cons, List.not_mem_nil, or_false] at hp
  rcases hp with rfl | rfl | rfl | rfl | rfl | rfl
  · exact ⟨fun x y => truth (decide (x = y)), fun _ _ _ _ => rfl, fun _ _ => by simp only [truth_toNat, BitVec.toNat_eq]⟩
  · exact ⟨fun x y => truth (decide (y.toNat < x.toNat)), fun _ _ _ _ => rfl, fun _ _ => truth_toNat _⟩
  · exact ⟨fun x y => reduce (x.toNat + y.toNat), fun _ _ _ _ => rfl, fun _ _ => reduce_toNat _⟩
  · exact ⟨fun x y => reduce (x.toNat * y.toNat), fun _ _ _ _ => rfl, fun _ _ => reduce_toNat _⟩
  · exact ⟨fun x y => x &&& y, fun _ _ _ _ => rfl, BitVec.toNat_and⟩
  · exact ⟨fun x y => x ||| y, fun _ _ _ _ => rfl, BitVec.toNat_or⟩

/-- Settles O18: the sources are read in the order b, c, and then the result is stored. -/
theorem binaryInstructions : Obligations.BinaryInstructions := by
  unfold Obligations.BinaryInstructions
  intro p hp a b c s
  obtain ⟨f, hexec, hvalue⟩ := binaryRules_eq_binary hp
  simp only [hexec, ← hvalue]
  exact ⟨fun _ _ hb hc => storeAfterReads_place (resolveTwo_some _ hb hc) rfl,
    fun _ _ hb hc => storeAfterReads_bad (resolveTwo_some _ hb hc),
    fun _ => resolveTwo_noSecond _, resolveTwo_noFirst c _⟩

/-! ### mod (45 R276) -/

section
variable {b c : Operand} {s : State} {x : Word} (a : Operand)

theorem execMod_of_ne_zero {y : Word} (hb : valueOf b s = some x) (hc : valueOf c s = some y) (hy : y ≠ 0) :
    execMod a b c s = .next (storeTo a (reduce (x.toNat % y.toNat)) (afterReads [b, c] s)) :=
  (resolveTwo_some _ hb hc).trans (if_neg hy)

theorem execMod_zero (hb : valueOf b s = some x) (hc : valueOf c s = some 0) :
    execMod a b c s = .next (raiseFault .modZero (afterReads [b, c] s)) :=
  (resolveTwo_some _ hb hc).trans (if_pos rfl)

end

/-- A remainder of words is a word. -/
theorem reduce_mod_toNat (x y : Word) : (reduce (x.toNat % y.toNat)).toNat = x.toNat % y.toNat := by
  rw [reduce_toNat]
  exact Nat.mod_eq_of_lt ((Nat.mod_le _ _).trans_lt x.isLt)

/-- Settles O19: the divisor is looked at when both sources have been read, and before the destination is. -/
theorem modInstruction : Obligations.ModInstruction := by
  unfold Obligations.ModInstruction
  exact fun a b c s =>
    ⟨fun x y hb hc hy => storeAfterReads_place (execMod_of_ne_zero a hb hc hy) (reduce_mod_toNat x y),
    fun _ => execMod_zero a,
    fun _ _ hb hc hy => storeAfterReads_bad (execMod_of_ne_zero a hb hc hy),
    fun _ => resolveTwo_noSecond _, resolveTwo_noFirst c _⟩

/-! ### not (45 R279) -/

section
variable {b : Operand} {s : State} (a : Operand)

theorem execNot_some {x : Word} (hb : valueOf b s = some x) :
    execNot a b s = .next (storeTo a (~~~x) (afterReads [b] s)) := by
  rw [execNot, resolve_some hb, andThen_ok]

theorem execNot_none (hb : valueOf b s = none) : execNot a b s = .next (raiseFault .badOperand s) := by
  rw [execNot, resolve_none hb, andThen_stop]

end

/-- Settles O20: the source is read, and its complement, which is a word of 15 bits, is stored. -/
theorem notInstruction : Obligations.NotInstruction := by
  unfold Obligations.NotInstruction
  exact fun a b s => ⟨fun _ hb => storeAfterReads_place (execNot_some a hb) BitVec.toNat_not,
    fun _ hb => storeAfterReads_bad (execNot_some a hb), execNot_none a⟩

end Sys2Proof.Machine
end

section
/-! PROOFS. The character instructions (46): what each answers, in its cases, and how an `in` that holds goes on:
O32, O33, O31. -/

namespace Sys2Proof.Machine

/-! ### out (46 R291) -/

theorem execOut_some {a : Operand} {s : State} {x : Word} (ha : valueOf a s = some x) :
    execOut a s = .next (send x (afterReads [a] s)) := by
  rw [execOut, resolve_some ha, andThen_ok]

theorem execOut_none {a : Operand} {s : State} (ha : valueOf a s = none) :
    execOut a s = .next (raiseFault .badOperand s) := by
  rw [execOut, resolve_none ha, andThen_stop]

/-- Settles O31: the value is read and sent, or the invalid operand faults before anything is sent. -/
theorem outInstruction : Obligations.OutInstruction := by
  unfold Obligations.OutInstruction
  exact fun _ _ => ⟨fun _ => execOut_some, execOut_none⟩

/-! ### The code unit that in takes (46 R292) -/

section
variable (a : Operand) {s : State} {c : Raw} {rest : List Raw}

theorem takeAfterCr_nil (h : s.input = []) :
    takeAfterCr a s = { s with hold := some { dest := a, afterCr := true } } := by
  rw [takeAfterCr, h]

theorem takeAfterCr_cons (h : s.input = c :: rest) :
    takeAfterCr a s = storeData a c { s with input := rest, hold := none } := by
  rw [takeAfterCr, h]

theorem takeUnit_nil (h : s.input = []) :
    takeUnit a s = { s with hold := some { dest := a, afterCr := false } } := by
  rw [takeUnit, h]

theorem takeUnit_cr (h : s.input = 13 :: rest) :
    takeUnit a s = takeAfterCr a { s with input := rest, hold := none } := by
  rw [takeUnit, h]
  exact if_pos rfl

theorem takeUnit_cons (h : s.input = c :: rest) (hc : c ≠ 13) :
    takeUnit a s = storeData a c { s with input := rest, hold := none } := by
  rw [takeUnit, h]
  exact if_neg hc

end

/-- Storing a code unit: it must be a word, and then the destination must be a place. -/
theorem storesUnit_of_storeData {a : Operand} {c : Raw} {u : State} {o : Host.Outcome State Fault Refusal}
    (ho : o = .next (storeData a c u)) : StoresUnit a c u o := by
  refine ⟨fun hdata => ?badData, fun hword ha => ?place, fun hword ha => ?badDest⟩
  case badData => rw [ho, storeData_of_gt hdata]
  case place =>
    rw [storeData_of_le hword] at ho
    have effect := next_storeTo_effect (s := u) (armed := u.pausePending) (ns := u.notes) ha ho
    rwa [BitVec.toNat_ofNat, Nat.mod_eq_of_lt (Nat.lt_succ_of_le hword)] at effect
  case badDest => rw [ho, storeData_of_le hword, storeTo_bad ha]

/-- Settles O32: the first code unit, or the one after a carriage return, is taken and then stored; where it is not
there, the step holds. -/
theorem inInstruction : Obligations.InInstruction := by
  unfold Obligations.InInstruction
  refine fun a s => ⟨fun c rest hin hc => ?unit, fun c rest hin => ?afterCr, fun hin => ?empty, fun hin => ?onlyCr⟩
  case unit => exact storesUnit_of_storeData (congrArg Host.Outcome.next (takeUnit_cons a hin hc))
  case afterCr =>
    exact storesUnit_of_storeData (congrArg Host.Outcome.next ((takeUnit_cr a hin).trans (takeAfterCr_cons a rfl)))
  case empty => exact congrArg Host.Outcome.next (takeUnit_nil a hin)
  case onlyCr => exact congrArg Host.Outcome.next ((takeUnit_cr a hin).trans (takeAfterCr_nil a rfl))

/-! ### An in that holds (46 R290, 42 R189) -/

/-- Whether an `in` holds is decided by the input alone: what held before is overwritten. -/
theorem takeAfterCr_noHold (a : Operand) (s : State) : takeAfterCr a { s with hold := none } = takeAfterCr a s := by
  unfold takeAfterCr
  cases s.input with
  | nil => rfl
  | cons c rest => rfl

theorem takeUnit_noHold (a : Operand) (s : State) : takeUnit a { s with hold := none } = takeUnit a s := by
  unfold takeUnit
  cases s.input with
  | nil => rfl
  | cons c rest => rfl

/-- A held `in` goes on as the whole `in` would with the carriage return it has taken put back. -/
theorem resumeHold_eq_takeUnit (h : Hold) (s : State) : resumeHold h s =
    takeUnit h.dest { s with hold := none, input := (if h.afterCr then [13] else []) ++ s.input } := by
  obtain ⟨a, _ | _⟩ := h
  case false => exact (takeUnit_noHold a s).symm
  case true =>
    exact (takeAfterCr_noHold a s).symm.trans
      (takeUnit_cr (s := { s with hold := none, input := 13 :: s.input }) a rfl).symm

theorem resumeHold_nil {s : State} {h : Hold} (hhold : s.hold = some h) (hin : s.input = []) :
    resumeHold h s = s := by
  obtain ⟨a, _ | _⟩ := h
  case false => exact (takeUnit_nil a hin).trans (by rw [← hhold])
  case true => exact (takeAfterCr_nil a hin).trans (by rw [← hhold])

theorem resumeStep_nil {s : State} {h : Hold} (hhold : s.hold = some h) (hin : s.input = [])
    (hresult : s.stepResult = none) : resumeStep h s = s := by
  have hclear : { s with stepResult := none } = s := by rw [← hresult]
  rw [resumeStep, hclear, resumeHold_nil hhold hin]
  exact completeStep_done (.inr (Option.isSome_of_eq_some hhold))

theorem settle_of_noResult {s : State} (hresult : s.stepResult = none) : settle s = s := by
  rw [settle, hresult]

theorem step_of_hold {s : State} {h : Hold} (hhold : s.hold = some h) (silent : HostSilent s) :
    step s = .next (settle (resumeStep h (tickOff s))) :=
  (step_silent silent).trans (advance_hold hhold)

/-- Settles O33: a move of a holding machine goes on with its `in`, which is the whole `in` on the input it has now;
where there is none, nothing of the state changes; and an event of the host's is recorded instead of a move. -/
theorem inHoldsUntilInput : Obligations.InHoldsUntilInput := by
  unfold Obligations.InHoldsUntilInput
  refine fun s h hhold => ⟨fun silent => ?again, fun silent hin hresult => ?stays, fun _ _ => step_command,
    fun _ _ => step_supply⟩
  case again =>
    rw [step_of_hold hhold silent, resumeStep, resumeHold_eq_takeUnit]
    rfl
  case stays =>
    rw [step_of_hold hhold silent, resumeStep_nil (s := tickOff s) hhold hin hresult,
      settle_of_noResult (s := tickOff s) hresult]

end Sys2Proof.Machine
end

section
/-! PROOFS. The snapshot stream (47): O55 to O58. `streamOf` writes the fields of a snapshot and `parseSnapshot` reads
them back; saving and restoring then speak of fields only. -/

namespace Sys2Proof.Machine

/-! ### The stream of the fields (47 R301, R302) -/

/-- The stream that holds those fields. -/
def streamOf (n : Snapshot) : List Byte :=
  fieldsBytes n.cells ++ fieldsBytes n.regs ++ fieldBytes n.pc ++
  countBytes n.bt.length ++ entriesBytes n.bt ++
  countBytes n.os.length ++ fieldsBytes n.os ++
  countBytes n.cs.length ++ fieldsBytes n.cs

theorem snapshotBytes_eq_streamOf (s : State) : snapshotBytes s = streamOf (snapshotOf s) := by
  simp only [snapshotBytes, streamOf, snapshotOf, List.length_map]

/-! ### What stands behind the beginning of a stream -/

section
variable {pre bs : List Byte} {o : Nat}

/-- Where a stream begins with `pre` and then `part`, a segment within `part` is one of the stream. -/
theorem segment_of_begins {part : List Byte} {k size : Nat} (h : pre ++ part <+: bs) (ho : pre.length + k = o)
    (hk : k + size ≤ part.length) : segment bs o size = segment part k size := by
  obtain ⟨post, rfl⟩ := h
  rw [segment_left (by rw [List.length_append]; omega), segment_right (by omega), Nat.sub_eq_of_eq_add' ho.symm]

theorem fieldAt_of_fieldBytes {n : Nat} (h : pre ++ fieldBytes n <+: bs) (ho : pre.length = o) : FieldAt bs o n := by
  unfold FieldAt
  rw [segment_of_begins h ho (by rw [fieldBytes_length]), segment_all (fieldBytes_length n), fieldBytes_numbers]

theorem fieldAt_of_countBytes {n : Nat} (h : pre ++ countBytes n <+: bs) (ho : pre.length = o)
    (hn : n < 4294967296) : FieldAt bs o n := by
  rw [countBytes, if_pos hn] at h
  exact fieldAt_of_fieldBytes h ho

theorem fieldAt_of_fieldsBytes {ns : List Nat} {j v : Nat} (h : pre ++ fieldsBytes ns <+: bs)
    (hv : ns[j]? = some v) (ho : pre.length + 4 * j = o) : FieldAt bs o v := by
  obtain ⟨hj, -⟩ := List.getElem?_eq_some_iff.mp hv
  unfold FieldAt
  rw [segment_of_begins h ho (by rw [fieldsBytes_length]; omega), segment_fieldsBytes ns j v hv, fieldBytes_numbers]

theorem entryAt_of_entriesBytes {es : List BpEntry} {j : Nat} {e : BpEntry} (h : pre ++ entriesBytes es <+: bs)
    (he : es[j]? = some e) (ho : pre.length + 7 * j = o) : EntryAt bs o e := by
  obtain ⟨hj, -⟩ := List.getElem?_eq_some_iff.mp he
  unfold EntryAt
  rw [segment_of_begins h ho (by rw [entriesBytes_length]; omega), segment_entriesBytes es j e he, entryBytes_numbers]

theorem begins_of_append {part : List Byte} (h : pre ++ part <+: bs) : pre <+: bs :=
  List.IsPrefix.trans ⟨part, rfl⟩ h

end

/-- Every field of the stream at its offset: the stream begins with the parts before it, whose lengths are known. -/
theorem layoutOf_streamOf {n : Snapshot} (hcells : n.cells.length = 32768) (hregs : n.regs.length = 8) :
    LayoutOf (streamOf n) n := by
  have cs : streamOf n <+: streamOf n := ⟨[], List.append_nil _⟩
  have csCount := begins_of_append cs
  have os := begins_of_append csCount
  have osCount := begins_of_append os
  have bt := begins_of_append osCount
  have btCount := begins_of_append bt
  have pc := begins_of_append btCount
  have regs := begins_of_append pc
  have cells := begins_of_append regs
  refine ⟨fun a v h => fieldAt_of_fieldsBytes (pre := []) cells h ?_, fun r v h => fieldAt_of_fieldsBytes regs h ?_,
    fieldAt_of_fieldBytes pc ?_, fieldAt_of_countBytes btCount ?_, fun j e h => entryAt_of_entriesBytes bt h ?_,
    fieldAt_of_countBytes osCount ?_, fun j v h => fieldAt_of_fieldsBytes os h ?_,
    fieldAt_of_countBytes csCount ?_, fun j v h => fieldAt_of_fieldsBytes cs h ?_, ?_⟩ <;>
  simp [streamOf, hcells, hregs] <;> omega

/-- Settles O55: the stream of a state is that of the fields it holds. -/
theorem snapshotLayout : Obligations.SnapshotLayout := by
  intro s
  rw [snapshotBytes_eq_streamOf, ← snapshotOf_eq_heldBy]
  exact layoutOf_streamOf (cellValues_length s.mem 0 32768) (by simp [snapshotOf])

/-! ### What is read from a stream (47 R304, R305) -/

/-- The fields of a snapshot are within their bounds (47 R305). -/
structure WithinBounds (p : Config.Params) (n : Snapshot) : Prop where
  cellsLength : n.cells.length = 32768
  cells : ∀ v ∈ n.cells, v ≤ 65535
  regsLength : n.regs.length = 8
  regs : ∀ v ∈ n.regs, v ≤ 32767
  pc : n.pc ≤ 32767
  btLength : n.bt.length ≤ 32776
  bt : BpTableWf n.bt
  osFits : ∀ c, p.osCapacity = some c → n.os.length ≤ c
  os : ∀ v ∈ n.os, v ≤ 32767
  osCount : n.os.length < 4294967296
  csFits : ∀ c, p.csCapacity = some c → n.cs.length ≤ c
  cs : ∀ v ∈ n.cs, v ≤ 32767
  csCount : n.cs.length < 4294967296

/-- A stream that is accepted is the stream of what is read from it, with nothing after it (47 R305 item 2). -/
theorem parse_eq {p : Config.Params} {bs : List Byte} {n : Snapshot} (h : parseSnapshot p bs = some n) :
    bs = streamOf n ∧ WithinBounds p n := by
  unfold parseSnapshot at h
  repeat' split at h
  all_goals cases h
  next hcells _ _ _ hregs _ _ _ hpc _ _ _ hcount _ _ _ hentries _ _ _ hos _ _ _ hcs hrest =>
    obtain ⟨cellsLength, cells, rfl⟩ := takeFields_eq hcells
    obtain ⟨regsLength, regs, rfl⟩ := takeFields_eq hregs
    obtain ⟨pc, -, rfl⟩ := takeField_eq hpc
    obtain ⟨btLength, btCount, rfl⟩ := takeField_eq hcount
    obtain ⟨rfl, bt, rfl⟩ := takeEntries_eq hentries
    obtain ⟨osFits, os, osCount, rfl⟩ := takeStack_eq hos
    obtain ⟨csFits, cs, csCount, rfl⟩ := takeStack_eq hcs
    refine ⟨?_, ⟨cellsLength, cells, regsLength, regs, pc, btLength, bt, osFits, os, osCount, csFits, cs, csCount⟩⟩
    simp only [streamOf, countBytes, if_pos btCount, List.append_assoc, hrest, List.append_nil]

theorem loadState_of_malformed {bs : List Byte} {s : State} (h : parseSnapshot s.params bs = none) :
    loadState bs s = { s with response := some .restoreMalformed } := by
  rw [loadState, h]

/-- Settles O58: a stream that is read is the stream of its fields, and so has their layout. -/
theorem malformedStreamsRefused : Obligations.MalformedStreamsRefused := by
  refine fun bs s => ⟨loadState_of_malformed, fun n h => ?_⟩
  obtain ⟨rfl, hn⟩ := parse_eq h
  exact ⟨layoutOf_streamOf hn.cellsLength hn.regsLength, hn.osCount, hn.csCount, hn.cellsLength, hn.cells,
    hn.regsLength, hn.regs, hn.pc, hn.btLength, hn.bt, hn.osFits, hn.os, hn.csFits, hn.cs⟩

/-! ### Restoring a stream that is read (47 R306) -/

section
variable {bs : List Byte} {n : Snapshot} {s : State} (h : parseSnapshot s.params bs = some n)
include h

theorem loadState_of_decoded {d : Decoded} (hd : decodeAt (installSnapshot n s).mem (installSnapshot n s).pc = some d) :
    loadState bs s = { emitRefresh (cacheInsert d (installSnapshot n s)) with response := some .ok } := by
  simp only [loadState, h, decodeHere, hd]

theorem loadState_of_overrun (hd : decodeAt (installSnapshot n s).mem (installSnapshot n s).pc = none) :
    loadState bs s =
      { raiseFault .decodeRange (installSnapshot n s) with es := .halted, response := some (.step .fault) } := by
  simp only [loadState, h, decodeHere, hd]

end

/-- A restore answers OK only where the stream is read and the decode at the restored PC does not fault. -/
theorem loadState_of_ok {bs : List Byte} {s : State} (hok : (loadState bs s).response = some .ok) :
    ∃ n d, parseSnapshot s.params bs = some n ∧
      loadState bs s = { emitRefresh (cacheInsert d (installSnapshot n s)) with response := some .ok } := by
  cases hn : parseSnapshot s.params bs with
  | none =>
    rw [loadState_of_malformed hn] at hok
    cases hok
  | some n =>
    cases hd : decodeAt (installSnapshot n s).mem (installSnapshot n s).pc with
    | none =>
      rw [loadState_of_overrun hn hd] at hok
      cases hok
    | some d => exact ⟨n, d, rfl, loadState_of_decoded hn hd⟩

/-! ### Saving what was restored -/

theorem cellValues_ofCells {vs : List Nat} (hlength : vs.length = 32768) (hle : ∀ v ∈ vs, v ≤ 65535) :
    cellValues (Memory.ofCells 0 (vs.map (BitVec.ofNat 16 ·))) 0 32768 = vs := by
  refine List.ext_getElem (by simp [hlength]) fun k hk hk' => ?_
  have hv : vs[k] % 65536 = vs[k] := Nat.mod_eq_of_lt (Nat.lt_succ_of_le (hle _ (List.getElem_mem hk')))
  have hread := cellValues_get (Memory.ofCells 0 (vs.map (BitVec.ofNat 16 ·))) 0 32768 k (by omega)
  rw [← Option.some_inj, ← List.getElem?_eq_getElem hk, hread, read_ofCells, if_pos (Nat.zero_le _)]
  simp [hk', hv]

theorem toNat_ofNat_words {vs : List Nat} (hle : ∀ v ∈ vs, v ≤ 32767) :
    (vs.map (BitVec.ofNat 15 ·)).map (·.toNat) = vs := by
  rw [List.map_map, List.map_congr_left (g := id) fun v hv => ?_, List.map_id]
  exact (BitVec.toNat_ofNat v 15).trans (Nat.mod_eq_of_lt (Nat.lt_succ_of_le (hle v hv)))

theorem toNat_regFile {vs : List Nat} (hlength : vs.length = 8) (hle : ∀ v ∈ vs, v ≤ 32767) :
    (regFile vs).toList.map (·.toNat) = vs := by
  have hwords : (regFile vs).toList = vs.map (BitVec.ofNat 15 ·) := by
    match vs, hlength with
    | [_, _, _, _, _, _, _, _], _ => rfl
  rw [hwords, toNat_ofNat_words hle]

theorem snapshotOf_installSnapshot {p : Config.Params} {n : Snapshot} (h : WithinBounds p n) (s : State) :
    snapshotOf (installSnapshot n s) = n := by
  simp only [snapshotOf, installSnapshot, emit_mem, emit_regs, emit_pc, emit_bt, emit_os, emit_cs,
    cellValues_ofCells h.cellsLength h.cells, toNat_regFile h.regsLength h.regs, toNat_ofNat_words h.os,
    toNat_ofNat_words h.cs, BitVec.toNat_ofNat, Nat.mod_eq_of_lt (Nat.lt_succ_of_le h.pc)]

/-- The refresh, the response and the cache are no part of what a snapshot holds (47 R300). -/
theorem snapshotOf_refresh (d : Decoded) (r : Response) (s : State) :
    snapshotOf { emitRefresh (cacheInsert d s) with response := some r } = snapshotOf s := by
  simp only [snapshotOf, emitRefresh_mem, emitRefresh_regs, emitRefresh_pc, emitRefresh_bt, emitRefresh_os,
    emitRefresh_cs, cacheInsert_mem, cacheInsert_regs, cacheInsert_pc, cacheInsert_bt, cacheInsert_os, cacheInsert_cs]

theorem snapshotBytes_loadState {bs : List Byte} {s : State} (hok : (loadState bs s).response = some .ok) :
    snapshotBytes (loadState bs s) = bs := by
  obtain ⟨n, d, hn, hload⟩ := loadState_of_ok hok
  obtain ⟨rfl, hbounds⟩ := parse_eq hn
  rw [hload, snapshotBytes_eq_streamOf, snapshotOf_refresh, snapshotOf_installSnapshot hbounds]

/-- Settles O57: save is no pause or stop, so it is not taken in flight; and the fields restored are those read. -/
theorem loadThenSave : Obligations.LoadThenSave := by
  refine ⟨fun s hloaded => ⟨perform_of_loaded hloaded .save, fun hflight u htake => ?_⟩,
    fun bs t => snapshotBytes_loadState⟩
  obtain ⟨hidle, -⟩ | ⟨-, hlatch, -⟩ := takePending_some htake
  · exact hflight hidle
  · cases hlatch

/-! ### Restoring what was saved -/

/-- The data a snapshot holds is replaced by that of the state saved, before the decode at PC (47 R306). -/
theorem installSnapshot_snapshotOf {s : State} (h : s.mem.wf) (t : State) :
    installSnapshot (snapshotOf s) t =
      { t with
        mem := s.mem, regs := s.regs, pc := s.pc, bt := s.bt, os := s.os, cs := s.cs
        halted := false, pausePending := false, faulted := false, faultCause := .none
        depth := 0, es := .ready, loaded := true, ic := []
        notes := notesPlus t [.disasmReset] } := by
  simp only [installSnapshot, emit_eq, snapshotOf, ofCells_cellValues h, regFile_toNat, ofNat_toNat_words,
    BitVec.ofNat_toNat, BitVec.setWidth_eq]
  rfl

/-- What is emitted after the install stands behind its reset of the disassembly list. -/
theorem notesPlus_installSnapshot (n : Snapshot) (t : State) (ns : List Notification) :
    notesPlus (installSnapshot n t) ns = notesPlus t (.disasmReset :: ns) :=
  notesPlus_cons (by simp [installSnapshot]) (by rw [installSnapshot, emit_eq]; rfl) ns

/-- Settles O56: the stream is read back as the fields saved, and the decode at the restored PC is cached or faults. -/
theorem saveThenLoad : Obligations.SaveThenLoad := by
  intro s t hmem hbt hos hcs osCount csCount
  have hparse := parse_snapshotBytes hbt hos hcs osCount csCount
  have hinstall := installSnapshot_snapshotOf hmem t
  cases hd : decodeAt s.mem s.pc with
  | some d =>
    have hfits : ¬ Overruns s.mem s.pc := by simp [overruns_iff, hd]
    have hload := loadState_of_decoded hparse (d := d) (by rw [hinstall]; exact hd)
    rw [cacheInsert_absent (by rw [hinstall]; rfl), notesPlus_installSnapshot, hinstall, decodeAt_pos hd] at hload
    exact ⟨_, hload, rfl, rfl, rfl, rfl, rfl, rfl, rfl, rfl, rfl, rfl, rfl, rfl,
      fun _ => ⟨rfl, rfl, rfl, rfl, rfl, ⟨d, rfl, rfl⟩, rfl⟩, fun h => absurd h hfits⟩
  | none =>
    have hover : Overruns s.mem s.pc := (overruns_iff _ _).mpr hd
    have hload := loadState_of_overrun hparse (by rw [hinstall]; exact hd)
    rw [raiseFault_eq, notesPlus_installSnapshot, hinstall, if_neg Bool.false_ne_true] at hload
    exact ⟨_, hload, rfl, rfl, rfl, rfl, rfl, rfl, rfl, rfl, rfl, rfl, rfl, rfl,
      fun h => absurd hover h, fun _ => ⟨rfl, rfl, rfl, rfl, rfl, rfl, rfl⟩⟩

end Sys2Proof.Machine
end

section
/-! PROOFS. Faults (60): what raising one does, the two faults of the decoder, and that every step answers a next
state: O13, O42, O43, O34. -/

namespace Sys2Proof.Machine

/-! ### Raising a fault (60 R401) -/

/-- Whatever command is in flight, a step that faulted ends it, with ES Halted (42 R188). -/
theorem settle_of_fault {s : State} (hresult : s.stepResult = some .fault) (hflight : s.flight ≠ .idle) :
    ∃ ns, settle s = { s with flight := .idle, es := .halted, response := some (.step .fault), notes := ns } := by
  cases h : s.flight with
  | idle => exact absurd h hflight
  | single => exact ⟨_, settle_single h hresult⟩
  | run => exact ⟨_, (settle_run h hresult).trans (if_neg nofun)⟩
  | _ => exact ⟨_, (settle_over h hresult).trans (if_neg nofun)⟩

/-- Settles O13: a fault is one record update, and each command in flight ends by it. -/
theorem faultActions : Obligations.FaultActions := by
  unfold Obligations.FaultActions
  refine ⟨raiseFault_eq, fun s hresult hflight => ?_⟩
  obtain ⟨ns, ends⟩ := settle_of_fault hresult hflight
  rw [ends]
  exact ⟨rfl, rfl, rfl, rfl, rfl⟩

/-! ### UNKNOWN_OPCODE (60 R406) -/

/-- A step-into at a placeholder caches it, advances PC by 1 and faults; the fault completes the step (42 R188). -/
theorem stepInto_unknown {s : State} {w : Raw} (hhalted : s.halted = false) (hcoherent : CacheCoherent s)
    (hdecode : decodeAt s.mem s.pc = some { pos := s.pc, body := .unknown w }) (hpc : s.pc.toNat < 32767) :
    stepInto s = .next (raiseFault .unknownOpcode
      { cacheInsert { pos := s.pc, body := .unknown w } { s with stepResult := none } with pc := s.pc + 1 }) := by
  have hfetch := fetch_ok (s := { s with stepResult := none }) hcoherent hdecode
  have hadvanced : BitVec.ofNat 15 (s.pc.toNat + 1) = s.pc + 1 := by
    rw [BitVec.ofNat_add, BitVec.ofNat_toNat, BitVec.setWidth_eq]
    rfl
  rw [stepInto_advances hhalted hfetch hpc, Decoded.span, Body.span, hadvanced]
  exact congrArg _ (completeStep_done (.inl (by rw [raiseFault_stepResult]; rfl)))

/-- Settles O42: the state a step at a placeholder leaves, read field by field. -/
theorem unknownOpcodeFaults : Obligations.UnknownOpcodeFaults := by
  unfold Obligations.UnknownOpcodeFaults
  intro s w hhalted hcoherent hdecode hpc
  exact ⟨_, stepInto_unknown hhalted hcoherent hdecode hpc, by simp⟩

/-! ### DECODE_RANGE (60 R408) -/

/-- The decode after the semantics faults where the words at the new PC run past memory (40 R143). -/
theorem completeStep_overrun {old : Word} {s : State} (hresult : s.stepResult = none) (hhold : s.hold = none)
    (hdecode : decodeAt s.mem s.pc = none) : completeStep old s = raiseFault .decodeRange s := by
  simp [completeStep, hresult, hhold, finishStep, decodeHere, hdecode]

/-- Settles O43: an overrun is a decode that gives no record, at each of the three places where the engine decodes. -/
theorem decodeRangeFaults : Obligations.DecodeRangeFaults := by
  unfold Obligations.DecodeRangeFaults
  refine ⟨fun s hhalted hcoherent hover => ?fetch, fun old s hresult hhold hover => ?postStep,
    fun bs n s hparse hover => ?restore⟩ <;> rw [overruns_iff] at hover
  case fetch => exact stepInto_stop hhalted (fetch_stop (s := { s with stepResult := none }) hcoherent hover)
  case postStep => exact completeStep_overrun hresult hhold hover
  case restore =>
    rw [loadState_of_overrun hparse hover]
    exact ⟨raiseFault_faultCause _ _, raiseFault_faulted _ _, raiseFault_halted _ _, rfl⟩

/-! ### No step stops the model (60 R415, R416) -/

/-- The outcome is a next state. -/
def AnswersNext (o : Host.Outcome State Fault Refusal) : Prop := ∃ t, o = .next t

theorem answersNext_next (t : State) : AnswersNext (.next t) := ⟨t, rfl⟩

theorem answersNext_onNext {f : State → State} {o : Host.Outcome State Fault Refusal} (h : AnswersNext o) :
    AnswersNext (onNext f o) := by
  obtain ⟨t, rfl⟩ := h
  exact answersNext_next (f t)

/-- A part that ends in a fault answers the state the fault leaves. -/
theorem answersNext_andThen {α : Type} {m : Flow α} {f : α → State → Host.Outcome State Fault Refusal}
    (h : ∀ a s, AnswersNext (f a s)) : AnswersNext (m.andThen f) := by
  cases m with
  | ok a s => exact h a s
  | stop s => exact answersNext_next s

theorem exec_answersNext (i : Instr) (s : State) : AnswersNext (exec i s) := by
  obtain ⟨t, -, -, e, -⟩ := exec_agree i (s := s) rfl
  exact ⟨t, e⟩

theorem execBody_answersNext (b : Body) (s : State) : AnswersNext (execBody b s) := by
  cases b with
  | instr i => exact exec_answersNext i s
  | unknown w => exact answersNext_next _

theorem stepInto_answersNext (s : State) : AnswersNext (stepInto s) := by
  unfold stepInto
  split
  · exact answersNext_next _
  · refine answersNext_andThen fun d u => ?_
    cases advancePc d u with
    | none => exact answersNext_next _
    | some t => exact answersNext_onNext (execBody_answersNext d.body t)

theorem startStepOver_answersNext (s : State) : AnswersNext (startStepOver s) := by
  cases hhalted : s.halted with
  | true => rw [startStepOver_of_halted hhalted]; exact answersNext_next _
  | false =>
    cases hfetch : fetch { s with flight := .single, response := none, stepResult := none } with
    | stop u => rw [startStepOver_of_stop hhalted hfetch]; exact answersNext_next _
    | ok d u =>
      rw [startStepOver_of_ok hhalted hfetch]
      split <;> exact answersNext_onNext (stepInto_answersNext _)

theorem perform_answersNext (c : Command) (s : State) : AnswersNext (perform c s) := by
  unfold perform
  split
  · cases c with
    | stepInto => exact answersNext_onNext (stepInto_answersNext _)
    | stepOver => exact startStepOver_answersNext s
    | _ => exact answersNext_next _
  · exact answersNext_next _

theorem engineMove_answersNext (s : State) : AnswersNext (engineMove s) := by
  by_cases hidle : s.flight = .idle
  · rw [engineMove, hidle]
    exact answersNext_next s
  · rw [engineMove_inFlight hidle]
    exact answersNext_onNext (stepInto_answersNext s)

theorem advance_answersNext (s : State) : AnswersNext (advance s) := by
  cases hhold : s.hold with
  | some h => rw [advance_hold hhold]; exact answersNext_next _
  | none =>
    cases htake : takePending s with
    | none => rw [advance_move hhold htake]; exact engineMove_answersNext s
    | some cu => rw [advance_take hhold htake]; exact perform_answersNext cu.1 cu.2

theorem step_answersNext (s : State) : AnswersNext (step s) := by
  rcases schedule_cases s with silent | ⟨c, r, hs⟩ | ⟨u, r, hs⟩
  · rw [step_silent silent]; exact advance_answersNext _
  · rw [step_command hs]; exact answersNext_next _
  · rw [step_supply hs]; exact answersNext_next _

/-- Settles O34: no instruction stops, so no step-into does, and every other move answers a state outright. -/
theorem everyStepAnswersNext : Obligations.EveryStepAnswersNext := ⟨exec_answersNext, step_answersNext⟩

end Sys2Proof.Machine
end

section
/-! PROOFS. load (70 R500), and the machine before its first load (R503): O15, O16. -/

namespace Sys2Proof.Machine

/-! ### load (70 R500) -/

/-- The state an image gives, as one record update of the state before. -/
theorem installImage_eq (image : List Raw) (s : State) : installImage image s = { s with
    mem := Memory.ofCells 0 image, regs := Vector.replicate 8 0#15, pc := 0#15, os := [], cs := [], depth := 0
    halted := false, pausePending := false, faulted := false, faultCause := .none
    bt := [], es := .ready, loaded := true, ic := []
    notes := notesPlus s [.disasmReset] } := emit_eq _ _

/-- What is emitted after the install stands behind its reset of the disassembly list. -/
theorem notesPlus_installImage (image : List Raw) (s : State) (ns : List Notification) :
    notesPlus (installImage image s) ns = notesPlus s (.disasmReset :: ns) :=
  notesPlus_cons (by rw [installImage_eq]) (by rw [installImage_eq]) ns

theorem decodeHere_of_decoded {s : State} {d : Decoded} (h : decodeAt s.mem s.pc = some d) :
    decodeHere s = .ok d (cacheInsert d s) := by
  rw [decodeHere, h]

/-- The state after an image that fits: the decode at 0 finds the cache empty, and its record is all that it holds. -/
theorem load_eq_of_fits {image : List Raw} (h : image.length ≤ 32768) (s : State) : ∃ d,
    decodeAt (Memory.ofCells 0 image) 0 = some d ∧ load image s = { s with
      mem := Memory.ofCells 0 image, regs := Vector.replicate 8 0#15, pc := 0#15, os := [], cs := [], depth := 0
      halted := false, pausePending := false, faulted := false, faultCause := .none
      bt := [], es := .ready, loaded := true, ic := [d], response := some .ok
      notes := notesPlus s [.disasmReset, .disasmInsertedAt 0] ++ [.consolidatedRefresh
        { mem := Memory.ofCells 0 image, regs := Vector.replicate 8 0#15, os := [], cs := [], view := 0 }] } := by
  obtain ⟨d, hd⟩ := decodeAt_zero (Memory.ofCells 0 image)
  refine ⟨d, hd, ?_⟩
  have hdecode : decodeAt (installImage image s).mem (installImage image s).pc = some d := by
    rw [installImage_eq]
    exact hd
  rw [load, if_neg (Nat.not_lt.mpr h), decodeHere_of_decoded hdecode, Flow.state,
    cacheInsert_absent (by rw [installImage_eq]; rfl), decodeAt_pos hd, notesPlus_installImage, installImage_eq]
  rfl

theorem load_of_tooLong {image : List Raw} (h : 32768 < image.length) (s : State) :
    load image s = { s with response := some .loadTooLong } := if_pos h

/-- Settles O15: both states load can leave, the second read field by field. -/
theorem loadEffect : Obligations.LoadEffect := by
  unfold Obligations.LoadEffect
  refine fun image s => ⟨fun h => load_of_tooLong h s, fun h => ?_⟩
  obtain ⟨d, hd, hload⟩ := load_eq_of_fits h s
  rw [hload]
  refine ⟨fun a => ?mem, fun r => Vector.getElem_replicate _, rfl, rfl, rfl, rfl, rfl, rfl, rfl, rfl, rfl, rfl,
    ⟨d, hd, rfl⟩, rfl, rfl, rfl, rfl, rfl, rfl⟩
  case mem => exact (read_ofCells 0 image a).trans (if_pos (Nat.zero_le a))

/-! ### Before the first load (70 R503) -/

/-- Settles O16: of a machine not loaded, only the commands that create one are performed. -/
theorem notLoadedRefused : Obligations.NotLoadedRefused := by
  unfold Obligations.NotLoadedRefused
  intro c s hloaded hload hrestore
  have hcreates : ¬ c.creates = true := fun h =>
    ((Command.creates_iff c).mp h).elim (fun ⟨image, e⟩ => hload image e) (fun ⟨bs, e⟩ => hrestore bs e)
  exact if_neg (by simpa [hloaded] using hcreates)

end Sys2Proof.Machine
end
